-- ==== Sys2Proof/Word.lean ====
section
/-! DEFINITION. The word types of the two blocks: stream and register words, bytes, and the widths the spec names. -/

namespace Sys2Proof

/-- A stream word or a register, `WORD_BITS` = 32 (R8, R90). -/
abbrev Word := BitVec 32

/-- A byte of the image or of the EEPROM (R33, R45). -/
abbrev Byte := BitVec 8

/-- A type code, `CODE_BITS` = 4 (R8, R91). -/
abbrev Code := BitVec 4

/-- A slot id, 5 bits (R96). -/
abbrev Slot := BitVec 5

/-- A decoder-run count or a buffer index, `COUNT_BITS` = 6 (R8, R23). -/
abbrev Count := BitVec 6

/-- An EEPROM byte address, `ADDR_BITS` = 24 (R9). -/
abbrev EepAddr := BitVec 24

end Sys2Proof
end

