-- ==== Sys2Proof/Config.lean ====
section
/-! DEFINITION. The OPEN parameters of R8 (no value is chosen for them) and the free values of the model.

The parameters of R8 that have a value (type codes, field positions, register offsets and bits, command words,
marker periods) stand in Sys2Proof/Decode.lean and Sys2Proof/Machine/Operands.lean, each under its own name. -/

namespace Sys2Proof

/-- The parameters R8 leaves OPEN. `pollMax = none` is `POLL_MAX = inf` (R227). `SHIFT_ORDER` is unmodelled (R8, D28). -/
structure Config.Params where
  /-- `FW_MAX_SIZE`: capacity of the image buffer in bytes (R8, R33). -/
  fwMaxSize     : Nat
  /-- `EEP_SIZE`: bytes in the EEPROM array (R8, R45). -/
  eepSize       : Nat
  /-- `POLL_MAX`: the largest number of busy polls of one wait, or no bound (R8, R227). -/
  pollMax       : Option Nat
  /-- `ERASED_BYTE`: the value of an erased EEPROM byte (R8, R217). -/
  erasedByte    : Byte
  /-- `DMA_FILLER_WORD`: the dummy word the DMA mode may insert (R8, R266). -/
  dmaFillerWord : Word
  deriving DecidableEq, Repr, Inhabited

/-- What R8 and R9 say of the sizes: `FW_MAX_SIZE <= EEP_SIZE <= 2^24`. -/
def Config.Params.wf (p : Config.Params) : Bool :=
  decide (p.fwMaxSize ≤ p.eepSize) && decide (p.eepSize ≤ 2 ^ 24)

/-- The parameters with both sizes brought inside R8's bounds; sizes inside them already are unchanged. -/
def Config.Params.normalise (p : Config.Params) : Config.Params :=
  { p with eepSize := min p.eepSize (2 ^ 24), fwMaxSize := min p.fwMaxSize (min p.eepSize (2 ^ 24)) }

/-- The OPEN parameters, uninterpreted: nothing in Lean can say which values they are (log entry 4). -/
opaque Config.openParams : Config.Params

/-- The parameters the machine has after reset: R8's OPEN parameters, within R8's bounds. -/
def Config.params : Config.Params := Config.openParams.normalise

/-- `draw(T)` of R15: the n-th value that no rule constrains. A draw of fewer than 32 bits takes low bits
(log entry 5). -/
opaque Config.draw : Nat → Word

/-- The content of EEPROM byte `a` before the first erase: `draw` per byte (R45, U12). -/
opaque Config.eepInitial : Nat → Byte

/-- `RDATA` before the first completed read operation: any value (R41, U10). -/
opaque Config.rdataInitial : Byte

end Sys2Proof
end

