-- ==== Sys2Proof/Syntax.lean ====
section
/-! DEFINITION. The instructions: one constructor per row of spec/opcode_table.json, with the row's fields as operands;
the requests that carry an instruction to the machine, and the part of the state that selects a row. -/

namespace Sys2Proof

/-- `DEV.mode` (R43): what a write to CFG_DATA means. -/
inductive Mode where
  | none
  | writeEnable
  | read
  deriving DecidableEq, Repr

/-- The state a row's key `"when"` looks at (R95, R115): match and mask alone do not select a row. -/
structure DecodeCtx where
  /-- `DEC.remaining`: not 0 means state InDecoderRun. -/
  remaining      : Count
  /-- `DEC.lastType`. -/
  lastType       : Code
  /-- `DEC.isContinuation`. -/
  isContinuation : Bool
  /-- `DEV.mode`. -/
  mode           : Mode
  deriving DecidableEq, Repr

/-- Where an instruction's word arrives (R90): the stream port of DEC, or an access to the register block.
`width` is the access width in bytes; only 4 is provided (R14, R66). -/
inductive Request where
  /-- A word presented on `in_word` (R28). -/
  | stream (w : Word)
  /-- `MemWrite(off, width, v)` (R14). -/
  | write (off width : Nat) (v : Word)
  /-- `MemRead(off, width)` (R14). -/
  | read (off width : Nat)
  deriving DecidableEq, Repr

/-- The instructions, one constructor per row of the opcode table, in the table's order. An operand named `ign` holds the
bits the row ignores, which stay visible in `DataWord.raw` (R104). -/
inductive Instr where
  | blkhdr (slot : Slot) (modid : BitVec 4) (blknum : BitVec 10) (nevt : BitVec 8)
  | blktrl (slot : Slot) (nwords : BitVec 22)
  | evhdr (slot : Slot) (trigtime : BitVec 10) (evtnum : BitVec 12)
  | trgtime (time1 : BitVec 27)
  | undef4 (payload : BitVec 27)
  | undef5 (payload : BitVec 27)
  | undef6 (payload : BitVec 27)
  | undef7 (payload : BitVec 27)
  | dechdr (ign : BitVec 21) (n : Count)
  | undef9 (payload : BitVec 27)
  | undef10 (payload : BitVec 27)
  | undef11 (payload : BitVec 27)
  | undef12 (payload : BitVec 27)
  | eoe (ign : BitVec 27)
  | dnv (slot : Slot) (ign : BitVec 22)
  | fill (slot : Slot) (ign : BitVec 22)
  | cont (payload : BitVec 31)
  | blkhdrC (payload : BitVec 31)
  | blktrlC (payload : BitVec 31)
  | evhdrC (payload : BitVec 31)
  | trgtimeC (ign : BitVec 11) (time2 : BitVec 20)
  | trgtimeCerr (payload : BitVec 31)
  | dechdrC (payload : BitVec 31)
  | eoeC (payload : BitVec 31)
  | dnvC (payload : BitVec 31)
  | fillC (payload : BitVec 31)
  | undefC (payload : BitVec 31)
  | decdata (data : Word)
  | setWren
  | bulkErase
  | setRd
  | poll
  | wrbyte (addr : EepAddr) (byte : Byte)
  | rdbyte (addr : EepAddr)
  deriving DecidableEq, Repr

end Sys2Proof
end

