-- ==== Sys2Proof/WellFormed.lean ====
section
/-! DEFINITION. When an instruction is well formed. Every operand has the width of its field by its type, so what is left
to check is the row's key `"when"` in the opcode table (R115): whether the state selects the row. -/

namespace Sys2Proof

/-- DEC is in state Generic (R27). -/
def DecodeCtx.generic (c : DecodeCtx) : Bool := c.remaining == 0

/-- The eight undefined type codes, `CODES_UNDEF` of R8. -/
def undefinedCode (t : Code) : Bool :=
  t == 4 || t == 5 || t == 6 || t == 7 || t == 9 || t == 10 || t == 11 || t == 12

/-- The row's condition on the state, as the opcode table gives it under `"when"`. `cont` is the generic row: the rows
below it in the table refine it. That `DEV.pending = None` holds is no part of the check: with an operation pending the
access is still this row, and faults (R229). -/
def Instr.wellFormedIn (c : DecodeCtx) : Instr → Bool
  | .blkhdr _ _ _ _ => c.generic
  | .blktrl _ _ => c.generic
  | .evhdr _ _ _ => c.generic
  | .trgtime _ => c.generic
  | .undef4 _ => c.generic
  | .undef5 _ => c.generic
  | .undef6 _ => c.generic
  | .undef7 _ => c.generic
  | .dechdr _ _ => c.generic
  | .undef9 _ => c.generic
  | .undef10 _ => c.generic
  | .undef11 _ => c.generic
  | .undef12 _ => c.generic
  | .eoe _ => c.generic
  | .dnv _ _ => c.generic
  | .fill _ _ => c.generic
  | .cont _ => c.generic
  | .blkhdrC _ => c.generic && c.lastType == 0
  | .blktrlC _ => c.generic && c.lastType == 1
  | .evhdrC _ => c.generic && c.lastType == 2
  | .trgtimeC _ _ => c.generic && c.lastType == 3 && !c.isContinuation
  | .trgtimeCerr _ => c.generic && c.lastType == 3 && c.isContinuation
  | .dechdrC _ => c.generic && c.lastType == 8
  | .eoeC _ => c.generic && c.lastType == 13
  | .dnvC _ => c.generic && c.lastType == 14
  | .fillC _ => c.generic && c.lastType == 15
  | .undefC _ => c.generic && undefinedCode c.lastType
  | .decdata _ => !c.generic
  | .setWren => true
  | .bulkErase => true
  | .setRd => true
  | .poll => true
  | .wrbyte _ _ => c.mode == .writeEnable
  | .rdbyte _ => c.mode == .read

end Sys2Proof
end

