-- ==== Sys2Proof/Decode.lean ====
section
/-! DEFINITION. Encoding parameters, field extraction, the decoder (total, rejecting by name) and the encoder. -/

namespace Sys2Proof

/-! ### Encoding parameters: those of R8 that have a value -/

/-- `CODE_BLKHDR` (R8, R92; source). -/
def codeBlkHdr : Code := 0
/-- `CODE_BLKTRL` (R92). DESIGN CHOICE of the spec: D1. -/
def codeBlkTrl : Code := 1
/-- `CODE_EVHDR` (R92). DESIGN CHOICE of the spec: D1. -/
def codeEvHdr : Code := 2
/-- `CODE_TRGTIME` (R92). DESIGN CHOICE of the spec: D1. -/
def codeTrgTime : Code := 3
/-- `CODE_DECHDR` (R8, R92; source). -/
def codeDecHdr : Code := 8
/-- `CODE_EOE` (R92). DESIGN CHOICE of the spec: D1. -/
def codeEoe : Code := 13
/-- `CODE_DNV` (R92). DESIGN CHOICE of the spec: D1. -/
def codeDnv : Code := 14
/-- `CODE_FILL` (R8, R92; source). -/
def codeFill : Code := 15

/-- `CFG_CSR_OFF` (R8, R41). DESIGN CHOICE of the spec: D17. -/
def cfgCsrOff : Nat := 0x90
/-- `CFG_DATA_OFF` (R8, R42). DESIGN CHOICE of the spec: D17. -/
def cfgDataOff : Nat := 0x94
/-- `CMD_WREN` (R8, R105). DESIGN CHOICE of the spec: D19. -/
def cmdWren : Word := 0x80000000
/-- `CMD_BULK_ERASE` (R8, R105). DESIGN CHOICE of the spec: D19. -/
def cmdBulkErase : Word := 0x40000000
/-- `CMD_READ` (R8, R105). DESIGN CHOICE of the spec: D19. -/
def cmdRead : Word := 0x20000000

/-! ### Fields of a stream word (R91, R96 to R102): `w[hi:lo]` is `w.extractLsb' lo (hi - lo + 1)` -/

/-- Bit 31, set in a type-defining word (R91, R93). -/
def typeDefining (w : Word) : Bool := w.getLsbD 31
/-- `w[30:27]`, the type code of a type-defining word (R91). -/
def codeOf (w : Word) : Code := w.extractLsb' 27 4
/-- `w[26:0]`, the payload of a type-defining word (R91); for TRGTIME it is `time1` (R100). -/
def payloadOf (w : Word) : BitVec 27 := w.extractLsb' 0 27
/-- `w[30:0]`, the payload of a continuation word (R93). -/
def contPayloadOf (w : Word) : BitVec 31 := w.extractLsb' 0 31
/-- `w[26:22]`, the slot id (R96). -/
def slotOf (w : Word) : Slot := w.extractLsb' 22 5
/-- `w[21:18]`, the module id of a BlockHeader (R97). -/
def modidOf (w : Word) : BitVec 4 := w.extractLsb' 18 4
/-- `w[17:8]`, the block number of a BlockHeader (R97). -/
def blknumOf (w : Word) : BitVec 10 := w.extractLsb' 8 10
/-- `w[7:0]`, the event count of a BlockHeader (R97). -/
def nevtOf (w : Word) : BitVec 8 := w.extractLsb' 0 8
/-- `w[21:0]`, the word count of a BlockTrailer (R98); in DNV and FILL these bits are ignored (R103). -/
def low22Of (w : Word) : BitVec 22 := w.extractLsb' 0 22
/-- `w[21:12]`, the trigger time fragment of an EventHeader (R99). -/
def trigtimeOf (w : Word) : BitVec 10 := w.extractLsb' 12 10
/-- `w[11:0]`, the event number of an EventHeader (R99). -/
def evtnumOf (w : Word) : BitVec 12 := w.extractLsb' 0 12
/-- `w[30:20]`, ignored in a TriggerTime continuation word (R101). -/
def contIgnoredOf (w : Word) : BitVec 11 := w.extractLsb' 20 11
/-- `w[19:0]`, the second time fragment (R101). -/
def time2Of (w : Word) : BitVec 20 := w.extractLsb' 0 20
/-- `w[26:6]`, ignored in a DecoderHeader (R102). -/
def countIgnoredOf (w : Word) : BitVec 21 := w.extractLsb' 6 21
/-- `w[5:0]`, the count of a DecoderHeader (R102). -/
def countOf (w : Word) : Count := w.extractLsb' 0 6
/-- `v[31:8]`, the field ADDR of a CFG_DATA word (R107). -/
def addrOf (v : Word) : EepAddr := v.extractLsb' 8 24
/-- `v[7:0]`, the field BYTE of a CFG_DATA word (R107). -/
def byteOf (v : Word) : Byte := v.extractLsb' 0 8

/-! ### The stateless framing predicates (R114) -/

/-- `isBlockHeader(w)` (R114, R141). -/
def isBlockHeader (w : Word) : Bool := typeDefining w && codeOf w == codeBlkHdr
/-- `isBlockTrailer(w)` (R114, R144). -/
def isBlockTrailer (w : Word) : Bool := typeDefining w && codeOf w == codeBlkTrl

/-! ### The decoder -/

/-- Why an access to the register block is no instruction. No stream word is illegal (R95, R109). -/
inductive DecodeError where
  /-- The width is not 4 bytes (R66, U14). -/
  | width (n : Nat)
  /-- The offset is not a multiple of 4 (R66, U14). -/
  | misaligned (off : Nat)
  /-- The offset lies above 0x94, outside the register block (R60, R70). -/
  | outsideBlock (off : Nat)
  /-- One of the module's other registers, which R47 names without content. -/
  | otherRegister (off : Nat)
  /-- A value written to CFG_CSR that is no command (R110, U6). -/
  | unknownCommand (v : Word)
  /-- A write to CFG_DATA in mode None (R110, U7). -/
  | dataWriteInModeNone
  /-- A read of CFG_DATA: it returns a draw (R42, U9) and is no row of the table. -/
  | dataRead
  deriving DecidableEq, Repr

/-- A type-defining word in state Generic: bits 30:27 select the row (R92, R95). -/
def decodeTyped (w : Word) : Instr :=
  let code := codeOf w
  if code = codeBlkHdr then .blkhdr (slotOf w) (modidOf w) (blknumOf w) (nevtOf w)
  else if code = codeBlkTrl then .blktrl (slotOf w) (low22Of w)
  else if code = codeEvHdr then .evhdr (slotOf w) (trigtimeOf w) (evtnumOf w)
  else if code = codeTrgTime then .trgtime (payloadOf w)
  else if code = 4 then .undef4 (payloadOf w)
  else if code = 5 then .undef5 (payloadOf w)
  else if code = 6 then .undef6 (payloadOf w)
  else if code = 7 then .undef7 (payloadOf w)
  else if code = codeDecHdr then .dechdr (countIgnoredOf w) (countOf w)
  else if code = 9 then .undef9 (payloadOf w)
  else if code = 10 then .undef10 (payloadOf w)
  else if code = 11 then .undef11 (payloadOf w)
  else if code = 12 then .undef12 (payloadOf w)
  else if code = codeEoe then .eoe (payloadOf w)
  else if code = codeDnv then .dnv (slotOf w) (low22Of w)
  else .fill (slotOf w) (low22Of w)

/-- A continuation word in state Generic: `DEC.lastType` selects the row, and under TriggerTime `DEC.isContinuation`
too (R95, R126, R155, R156). -/
def decodeContinuation (c : DecodeCtx) (w : Word) : Instr :=
  let p := contPayloadOf w
  if c.lastType = codeBlkHdr then .blkhdrC p
  else if c.lastType = codeBlkTrl then .blktrlC p
  else if c.lastType = codeEvHdr then .evhdrC p
  else if c.lastType = codeTrgTime then
    if c.isContinuation then .trgtimeCerr p else .trgtimeC (contIgnoredOf w) (time2Of w)
  else if c.lastType = codeDecHdr then .dechdrC p
  else if c.lastType = codeEoe then .eoeC p
  else if c.lastType = codeDnv then .dnvC p
  else if c.lastType = codeFill then .fillC p
  else .undefC p

/-- R95 without the hidden `lastType`: first `DEC.remaining`, then bit 31. A continuation word is the generic row `cont`. -/
def decodeFormat (remaining : Count) (w : Word) : Instr :=
  if remaining ≠ 0 then .decdata w
  else if typeDefining w then decodeTyped w
  else .cont (contPayloadOf w)

/-- R95: a stream word's row, refined by `DEC.lastType` where it is a continuation word. Total: no word is illegal. -/
def decodeStream (c : DecodeCtx) (w : Word) : Instr :=
  if c.remaining ≠ 0 then .decdata w
  else if typeDefining w then decodeTyped w
  else decodeContinuation c w

/-- What every access to the register block must meet before its offset is looked at (R60, R66, R70). -/
def checkAccess (off width : Nat) : Option DecodeError :=
  if width ≠ 4 then some (.width width)
  else if off % 4 ≠ 0 then some (.misaligned off)
  else if cfgDataOff < off then some (.outsideBlock off)
  else if off ≠ cfgCsrOff ∧ off ≠ cfgDataOff then some (.otherRegister off)
  else none

/-- The decoder (R95, R105 to R107): the row an arriving word selects in a state, or the reason there is none. -/
def decode (c : DecodeCtx) : Request → Except DecodeError Instr
  | .stream w => .ok (decodeStream c w)
  | .write off width v =>
    match checkAccess off width with
    | some e => .error e
    | none =>
      if off = cfgCsrOff then
        if v = cmdWren then .ok .setWren
        else if v = cmdBulkErase then .ok .bulkErase
        else if v = cmdRead then .ok .setRd
        else .error (.unknownCommand v)
      else match c.mode with
        | .writeEnable => .ok (.wrbyte (addrOf v) (byteOf v))
        | .read => .ok (.rdbyte (addrOf v))
        | .none => .error .dataWriteInModeNone
  | .read off width =>
    match checkAccess off width with
    | some e => .error e
    | none => if off = cfgCsrOff then .ok .poll else .error .dataRead

/-! ### The encoder -/

/-- A field put at its place in a word: `zext_32(v) << lo` (R12, R108). -/
def place (lo : Nat) {n : Nat} (v : BitVec n) : Word := v.setWidth 32 <<< lo

/-- A type-defining word: bit 31 set, the code at 30:27, the payload below (R91). -/
def typedWord (code : Code) (payload : Word) : Word := BitVec.twoPow 32 31 ||| place 27 code ||| payload

/-- A continuation word: bit 31 clear (R93). -/
def contWord (payload : BitVec 31) : Word := place 0 payload

/-- The CFG_DATA word `(addr << 8) | byte` (R107, R108). -/
def dataWord (addr : EepAddr) (byte : Byte) : Word := place 8 addr ||| place 0 byte

/-- The 32-bit word of an instruction (the patterns of R92 to R107). `poll` is a read and writes no word: 0 stands there. -/
def encodeWord : Instr → Word
  | .blkhdr slot modid blknum nevt => typedWord codeBlkHdr (place 22 slot ||| place 18 modid ||| place 8 blknum ||| place 0 nevt)
  | .blktrl slot nwords => typedWord codeBlkTrl (place 22 slot ||| place 0 nwords)
  | .evhdr slot trigtime evtnum => typedWord codeEvHdr (place 22 slot ||| place 12 trigtime ||| place 0 evtnum)
  | .trgtime time1 => typedWord codeTrgTime (place 0 time1)
  | .undef4 p => typedWord 4 (place 0 p)
  | .undef5 p => typedWord 5 (place 0 p)
  | .undef6 p => typedWord 6 (place 0 p)
  | .undef7 p => typedWord 7 (place 0 p)
  | .dechdr ign n => typedWord codeDecHdr (place 6 ign ||| place 0 n)
  | .undef9 p => typedWord 9 (place 0 p)
  | .undef10 p => typedWord 10 (place 0 p)
  | .undef11 p => typedWord 11 (place 0 p)
  | .undef12 p => typedWord 12 (place 0 p)
  | .eoe ign => typedWord codeEoe (place 0 ign)
  | .dnv slot ign => typedWord codeDnv (place 22 slot ||| place 0 ign)
  | .fill slot ign => typedWord codeFill (place 22 slot ||| place 0 ign)
  | .cont p => contWord p
  | .blkhdrC p => contWord p
  | .blktrlC p => contWord p
  | .evhdrC p => contWord p
  | .trgtimeC ign time2 => place 20 ign ||| place 0 time2
  | .trgtimeCerr p => contWord p
  | .dechdrC p => contWord p
  | .eoeC p => contWord p
  | .dnvC p => contWord p
  | .fillC p => contWord p
  | .undefC p => contWord p
  | .decdata w => w
  | .setWren => cmdWren
  | .bulkErase => cmdBulkErase
  | .setRd => cmdRead
  | .poll => 0
  | .wrbyte a b => dataWord a b
  | .rdbyte a => dataWord a 0

/-- The request that carries an instruction: the stream port for the formats TW-T, TW-C and TW-R, an access to one of the
two EEPROM registers for CSR-W, CSR-R and DATA-W (R90). -/
def encode (i : Instr) : Request :=
  match i with
  | .setWren | .bulkErase | .setRd => .write cfgCsrOff 4 (encodeWord i)
  | .poll => .read cfgCsrOff 4
  | .wrbyte _ _ | .rdbyte _ => .write cfgDataOff 4 (encodeWord i)
  | _ => .stream (encodeWord i)

/-- The instruction arrives on DEC's stream port (R90). -/
def Instr.onStream (i : Instr) : Bool :=
  match i with
  | .setWren | .bulkErase | .setRd | .poll | .wrbyte _ _ | .rdbyte _ => false
  | _ => true

/-! ### The opcode table's word -/

/-- The state that selects a row right after reset: `lastType` 15, Generic, mode None (R50). -/
def resetCtx : DecodeCtx := { remaining := 0, lastType := codeFill, isContinuation := false, mode := .none }

/-- The 32-bit word whose low `nbits` bits are those of `w`, the bits above them 0. -/
def tableWord (nbits w : Nat) : Word := BitVec.ofNat 32 (w % 2 ^ nbits)

/-- The instruction the decoder reads from a word presented on the STREAM port right after reset. The table's words say
nothing of the port or of the state that select among rows with the same words (R115); see log entry 3 (DESIGN CHOICE). -/
def decodeTableWord (nbits w : Nat) : Option Instr :=
  if nbits ≤ 32 then some (decodeStream resetCtx (tableWord nbits w)) else none

end Sys2Proof
end

