-- ==== Sys2Proof/Machine/State.lean ====
section
/-! DEFINITION. The state of the machine: DEC (R21 to R29), PRG (R33 to R40), DEV (R41 to R46) and what the environment
agents HOST and SRC hold, the ways a step can stop, and the state after reset (R50). Plain data throughout. -/

namespace Sys2Proof.Machine

/-! ### DEC -/

/-- The tag of a DataWord (R29). `undefined n` carries the raw type code. -/
inductive Tag where
  | blockHeader
  | blockTrailer
  | eventHeader
  | triggerTime
  | decoderHeader
  | decoderData
  | endOfEvent
  | dataNotValid
  | fillerWord
  | undefined (n : Code)
  deriving DecidableEq, Repr

/-- The fields of a word's type (R96 to R103), or none. -/
inductive Fields where
  | none
  | blockHeader (slot : Slot) (modid : BitVec 4) (blknum : BitVec 10) (nevt : BitVec 8)
  | blockTrailer (slot : Slot) (nwords : BitVec 22)
  | eventHeader (slot : Slot) (trigtime : BitVec 10) (evtnum : BitVec 12)
  | time1 (t : BitVec 27)
  | time2 (t : BitVec 20)
  | count (n : Count)
  | slot (slot : Slot)
  deriving DecidableEq, Repr

/-- The field `err` of a DataWord (R29, R272). -/
inductive DecErr where
  | none
  | trigTimeSeq
  deriving DecidableEq, Repr

/-- The DataWord, the output of one DEC step (R29). The field `type` is named `code` here. -/
structure DataWord where
  raw    : Word
  code   : Code
  new    : Bool
  tag    : Tag
  idx    : Option Count
  fields : Fields
  err    : DecErr
  deriving DecidableEq, Repr

/-- The registers of DEC (R21 to R26) and its output port. -/
structure Dec where
  /-- R21. -/
  lastType       : Code
  /-- R22. -/
  isContinuation : Bool
  /-- R23, the source's `decoderWordsRemaining`; 0 is Generic, r > 0 is InDecoderRun(r) (R27). -/
  remaining      : Count
  /-- R24. -/
  decCount       : Count
  /-- R25, `DECBUF_SIZE` = 64 entries. Which entries are valid is `Dec.validCount`; the others hold no value that a read
  can see. -/
  decBuf         : Vector Word 64
  /-- R26, sticky. -/
  protoErr       : Bool
  /-- The BlockRecord (R29): the DataWords emitted since the last reset, oldest first. -/
  out            : List DataWord
  deriving DecidableEq, Repr

/-- The number of valid buffer entries, `decCount - remaining` (R25). -/
def Dec.validCount (d : Dec) : Nat := d.decCount.toNat - d.remaining.toNat

/-- The record of `save` and `restore` (R48, R133): the four registers and the valid part of the buffer. -/
structure DecRecord where
  lastType       : Code
  isContinuation : Bool
  remaining      : Count
  decCount       : Count
  buf            : List Word
  deriving DecidableEq, Repr

/-! ### PRG -/

/-- `PRG.stage` (R35). -/
inductive Stage where
  | idle
  | confirm
  | eraseCmd
  | erasePoll
  | wrMode
  | wrByte
  | wrPoll
  | rdMode
  | rdByte
  | rdPoll
  | finish
  deriving DecidableEq, Repr

/-- `PRG.result` (R39, R271). `timeout` carries the stage and `PRG.addr` (R271). -/
inductive PrgResult where
  | none
  | ok
  | declined
  | notInitialized
  | imageNotLoaded
  | imageTooLarge
  | ioError
  | deviceError
  | timeout (stage : Stage) (addr : Nat)
  | verificationFailed
  deriving DecidableEq, Repr

/-- The operation PRG is in: a SESSION, or one of the three entry points on its own (R251). -/
inductive PrgOp where
  | none
  | session
  | eraseAll
  | download
  | verify
  deriving DecidableEq, Repr

/-- The diagnostic `PRG.mm` (R37). -/
structure Mismatch where
  valid    : Bool
  addr     : EepAddr
  expected : Byte
  actual   : Byte
  deriving DecidableEq, Repr

/-- What PRG puts on its output port (R15, R287, R289). -/
inductive PrgEmit where
  | progressErase
  | progressDownload
  | diagnostic (addr : EepAddr) (expected actual : Byte)
  deriving DecidableEq, Repr

/-- A completed register access of PRG, in the notation of R112. -/
inductive Access where
  /-- `W CSR v` or `W DATA v`. -/
  | wrote (off : Nat) (v : Word)
  /-- `R CSR -> v`. -/
  | got (off : Nat) (v : Word)
  deriving DecidableEq, Repr

/-- The registers of PRG (R33 to R39), what its stages imply, and its output ports. -/
structure Prg where
  /-- R33: the entries that hold a value. `PRG.imgSize` is its length, `Prg.imgSize`. -/
  img       : List Byte
  /-- R34. -/
  addr      : Nat
  /-- R35. -/
  stage     : Stage
  /-- R36. -/
  polls     : Nat
  /-- R37. -/
  verifyErr : Bool
  /-- R37. -/
  mm        : Mismatch
  /-- R38. -/
  lockHeld  : Bool
  /-- R39. -/
  result    : PrgResult
  /-- The operation in progress, which R249 and R251 let the stages depend on. -/
  op        : PrgOp
  /-- The `r` that stage Finish writes to `result` (R250). -/
  ending    : PrgResult
  /-- The records emitted, oldest first (R40). -/
  emitted   : List PrgEmit
  /-- The register accesses completed, oldest first (R40). -/
  trace     : List Access
  deriving DecidableEq, Repr

/-- `PRG.imgSize` (R33): entry `i` of the image holds a value exactly when `i < imgSize`. -/
def Prg.imgSize (p : Prg) : Nat := p.img.length

/-! ### DEV -/

/-- `DEV.pending` (R44). -/
inductive Pending where
  | none
  | erase
  | write (a : EepAddr) (b : Byte)
  | read (a : EepAddr)
  deriving DecidableEq, Repr

/-- `DEV.eep` with its marks (R45), as the difference from what an unlisted address reads as (`Memory.background`,
Machine/Ops.lean). -/
structure Memory where
  /-- A bulk erase has completed (R217). -/
  everErased : Bool
  /-- The bytes that differ from the background, addresses strictly rising. -/
  cells      : List Host.Cell
  /-- The addresses written since the last completed erase, strictly rising: their mark `erased` is 0 (R221). -/
  written    : List Nat
  deriving DecidableEq, Repr

/-- The state of DEV (R41 to R46). `BUSY` is no register of its own: it is 1 exactly when `pending` is not none (R44). -/
structure Dev where
  /-- R43. -/
  mode    : Mode
  /-- R44. -/
  pending : Pending
  /-- R45. -/
  mem     : Memory
  /-- CFG_CSR's `RDATA` (R41, R225). -/
  rdata   : Byte
  deriving DecidableEq, Repr

/-! ### The environment: HOST and SRC -/

/-- What SRC reported of its last `readBlock` (R260, R261, R265, R266, R278). -/
inductive SrcResult where
  | none
  | words (n : Nat)
  | invalidHeader
  | readError
  | dmaError
  deriving DecidableEq, Repr

/-- A command of HOST to PRG (R40). A file is its bytes in order; a `none` is a byte whose read fails (R206). -/
inductive PrgCmd where
  | loadImage (file : List (Option Byte))
  | startSession
  | eraseAll
  | download
  | verify
  deriving DecidableEq, Repr

/-- One move of one agent (R7), with the input it brings. -/
inductive Event where
  /-- SRC or HOST presents a word on DEC's `in_word` (R28): DEC takes its step. -/
  | word (w : Word)
  /-- HOST asserts `rst` of DEC (R134, R300). -/
  | decRst
  /-- HOST saves the hidden state of DEC (R48, R133). -/
  | decSave
  /-- HOST restores a hidden state into DEC (R48, R133). -/
  | decRestore (r : DecRecord)
  /-- HOST reads `DEC.decBuf[i]` (R25, R60). -/
  | bufRead (i : Nat)
  /-- HOST's initialisation sets the input `devReady` (R40, R47, R307). -/
  | devReady (b : Bool)
  /-- HOST gives PRG a command (R40). -/
  | cmd (c : PrgCmd)
  /-- HOST answers the confirmation prompt (R40, R249). -/
  | confirm (b : Bool)
  /-- HOST asserts `rst` of PRG (R301). -/
  | prgRst
  /-- PRG takes its next step (R250); with `fail` the register access of that step, if it makes one, fails (R232, U22). -/
  | prg (fail : Bool)
  /-- `DEV.complete` (R228). -/
  | devComplete
  /-- The HOST thread `who`, another than the one PRG runs in, acquires the lock (R72, R290). -/
  | otherAcquire (who : Nat)
  /-- That thread releases the lock. -/
  | otherRelease (who : Nat)
  /-- That thread writes a register (R60, R66). -/
  | hostWrite (who off width : Nat) (v : Word)
  /-- That thread reads a register (R60, R66). -/
  | hostRead (who off width : Nat)
  /-- The module puts words into the FIFO that SRC drains (R260). -/
  | fifoFill (ws : List Word)
  /-- SRC's `readBlock` in programmed-I/O mode; `zeroEvents` is the device's report of zero events on board (R261); with
  `fail = some k` the read of word `k` of the delivery fails (R265). -/
  | srcPio (maxWords : Nat) (zeroEvents : Bool) (fail : Option Nat)
  /-- SRC's `readBlock` in DMA mode of `n` words (R266); `filler`: the dummy word is inserted; `fail`: the engine fails. -/
  | srcDma (n : Nat) (filler fail : Bool)
  deriving DecidableEq, Repr

/-- What HOST and SRC hold, and the plain data that says who moves next. -/
structure Env where
  /-- The input `devReady` (R40, R50). -/
  devReady  : Bool
  /-- The HOST thread that holds the lock, if one does (R72). HOST's other threads go by a number: DESIGN CHOICE (log entry 26). -/
  lockOther : Option Nat
  /-- The moves to come, next first: the model's schedule and its inputs. When it is empty PRG moves by itself while it is in an
  operation. DESIGN CHOICE (log entry 1). -/
  inputs    : List Event
  /-- The moves that wait for the lock, oldest first (R72). DESIGN CHOICE (log entry 2). -/
  blocked   : List Event
  /-- The device FIFO (R260), next word first. -/
  fifo      : List Word
  /-- SRC's last report. -/
  srcResult : SrcResult
  /-- The value the last `MemRead` returned (R14, R106). -/
  busData   : Word
  /-- The value the last read of `DEC.decBuf` returned. -/
  bufData   : Word
  /-- The records `save` has put out, oldest first (R133). -/
  saved     : List DecRecord
  deriving DecidableEq, Repr

/-! ### The machine -/

/-- The whole machine. -/
structure State where
  /-- The OPEN parameters of R8: constants of a run, no step writes them. -/
  params : Config.Params
  dec    : Dec
  prg    : Prg
  dev    : Dev
  env    : Env
  /-- The number of draws made so far (R15): the next draw is `Config.draw draws`. The model's own field
  (DESIGN CHOICE, log entry 5). -/
  draws  : Nat
  deriving DecidableEq, Repr

/-- The part of the state the decoder looks at (R115). -/
def State.ctx (s : State) : DecodeCtx :=
  { remaining := s.dec.remaining, lastType := s.dec.lastType, isContinuation := s.dec.isContinuation, mode := s.dev.mode }

/-- The faults. -/
inductive Fault where
  /-- A write to CFG_CSR or CFG_DATA while an operation is pending in DEV (R229, R280, U4). Safe: the spec says that no next
  state of DEV follows. Raised by SET_WREN, BULK_ERASE, SET_RD, WRBYTE and RDBYTE. -/
  | cmdWhileBusy
  /-- HOST reads a `decBuf` entry that is not valid (R25, U2). Safe: the spec asks for this fault. Raised by `bufRead`. -/
  | bufferEntryNotValid (i : Nat)
  /-- PRG reads an image entry at or above `imgSize`, which holds no value (R33). Safe: no run from reset does it. Raised by
  the stages WrByte and RdPoll. -/
  | imageEntryNoValue (i : Nat)
  /-- A register access above offset 0x94, outside the register block (R60, R70). Safe: the spec has no such address. Raised
  by accesses of other HOST threads. -/
  | outsideBlock (off : Nat)
  deriving DecidableEq, Repr

/-- The refusals. -/
inductive Refusal where
  /-- The instruction has no meaning yet. Safe. Raised by no arm of exec today. -/
  | notModelled (mnemonic : String)
  /-- A value written to CFG_CSR that is none of the three commands (R41, R110, U6). Safe: the spec refuses it. -/
  | unknownCommand (v : Word)
  /-- A write to CFG_DATA in mode None (R42, R110, U7). Safe: the spec refuses it. -/
  | dataWriteInModeNone
  /-- An EEPROM address at or above `EEP_SIZE` (R230, U5). Safe: the spec refuses it. -/
  | addressBeyondEeprom (a : EepAddr)
  /-- A register access of another width than 4 bytes (R66, U14). Safe: the spec refuses it. -/
  | accessWidth (n : Nat)
  /-- A register access at an offset that is no multiple of 4 (R66, U14). Safe: the spec refuses it. -/
  | accessMisaligned (off : Nat)
  /-- An access to a register that R47 names without content (R5, R47). Safe: its behaviour is not in the spec. -/
  | otherRegister (off : Nat)
  /-- `restore` of a record that breaks the invariant of R132 (U15). Safe: the spec refuses it. -/
  | badRestore
  /-- `rst` of PRG in a stage other than Idle (R301, U16). Safe: the spec refuses it. -/
  | rstOutsideIdle
  /-- A command to PRG in a stage other than Idle (R250, U21). Safe: the spec refuses it. -/
  | commandOutsideIdle
  deriving DecidableEq, Repr

/-- What an instruction, an event or a step answers. -/
abbrev Result := Host.Outcome State Fault Refusal

/-! ### Reset -/

/-- DEC after reset (R50, R300). The buffer's words are a DESIGN CHOICE (log entry 7) that no read can see: no entry is valid. -/
def Dec.reset : Dec :=
  { lastType := codeFill, isContinuation := false, remaining := 0, decCount := 0, decBuf := Vector.replicate 64 0,
    protoErr := false, out := [] }

/-- `PRG.mm` after reset: not valid; the other three fields hold no value (R50), 0 here by DESIGN CHOICE (log entry 8). -/
def Mismatch.reset : Mismatch := { valid := false, addr := 0, expected := 0, actual := 0 }

/-- PRG after reset (R50, R301). -/
def Prg.reset : Prg :=
  { img := [], addr := 0, stage := .idle, polls := 0, verifyErr := false, mm := Mismatch.reset, lockHeld := false,
    result := .none, op := .none, ending := .none, emitted := [], trace := [] }

/-- `DEV.eep` before the first erase: every byte is its draw, no byte is marked erased (R45; DEDUCED, log entry 10). -/
def Memory.reset : Memory := { everErased := false, cells := [], written := [] }

/-- DEV after reset: mode None in the model, no operation pending by the launch premise (R50, R302, R310;
DESIGN CHOICE, log entry 9). -/
def Dev.reset : Dev := { mode := .none, pending := .none, mem := Memory.reset, rdata := Config.rdataInitial }

/-- The environment before anything has happened: `devReady` 0 (R50), the lock free, nothing scheduled. All but `devReady` are the
model's own fields: DESIGN CHOICE (log entry 11). -/
def Env.reset : Env :=
  { devReady := false, lockOther := none, inputs := [], blocked := [], fifo := [], srcResult := .none, busData := 0,
    bufData := 0, saved := [] }

/-- The machine right after reset (R50). -/
def State.reset : State :=
  { params := Config.params, dec := Dec.reset, prg := Prg.reset, dev := Dev.reset, env := Env.reset, draws := 0 }

end Sys2Proof.Machine
end

