-- ==== Sys2Proof/Machine/Operands.lean ====
section
/-! DEFINITION. What is read out of a word and what is assembled into one: the tag and the fields of a stream word (R92, R96
to R103), the CFG_CSR read view (R41, R106), the bit reversal of an image byte (R200), and the marker periods of R8. -/

namespace Sys2Proof.Machine

/-- `tagOf(code)`, the column "tag" of R92. -/
def tagOf (code : Code) : Tag :=
  if code = codeBlkHdr then .blockHeader
  else if code = codeBlkTrl then .blockTrailer
  else if code = codeEvHdr then .eventHeader
  else if code = codeTrgTime then .triggerTime
  else if code = codeDecHdr then .decoderHeader
  else if code = codeEoe then .endOfEvent
  else if code = codeDnv then .dataNotValid
  else if code = codeFill then .fillerWord
  else .undefined code

/-- The fields of a type-defining word (R97 to R100, R102, R103). -/
def fieldsOf (w : Word) : Fields :=
  let code := codeOf w
  if code = codeBlkHdr then .blockHeader (slotOf w) (modidOf w) (blknumOf w) (nevtOf w)
  else if code = codeBlkTrl then .blockTrailer (slotOf w) (low22Of w)
  else if code = codeEvHdr then .eventHeader (slotOf w) (trigtimeOf w) (evtnumOf w)
  else if code = codeTrgTime then .time1 (payloadOf w)
  else if code = codeDecHdr then .count (countOf w)
  else if code = codeDnv then .slot (slotOf w)
  else if code = codeFill then .slot (slotOf w)
  else .none

/-- The word a read of CFG_CSR returns (R41, R106): bits 31:9 have no value and come from a draw (U8), bit 8 is BUSY, bits
7:0 are RDATA. -/
def csrWord (unspecified : BitVec 23) (busy : Bool) (rdata : Byte) : Word :=
  place 9 unspecified ||| place 8 (BitVec.ofBool busy) ||| place 0 rdata

/-- `busy = v[8]`, at `CSR_BUSY_BIT` (R106; D18). -/
def csrBusy (v : Word) : Bool := v.getLsbD 8

/-- `actual = v[7:0]`, at `CSR_RDATA` (R106; D18, D20). -/
def csrRData (v : Word) : Byte := v.extractLsb' 0 8

/-- The first swap of REVB: the two 4-bit groups (R200). -/
def swap4 (b : Byte) : Byte := ((b &&& 0xF0#8) >>> 4) ||| ((b &&& 0x0F#8) <<< 4)

/-- The second swap of REVB: the 2-bit groups inside each 4-bit group (R200). -/
def swap2 (b : Byte) : Byte := ((b &&& 0xCC#8) >>> 2) ||| ((b &&& 0x33#8) <<< 2)

/-- The third swap of REVB: the bits inside each 2-bit group (R200). -/
def swap1 (b : Byte) : Byte := ((b &&& 0xAA#8) >>> 1) ||| ((b &&& 0x55#8) <<< 1)

/-- REVB, the three swaps in the order of R200. -/
def revb (b : Byte) : Byte := swap1 (swap2 (swap4 b))

/-- `ERASE_MARK_EVERY` (R8; source). -/
def eraseMarkEvery : Nat := 100

/-- `DOWNLOAD_MARK_EVERY` (R8; source). -/
def downloadMarkEvery : Nat := 100000

end Sys2Proof.Machine
end

