-- ==== Sys2Proof/Machine/Flags.lean ====
section
/-! DEFINITION. The one-bit pieces of state (R32): what each becomes, in one place. -/

namespace Sys2Proof.Machine

/-- `prevNew` (R120): 1 when the word DEC processed before, in Generic, was type-defining. -/
def prevNew (d : Dec) : Bool := !d.isContinuation

/-- `DEC.protoErr` after a word reported with `err` (R26, R156): sticky. -/
def protoErrAfter (old : Bool) (err : DecErr) : Bool := old || (err == .trigTimeSeq)

/-- `DEV.busy` (R44, R46): 1 exactly when `DEV.pending` is not None. -/
def busyFlag (p : Pending) : Bool := p != .none

/-- `PRG.verifyErr` after a byte has been compared (R246): once set in a verification it stays set. -/
def verifyErrAfter (old : Bool) (expected actual : Byte) : Bool := old || (actual != expected)

/-- The stages in which PRG holds the lock and always has a step to take (R250): all but Idle and Confirm. -/
def lockingStage (g : Stage) : Bool := g != .idle && g != .confirm

/-- The register block's lock is free: no agent holds it (R72). -/
def lockFree (s : State) : Bool := !s.prg.lockHeld && s.env.lockOther.isNone

/-- The HOST thread `who` has a step for a register access: the lock is free or that thread's own. A thread that is not the holder
has none while the lock is held (R72, R290). -/
def lockAllows (who : Nat) (s : State) : Bool :=
  !s.prg.lockHeld && (s.env.lockOther.isNone || s.env.lockOther == some who)

end Sys2Proof.Machine
end

