-- ==== Sys2Proof/Machine/Ops.lean ====
section
/-! DEFINITION. The operations the meanings share: DEC's emission and classification (R120 to R127, R168), the EEPROM array
(R45, R217, R221, R225), DEV's reaction to a register access (R216 to R229), a register read (R226, R42), and how an error
of PRG is raised and its operation ended (R270, R284). -/

namespace Sys2Proof.Machine

/-! ### DEC -/

/-- `emit DataWord(...)` (R15, R29). -/
def emit (dw : DataWord) (s : State) : State := { s with dec := { s.dec with out := s.dec.out ++ [dw] } }

/-- What every type-defining word does in Generic (R122, R124, R125), with the fields of its row. -/
def typed (code : Code) (w : Word) (fields : Fields) (s : State) : State :=
  emit { raw := w, code := code, new := true, tag := tagOf code, idx := none, fields := fields, err := .none }
    { s with dec := { s.dec with lastType := code, isContinuation := false } }

/-- What every continuation word does in Generic (R123 to R125), with the fields and the error of its row. `code` is the type
it is classified under; `lastType` keeps its value. -/
def continued (code : Code) (w : Word) (fields : Fields) (err : DecErr) (s : State) : State :=
  emit { raw := w, code := code, new := false, tag := tagOf code, idx := none, fields := fields, err := err }
    { s with dec := { s.dec with isContinuation := true, protoErr := protoErrAfter s.dec.protoErr err } }

/-- The generic continuation rule (R127) under type `code`. -/
def continuedPlain (code : Code) (w : Word) (s : State) : State := continued code w .none .none s

/-- A continuation word in Generic: the column new = 0 of R126. -/
def continuation (w : Word) (s : State) : State :=
  if s.dec.lastType = codeTrgTime then
    if prevNew s.dec then continued codeTrgTime w (.time2 (time2Of w)) .none s
    else continued codeTrgTime w .none .trigTimeSeq s
  else continuedPlain s.dec.lastType w s

/-- A decoder header loads the count (R165): both registers become `n`, so no buffer entry is valid. -/
def loadCount (n : Count) (s : State) : State := { s with dec := { s.dec with decCount := n, remaining := n } }

/-- A type-defining word in Generic: the column new = 1 of R126. -/
def classifyTyped (w : Word) (s : State) : State :=
  let t := typed (codeOf w) w (fieldsOf w) s
  if codeOf w = codeDecHdr then loadCount (countOf w) t else t

/-- DECDATA, a word captured in a decoder run (R168). The index has 6 bits, so it lies inside the 64 entries. -/
def capture (w : Word) (s : State) : State :=
  let idx := s.dec.decCount - s.dec.remaining
  emit { raw := w, code := codeDecHdr, new := false, tag := .decoderData, idx := some idx, fields := .none, err := .none }
    { s with dec := { s.dec with decBuf := s.dec.decBuf.setIfInBounds idx.toNat w,
                                 remaining := s.dec.remaining - 1 } }

/-- `DEC.step(w)` (R120), whole: the state InDecoderRun first, then bit 31 (R95, R121). -/
def decStep (w : Word) (s : State) : State :=
  if s.dec.remaining ≠ 0 then capture w s
  else if typeDefining w then classifyTyped w s
  else continuation w s

/-- A word in the state its row needs: in a decoder run every word is captured (R121), else the row applies. -/
def inGeneric (w : Word) (s row : State) : State := if s.dec.remaining ≠ 0 then capture w s else row

/-- A continuation word whose row needs the state `here`. Where the row's condition does not hold the word is a
continuation all the same and the row that does apply is performed (R126; DEDUCED, log entry 12). -/
def onContinuation (w : Word) (here : Bool) (s row : State) : State :=
  inGeneric w s (if here then row else continuation w s)

/-! ### The EEPROM array -/

/-- What an address reads as that no write has changed: before the first bulk erase its draw (R45, U12), after it
`ERASED_BYTE` (R217). -/
def Memory.background (p : Config.Params) (m : Memory) (a : Nat) : Byte :=
  if m.everErased then p.erasedByte else Config.eepInitial a

/-- The byte listed for an address, if one is. -/
def lookupCell (a : Nat) : List Host.Cell → Option Byte
  | [] => none
  | (k, b) :: rest => if k = a then some b else lookupCell a rest

/-- `DEV.eep[a]` (R45). -/
def Memory.read (p : Config.Params) (m : Memory) (a : Nat) : Byte := (lookupCell a m.cells).getD (m.background p a)

/-- The mark `erased[a]` (R45): set by a completed bulk erase, cleared by a completed write to the entry. -/
def Memory.erased (m : Memory) (a : Nat) : Bool := m.everErased && !m.written.contains a

/-- The listing with the entry of an address taken out. -/
def removeCell (a : Nat) : List Host.Cell → List Host.Cell
  | [] => []
  | (k, b) :: rest => if k = a then rest else (k, b) :: removeCell a rest

/-- The listing with a byte put at an address, addresses kept rising. -/
def insertCell (a : Nat) (v : Byte) : List Host.Cell → List Host.Cell
  | [] => [(a, v)]
  | (k, b) :: rest =>
    if a < k then (a, v) :: (k, b) :: rest
    else if k = a then (a, v) :: rest
    else (k, b) :: insertCell a v rest

/-- An address put into a rising list of addresses, once. -/
def insertAddr (a : Nat) : List Nat → List Nat
  | [] => [a]
  | k :: rest => if a < k then a :: k :: rest else if k = a then k :: rest else k :: insertAddr a rest

/-- `DEV.eep[a] <- v` with `erased[a] <- 0` (R221). Writing what an unlisted address reads as removes the entry. -/
def Memory.store (p : Config.Params) (m : Memory) (a : Nat) (v : Byte) : Memory :=
  { m with cells := if v = m.background p a then removeCell a m.cells else insertCell a v m.cells,
           written := insertAddr a m.written }

/-- A completed bulk erase (R217): every byte becomes `ERASED_BYTE` and every mark `erased` is set. -/
def Memory.eraseAll : Memory := { everErased := true, cells := [], written := [] }

/-- The keys of a listing rise strictly. -/
def risingFrom (lo : Nat) : List Nat → Bool
  | [] => true
  | k :: rest => decide (lo ≤ k) && risingFrom (k + 1) rest

/-- The canonical form: addresses rise strictly, and no entry equals what an unlisted address reads as. -/
def Memory.wf (p : Config.Params) (m : Memory) : Bool :=
  risingFrom 0 (m.cells.map Prod.fst) && m.cells.all (fun c => c.2 != m.background p c.1) && risingFrom 0 m.written

/-! ### Draws -/

/-- The value of the next `draw` (R15). -/
def nextDraw (s : State) : Word := Config.draw s.draws

/-- One draw has been made. -/
def drawn (s : State) : State := { s with draws := s.draws + 1 }

/-! ### DEV -/

/-- The head of DEV's reaction to every register write: a command while busy is the fault of R229, else the row's effect. -/
def whenNotBusy (s : State) (k : Result) : Result := if busyFlag s.dev.pending then .fault .cmdWhileBusy else k

/-- SET_WREN and SET_RD (R218, R222): the mode is set, nothing else changes, BUSY stays 0. -/
def setMode (m : Mode) (s : State) : State := { s with dev := { s.dev with mode := m } }

/-- DEV accepts an operation: BUSY reads 1 from now on (R216, R220, R224). -/
def startOp (p : Pending) (s : State) : State := { s with dev := { s.dev with pending := p } }

/-- A write of CFG_DATA in mode WriteEnable (R220): an address at or above `EEP_SIZE` is refused (R230). -/
def acceptWrite (a : EepAddr) (b : Byte) (s : State) : Result :=
  if a.toNat < s.params.eepSize then .next (startOp (.write a b) s) else .refused (.addressBeyondEeprom a)

/-- A write of CFG_DATA in mode Read (R224): an address at or above `EEP_SIZE` is refused (R230). -/
def acceptRead (a : EepAddr) (s : State) : Result :=
  if a.toNat < s.params.eepSize then .next (startOp (.read a) s) else .refused (.addressBeyondEeprom a)

/-- DEV's reaction to a write of CFG_DATA (R42, R220, R224): the mode says which operation it starts. -/
def acceptData (a : EepAddr) (b : Byte) (s : State) : Result :=
  whenNotBusy s (match s.dev.mode with
    | .writeEnable => acceptWrite a b s
    | .read => acceptRead a s
    | .none => .refused .dataWriteInModeNone)

/-- The completion of a write (R221): an erased byte takes the value, any other byte a draw. -/
def completeWrite (a : EepAddr) (b : Byte) (s : State) : State :=
  if s.dev.mem.erased a.toNat then
    { s with dev := { s.dev with mem := s.dev.mem.store s.params a.toNat b, pending := .none } }
  else
    drawn { s with dev := { s.dev with mem := s.dev.mem.store s.params a.toNat (byteOf (nextDraw s)), pending := .none } }

/-- `DEV.complete` (R228): the completion of R217, R221 or R225. With nothing pending DEV has no step and waits
(DESIGN CHOICE, log entry 19). -/
def devComplete (s : State) : State :=
  match s.dev.pending with
  | .none => s
  | .erase => { s with dev := { s.dev with mem := Memory.eraseAll, pending := .none } }
  | .write a b => completeWrite a b s
  | .read a => { s with dev := { s.dev with rdata := s.dev.mem.read s.params a.toNat, pending := .none } }

/-- The value a read of CFG_CSR returns now (R41): its bits 31:9 are the next draw's low 23 bits. -/
def csrValue (s : State) : Word := csrWord ((nextDraw s).setWidth 23) (busyFlag s.dev.pending) s.dev.rdata

/-- `MemRead(CFG_CSR_OFF, 4)` (R226): no side effect on DEV. -/
def readCsr (s : State) : State := drawn { s with env := { s.env with busData := csrValue s } }

/-- `MemRead(CFG_DATA_OFF, 4)` (R42, U9): a draw of 32 bits. -/
def readData (s : State) : State := drawn { s with env := { s.env with busData := nextDraw s } }

/-! ### PRG's errors: raising one, and the end of an operation -/

/-- Going to stage Finish with the operation's outcome (R250). -/
def endWith (r : PrgResult) (s : State) : State := { s with prg := { s.prg with stage := .finish, ending := r } }

/-- `raise E` inside an operation that holds the lock (R15, R270): the operation ends with E, and the clean-up is Finish's.
Nothing is saved for a return (R284), and what DEV has pending stays pending (R283). -/
def raiseError (e : PrgResult) (s : State) : State := endWith e s

/-- An operation that ends in stage Idle without having taken the lock (R248, R249): nothing to release. -/
def endIdle (r : PrgResult) (s : State) : State :=
  { s with prg := { s.prg with stage := .idle, result := r, op := .none } }

/-- The lock has been released: the moves that waited for it come next, oldest first (R72; DESIGN CHOICE, log entry 2). -/
def wake (s : State) : State := { s with env := { s.env with inputs := s.env.blocked ++ s.env.inputs, blocked := [] } }

/-- A move that needs the lock waits while another agent holds it: it blocks, it does not fault (R72). -/
def block (e : Event) (s : State) : State := { s with env := { s.env with blocked := s.env.blocked ++ [e] } }

/-- Stage Finish (R249, R250, R251, R284): the lock is released, a SESSION's image is discarded, the result is reported. -/
def finish (s : State) : State :=
  wake { s with prg := { s.prg with lockHeld := false, stage := .idle, result := s.prg.ending, op := .none,
                                    ending := .none,
                                    img := if s.prg.op = .session then [] else s.prg.img } }

end Sys2Proof.Machine
end

