-- ==== Sys2Proof/Machine/BlockFraming.lean ====
section
/-! DEFINITION. The meanings of the block framing words (spec file 41): BLKHDR, BLKTRL and their continuations. -/

namespace Sys2Proof.Machine

/-- BLKHDR (R140). -/
def execBlkhdr (slot : Slot) (modid : BitVec 4) (blknum : BitVec 10) (nevt : BitVec 8) (s : State) : Result :=
  let w := encodeWord (.blkhdr slot modid blknum nevt)
  .next (inGeneric w s (typed codeBlkHdr w (.blockHeader slot modid blknum nevt) s))

/-- BLKHDR.C (R142). -/
def execBlkhdrC (payload : BitVec 31) (s : State) : Result :=
  let w := encodeWord (.blkhdrC payload)
  .next (onContinuation w (s.dec.lastType == codeBlkHdr) s (continuedPlain codeBlkHdr w s))

/-- BLKTRL (R143). -/
def execBlktrl (slot : Slot) (nwords : BitVec 22) (s : State) : Result :=
  let w := encodeWord (.blktrl slot nwords)
  .next (inGeneric w s (typed codeBlkTrl w (.blockTrailer slot nwords) s))

/-- BLKTRL.C (R145). -/
def execBlktrlC (payload : BitVec 31) (s : State) : Result :=
  let w := encodeWord (.blktrlC payload)
  .next (onContinuation w (s.dec.lastType == codeBlkTrl) s (continuedPlain codeBlkTrl w s))

end Sys2Proof.Machine
end

