-- ==== Sys2Proof/Machine/Classification.lean ====
section
/-! DEFINITION. The meaning of CONT, the generic continuation row (spec file 40). -/

namespace Sys2Proof.Machine

/-- CONT (R123, R126, R127): the type is `DEC.lastType`; under TriggerTime the rows R155 and R156 refine it. -/
def execCont (payload : BitVec 31) (s : State) : Result :=
  let w := encodeWord (.cont payload)
  .next (inGeneric w s (continuation w s))

end Sys2Proof.Machine
end

