-- ==== Sys2Proof/Machine/DecoderRun.lean ====
section
/-! DEFINITION. The meanings of the decoder-run words (spec file 43): DECHDR, DECHDR.C, DECDATA. -/

namespace Sys2Proof.Machine

/-- DECHDR (R165, R166, R167). -/
def execDechdr (ign : BitVec 21) (n : Count) (s : State) : Result :=
  let w := encodeWord (.dechdr ign n)
  .next (inGeneric w s (loadCount n (typed codeDecHdr w (.count n) s)))

/-- DECHDR.C (R171): no run starts, the low 6 bits are not a count. -/
def execDechdrC (payload : BitVec 31) (s : State) : Result :=
  let w := encodeWord (.dechdrC payload)
  .next (onContinuation w (s.dec.lastType == codeDecHdr) s (continuedPlain codeDecHdr w s))

/-- DECDATA (R168): the word is captured. In state Generic the word is no datum and is classified (R120). -/
def execDecdata (data : Word) (s : State) : Result :=
  .next (if s.dec.remaining ≠ 0 then capture data s else decStep data s)

end Sys2Proof.Machine
end

