-- ==== Sys2Proof/Machine/Eeprom.lean ====
section
/-! DEFINITION. The meanings of the register words (spec file 46): DEV's reaction to each write of PRG, and the read POLL.
What PRG does around an access (its stage, its counters) is in Machine/Programmer.lean (R250). -/

namespace Sys2Proof.Machine

/-- SET_WREN (R218). -/
def execSetWren (s : State) : Result := whenNotBusy s (.next (setMode .writeEnable s))

/-- BULK_ERASE (R216): the mode is not changed, and the array changes only when DEV completes (R217). -/
def execBulkErase (s : State) : Result := whenNotBusy s (.next (startOp .erase s))

/-- SET_RD (R222): `RDATA` keeps what it held. -/
def execSetRd (s : State) : Result := whenNotBusy s (.next (setMode .read s))

/-- POLL (R226): one `MemRead(CFG_CSR_OFF, 4)`. -/
def execPoll (s : State) : Result := .next (readCsr s)

/-- WRBYTE (R220): a write of CFG_DATA. In mode Read the same write is an RDBYTE, in mode None it is refused
(DEDUCED, log entry 13). -/
def execWrbyte (addr : EepAddr) (byte : Byte) (s : State) : Result := acceptData addr byte s

/-- RDBYTE (R224): a write of CFG_DATA with BYTE 0. In mode WriteEnable the same write is a WRBYTE, in mode None it is
refused. -/
def execRdbyte (addr : EepAddr) (s : State) : Result := acceptData addr 0 s

end Sys2Proof.Machine
end

