-- ==== Sys2Proof/Machine/EventWords.lean ====
section
/-! DEFINITION. The meanings of the event words (spec file 42): EVHDR, TRGTIME, EOE and their continuations. -/

namespace Sys2Proof.Machine

/-- EVHDR (R150, R151). -/
def execEvhdr (slot : Slot) (trigtime : BitVec 10) (evtnum : BitVec 12) (s : State) : Result :=
  let w := encodeWord (.evhdr slot trigtime evtnum)
  .next (inGeneric w s (typed codeEvHdr w (.eventHeader slot trigtime evtnum) s))

/-- EVHDR.C (R152). -/
def execEvhdrC (payload : BitVec 31) (s : State) : Result :=
  let w := encodeWord (.evhdrC payload)
  .next (onContinuation w (s.dec.lastType == codeEvHdr) s (continuedPlain codeEvHdr w s))

/-- TRGTIME (R153). -/
def execTrgtime (time1 : BitVec 27) (s : State) : Result :=
  let w := encodeWord (.trgtime time1)
  .next (inGeneric w s (typed codeTrgTime w (.time1 time1) s))

/-- TRGTIME.C, in sequence (R154, R155). -/
def execTrgtimeC (ign : BitVec 11) (time2 : BitVec 20) (s : State) : Result :=
  let w := encodeWord (.trgtimeC ign time2)
  .next (onContinuation w (s.dec.lastType == codeTrgTime && prevNew s.dec) s
    (continued codeTrgTime w (.time2 time2) .none s))

/-- TRGTIME.CERR, out of sequence (R154, R156): the protocol error is reported in the DataWord and in `protoErr`. -/
def execTrgtimeCerr (payload : BitVec 31) (s : State) : Result :=
  let w := encodeWord (.trgtimeCerr payload)
  .next (onContinuation w (s.dec.lastType == codeTrgTime && !prevNew s.dec) s
    (continued codeTrgTime w .none .trigTimeSeq s))

/-- EOE (R158, R159). -/
def execEoe (ign : BitVec 27) (s : State) : Result :=
  let w := encodeWord (.eoe ign)
  .next (inGeneric w s (typed codeEoe w .none s))

/-- EOE.C (R160). -/
def execEoeC (payload : BitVec 31) (s : State) : Result :=
  let w := encodeWord (.eoeC payload)
  .next (onContinuation w (s.dec.lastType == codeEoe) s (continuedPlain codeEoe w s))

end Sys2Proof.Machine
end

