-- ==== Sys2Proof/Machine/StatusWords.lean ====
section
/-! DEFINITION. The meanings of the status words and of the undefined type codes (spec file 44). "Undefined" is the source's
name for a code without structure; the behaviour is fully defined (R195, U1). -/

namespace Sys2Proof.Machine

/-- DNV (R180). -/
def execDnv (slot : Slot) (ign : BitVec 22) (s : State) : Result :=
  let w := encodeWord (.dnv slot ign)
  .next (inGeneric w s (typed codeDnv w (.slot slot) s))

/-- DNV.C (R182). -/
def execDnvC (payload : BitVec 31) (s : State) : Result :=
  let w := encodeWord (.dnvC payload)
  .next (onContinuation w (s.dec.lastType == codeDnv) s (continuedPlain codeDnv w s))

/-- FILL (R183). -/
def execFill (slot : Slot) (ign : BitVec 22) (s : State) : Result :=
  let w := encodeWord (.fill slot ign)
  .next (inGeneric w s (typed codeFill w (.slot slot) s))

/-- FILL.C (R185), the row of a bare continuation word after reset (R128). -/
def execFillC (payload : BitVec 31) (s : State) : Result :=
  let w := encodeWord (.fillC payload)
  .next (onContinuation w (s.dec.lastType == codeFill) s (continuedPlain codeFill w s))

/-- UNDEF4 (R186). -/
def execUndef4 (payload : BitVec 27) (s : State) : Result :=
  let w := encodeWord (.undef4 payload)
  .next (inGeneric w s (typed 4 w .none s))

/-- UNDEF5 (R187). -/
def execUndef5 (payload : BitVec 27) (s : State) : Result :=
  let w := encodeWord (.undef5 payload)
  .next (inGeneric w s (typed 5 w .none s))

/-- UNDEF6 (R188). -/
def execUndef6 (payload : BitVec 27) (s : State) : Result :=
  let w := encodeWord (.undef6 payload)
  .next (inGeneric w s (typed 6 w .none s))

/-- UNDEF7 (R189). -/
def execUndef7 (payload : BitVec 27) (s : State) : Result :=
  let w := encodeWord (.undef7 payload)
  .next (inGeneric w s (typed 7 w .none s))

/-- UNDEF9 (R190). -/
def execUndef9 (payload : BitVec 27) (s : State) : Result :=
  let w := encodeWord (.undef9 payload)
  .next (inGeneric w s (typed 9 w .none s))

/-- UNDEF10 (R191). -/
def execUndef10 (payload : BitVec 27) (s : State) : Result :=
  let w := encodeWord (.undef10 payload)
  .next (inGeneric w s (typed 10 w .none s))

/-- UNDEF11 (R192). -/
def execUndef11 (payload : BitVec 27) (s : State) : Result :=
  let w := encodeWord (.undef11 payload)
  .next (inGeneric w s (typed 11 w .none s))

/-- UNDEF12 (R193). -/
def execUndef12 (payload : BitVec 27) (s : State) : Result :=
  let w := encodeWord (.undef12 payload)
  .next (inGeneric w s (typed 12 w .none s))

/-- UNDEF.C (R194): reported under the undefined code that `lastType` holds. -/
def execUndefC (payload : BitVec 31) (s : State) : Result :=
  let w := encodeWord (.undefC payload)
  .next (onContinuation w (undefinedCode s.dec.lastType) s (continuedPlain s.dec.lastType w s))

end Sys2Proof.Machine
end

