-- ==== Sys2Proof/Machine/Dispatch.lean ====
section
/-! DEFINITION. The dispatch: one arm per row of spec/opcode_table.json. -/

namespace Sys2Proof.Machine

def exec (i : Instr) (s : State) : Host.Outcome State Fault Refusal :=
  match i with
  | .blkhdr slot modid blknum nevt => Sys2Proof.Machine.execBlkhdr slot modid blknum nevt s
  | .blktrl slot nwords => Sys2Proof.Machine.execBlktrl slot nwords s
  | .evhdr slot trigtime evtnum => Sys2Proof.Machine.execEvhdr slot trigtime evtnum s
  | .trgtime time1 => Sys2Proof.Machine.execTrgtime time1 s
  | .undef4 payload => Sys2Proof.Machine.execUndef4 payload s
  | .undef5 payload => Sys2Proof.Machine.execUndef5 payload s
  | .undef6 payload => Sys2Proof.Machine.execUndef6 payload s
  | .undef7 payload => Sys2Proof.Machine.execUndef7 payload s
  | .dechdr ign n => Sys2Proof.Machine.execDechdr ign n s
  | .undef9 payload => Sys2Proof.Machine.execUndef9 payload s
  | .undef10 payload => Sys2Proof.Machine.execUndef10 payload s
  | .undef11 payload => Sys2Proof.Machine.execUndef11 payload s
  | .undef12 payload => Sys2Proof.Machine.execUndef12 payload s
  | .eoe ign => Sys2Proof.Machine.execEoe ign s
  | .dnv slot ign => Sys2Proof.Machine.execDnv slot ign s
  | .fill slot ign => Sys2Proof.Machine.execFill slot ign s
  | .cont payload => Sys2Proof.Machine.execCont payload s
  | .blkhdrC payload => Sys2Proof.Machine.execBlkhdrC payload s
  | .blktrlC payload => Sys2Proof.Machine.execBlktrlC payload s
  | .evhdrC payload => Sys2Proof.Machine.execEvhdrC payload s
  | .trgtimeC ign time2 => Sys2Proof.Machine.execTrgtimeC ign time2 s
  | .trgtimeCerr payload => Sys2Proof.Machine.execTrgtimeCerr payload s
  | .dechdrC payload => Sys2Proof.Machine.execDechdrC payload s
  | .eoeC payload => Sys2Proof.Machine.execEoeC payload s
  | .dnvC payload => Sys2Proof.Machine.execDnvC payload s
  | .fillC payload => Sys2Proof.Machine.execFillC payload s
  | .undefC payload => Sys2Proof.Machine.execUndefC payload s
  | .decdata data => Sys2Proof.Machine.execDecdata data s
  | .setWren => Sys2Proof.Machine.execSetWren s
  | .bulkErase => Sys2Proof.Machine.execBulkErase s
  | .setRd => Sys2Proof.Machine.execSetRd s
  | .poll => Sys2Proof.Machine.execPoll s
  | .wrbyte addr byte => Sys2Proof.Machine.execWrbyte addr byte s
  | .rdbyte addr => Sys2Proof.Machine.execRdbyte addr s

end Sys2Proof.Machine
end

