-- ==== Sys2Proof/Machine/Bus.lean ====
section
/-! DEFINITION. How an arriving word or register access reaches its instruction: decode in the present state, then exec; and
what an access that is no instruction does (R42, R66, R110, R229). -/

namespace Sys2Proof.Machine

/-- An access that the decoder gives no instruction. A write while an operation is pending is the fault of R229 whatever its
value; otherwise the refusals of R66 and R110 hold, and a read of CFG_DATA returns a draw (R42). The order of the checks
is a DESIGN CHOICE (log entry 14). -/
def noInstruction (e : DecodeError) (s : State) : Result :=
  match e with
  | .width n => .refused (.accessWidth n)
  | .misaligned off => .refused (.accessMisaligned off)
  | .outsideBlock off => .fault (.outsideBlock off)
  | .otherRegister off => .refused (.otherRegister off)
  | .unknownCommand v => whenNotBusy s (.refused (.unknownCommand v))
  | .dataWriteInModeNone => whenNotBusy s (.refused .dataWriteInModeNone)
  | .dataRead => .next (readData s)

/-- A request presented to the machine runs the instruction it decodes to in the present state (R95, R115). -/
def present (r : Request) (s : State) : Result :=
  match decode s.ctx r with
  | .ok i => exec i s
  | .error e => noInstruction e s

end Sys2Proof.Machine
end

