-- ==== Sys2Proof/Machine/HostPort.lean ====
section
/-! DEFINITION. What HOST does to DEC (reset, save, restore, a read of the buffer) and what HOST's other threads do to the
lock and the register block. -/

namespace Sys2Proof.Machine

/-- `rst` of DEC (R50, R134, R300), whatever it was doing. The BlockRecord of R29 begins anew. -/
def decRst (s : State) : State := { s with dec := Dec.reset }

/-- The record `save` puts out (R48, R133). -/
def savedRecord (d : Dec) : DecRecord :=
  { lastType := d.lastType, isContinuation := d.isContinuation, remaining := d.remaining, decCount := d.decCount,
    buf := d.decBuf.toList.take d.validCount }

/-- `save` (R133): it changes nothing of DEC. -/
def decSave (s : State) : State := { s with env := { s.env with saved := s.env.saved ++ [savedRecord s.dec] } }

/-- A record `restore` may load (R132, U15): `remaining <= decCount`, and its buffer is the valid part (DEDUCED,
log entry 24). -/
def DecRecord.wf (r : DecRecord) : Bool :=
  decide (r.remaining.toNat ≤ r.decCount.toNat) && (r.buf.length == r.decCount.toNat - r.remaining.toNat)

/-- The buffer with its first entries replaced by a record's, from entry `i` on. -/
def fillBuf : Nat → List Word → Vector Word 64 → Vector Word 64
  | _, [], v => v
  | i, w :: rest, v => fillBuf (i + 1) rest (v.setIfInBounds i w)

/-- `restore` (R133): the five pieces are written; `protoErr` stays with the instance (R48). -/
def decRestore (r : DecRecord) (s : State) : Result :=
  if r.wf then
    .next { s with dec := { s.dec with lastType := r.lastType, isContinuation := r.isContinuation,
                                       remaining := r.remaining, decCount := r.decCount,
                                       decBuf := fillBuf 0 r.buf s.dec.decBuf } }
  else .refused .badRestore

/-- HOST reads `DEC.decBuf[i]` (R25): an entry that is not valid holds no value and the read faults (U2). -/
def bufRead (i : Nat) (s : State) : Result :=
  if i < s.dec.validCount then .next { s with env := { s.env with bufData := (s.dec.decBuf[i]?).getD 0 } }
  else .fault (.bufferEntryNotValid i)

/-- The HOST thread `who` acquires the lock, waiting while an agent holds it (R72). A thread that holds it already waits too, for
its own release (DESIGN CHOICE, log entry 26). -/
def otherAcquire (who : Nat) (s : State) : State :=
  if lockFree s then { s with env := { s.env with lockOther := some who } } else block (.otherAcquire who) s

/-- That thread releases the lock; a thread that does not hold it has nothing to release (DESIGN CHOICE, log entry 19). -/
def otherRelease (who : Nat) (s : State) : State :=
  if s.env.lockOther = some who then wake { s with env := { s.env with lockOther := none } } else s

/-- A register access of the HOST thread `who`: while another agent holds the lock, PRG or another thread, it has no step and
waits (R72, R290). -/
def hostAccess (who : Nat) (e : Event) (r : Request) (s : State) : Result :=
  if lockAllows who s then present r s else .next (block e s)

end Sys2Proof.Machine
end

