-- ==== Sys2Proof/Machine/Programmer.lean ====
section
/-! DEFINITION. PRG: the image load (R204), the commands and their preconditions (R248, R249, R251), and the step relation
(R250), one step per register access. -/

namespace Sys2Proof.Machine

/-! ### LOADIMG -/

/-- The loop of LOADIMG from byte `i` on (R204): a read that fails is `IoError` (R206), a byte beyond the capacity is
`ImageTooLarge` (R205), any other byte is stored reversed. -/
def loadLoop (cap : Nat) : Nat → List (Option Byte) → Except PrgResult (List Byte)
  | _, [] => .ok []
  | _, none :: _ => .error .ioError
  | i, some b :: rest =>
    if cap ≤ i then .error .imageTooLarge
    else match loadLoop cap (i + 1) rest with
      | .ok bs => .ok (revb b :: bs)
      | .error e => .error e

/-- LOADIMG (R204): on an error no image is left (R205, R206). -/
def loadImage (file : List (Option Byte)) (s : State) : State :=
  match loadLoop s.params.fwMaxSize 0 file with
  | .ok bs => { s with prg := { s.prg with img := bs, result := .ok } }
  | .error e => { s with prg := { s.prg with img := [], result := e } }

/-! ### Commands of HOST -/

/-- The preconditions, in the order of R248; `none` when they hold. -/
def precondition (s : State) : Option PrgResult :=
  if !s.env.devReady then some .notInitialized
  else if s.prg.imgSize = 0 then some .imageNotLoaded
  else none

/-- PRG takes the lock and enters a stage for an operation (R249, R251). -/
def takeLock (op : PrgOp) (stage : Stage) (s : State) : State :=
  { s with prg := { s.prg with lockHeld := true, op := op, stage := stage } }

/-- ERASEALL, DOWNLOAD or VERIFY on its own (R251): it takes the lock for its own duration, waiting while another agent
holds it (R72). A command that waited is checked anew (DESIGN CHOICE, log entry 20). -/
def standAlone (c : PrgCmd) (op : PrgOp) (stage : Stage) (s : State) : State :=
  match precondition s with
  | some e => endIdle e s
  | none => if lockFree s then takeLock op stage s else block (.cmd c) s

/-- StartSession (R249, R250): with the preconditions PRG waits in Confirm for HOST's answer. -/
def startSession (s : State) : State :=
  match precondition s with
  | some e => endIdle e s
  | none => { s with prg := { s.prg with stage := .confirm, op := .session } }

/-- A command on PRG's port, accepted in stage Idle only (R250, R290, U21). -/
def command (c : PrgCmd) (s : State) : Result :=
  if s.prg.stage ≠ .idle then .refused .commandOutsideIdle
  else match c with
    | .loadImage file => .next (loadImage file s)
    | .startSession => .next (startSession s)
    | .eraseAll => .next (standAlone c .eraseAll .eraseCmd s)
    | .download => .next (standAlone c .download .wrMode s)
    | .verify => .next (standAlone c .verify .rdMode s)

/-- The moves that are answers to the confirmation prompt. -/
def isAnswer (e : Event) : Bool :=
  match e with
  | .confirm _ => true
  | _ => false

/-- No answer waits for the lock any more. -/
def dropAnswers (s : State) : State :=
  { s with env := { s.env with blocked := s.env.blocked.filter fun e => !isAnswer e } }

/-- HOST's answer to the confirmation prompt (R249, R250). PRG reads the input in stage Confirm only. `confirm` is one bit, so a
new answer replaces one that still waits for the lock: an answer never outlives its prompt (DESIGN CHOICE, log entry 29). -/
def answer (b : Bool) (s : State) : State :=
  if s.prg.stage ≠ .confirm then s
  else
    let t := dropAnswers s
    if !b then endIdle .declined { t with prg := { t.prg with img := [] } }
    else if lockFree t then takeLock .session .eraseCmd t
    else block (.confirm b) t

/-- `rst` of PRG, in stage Idle only (R301, R50). The output ports keep what they have put out (DESIGN CHOICE,
log entry 11). A stand-alone command that waits for the lock has not been taken by PRG yet: it stays in `env.blocked` and is
tried again after the reset (DESIGN CHOICE, log entry 30; the spec says nothing of it). -/
def prgRst (s : State) : Result :=
  if s.prg.stage ≠ .idle then .refused .rstOutsideIdle
  else .next { s with prg := { Prg.reset with emitted := s.prg.emitted, trace := s.prg.trace } }

/-! ### The step relation -/

/-- A completed access of PRG appears on its output port (R40). -/
def record (r : Request) (s : State) : State :=
  match r with
  | .stream _ => s
  | .write off _ v => { s with prg := { s.prg with trace := s.prg.trace ++ [.wrote off v] } }
  | .read off _ => { s with prg := { s.prg with trace := s.prg.trace ++ [.got off s.env.busData] } }

/-- Every primitive is issued only while `devReady = 1` (R215): without the handle a register operation fails with
`NotInitialized` (R40, R276). Inside an operation that outcome is the model's reading: DESIGN CHOICE (log entry 28). -/
def handleCheck (s : State) : Option PrgResult := if s.env.devReady then none else some .notInitialized

/-- The error that keeps an access from being made, if one does: a check that failed before it (R215, R248), else the failure
of the access itself (R232), in the order of R282. -/
def accessError (check : Option PrgResult) (fail : Bool) : Option PrgResult :=
  match check, fail with
  | some e, _ => some e
  | none, true => some .deviceError
  | none, false => none

/-- One register access of PRG, with the check made before it, and what PRG does after it. An error ends the operation and has
no other effect: no access reaches DEV (R232, R248, R250; DESIGN CHOICE for an access that fails, log entry 17). -/
def access (check : Option PrgResult) (fail : Bool) (r : Request) (s : State) (k : State → Result) : Result :=
  match accessError check fail with
  | some e => .next (raiseError e s)
  | none =>
    match present r s with
    | .next t => k (record r t)
    | .fault f => .fault f
    | .refused x => .refused x

/-- `emit` on PRG's output port (R15, R40). -/
def emitPrg (e : PrgEmit) (s : State) : State := { s with prg := { s.prg with emitted := s.prg.emitted ++ [e] } }

/-- `PRG.stage <- g`. -/
def goto (g : Stage) (s : State) : State := { s with prg := { s.prg with stage := g } }

/-- A busy wait begins (R36): `polls <- 0`, and the stage that polls is entered. -/
def startPolling (g : Stage) (s : State) : State := { s with prg := { s.prg with polls := 0, stage := g } }

/-- A mode has been set and a loop over the image begins (R250, rows WrMode and RdMode). -/
def startLoop (g : Stage) (s : State) : State := { s with prg := { s.prg with addr := 0, stage := g } }

/-- `polls <- polls + 1` (R226). -/
def countPoll (s : State) : State := { s with prg := { s.prg with polls := s.prg.polls + 1 } }

/-- `addr <- addr + 1` (R242, R245). -/
def nextAddr (s : State) : State := { s with prg := { s.prg with addr := s.prg.addr + 1 } }

/-- The poll just counted exhausts `POLL_MAX` (R226, R227); with `POLL_MAX = inf` none does. -/
def timedOut (p : Config.Params) (polls : Nat) : Bool :=
  match p.pollMax with
  | none => false
  | some m => decide (m ≤ polls)

/-- A poll that saw BUSY (R226): `Timeout` with the stage and the address, or another poll. -/
def stillBusy (s : State) : State :=
  if timedOut s.params s.prg.polls then raiseError (.timeout s.prg.stage s.prg.addr) s else s

/-- The progress marker of the erase, after a busy poll whose count is a multiple of 100 (R226, R287). -/
def markErase (s : State) : State :=
  if s.prg.polls % eraseMarkEvery = 0 then emitPrg .progressErase s else s

/-- The progress marker of the download, after the byte that makes `addr` a multiple of 100000 (R242, R287). -/
def markDownload (s : State) : State :=
  if s.prg.addr % downloadMarkEvery = 0 then emitPrg .progressDownload s else s

/-- One byte compared (R245, R246): the first mismatch of a verification is latched and emitted, every mismatch sets the
error flag. -/
def compareByte (expected actual : Byte) (s : State) : State :=
  let a : EepAddr := BitVec.ofNat 24 s.prg.addr
  let flagged := { s with prg := { s.prg with verifyErr := verifyErrAfter s.prg.verifyErr expected actual } }
  if actual != expected && !s.prg.verifyErr then
    emitPrg (.diagnostic a expected actual)
      { flagged with prg := { flagged.prg with mm := { valid := true, addr := a, expected := expected, actual := actual } } }
  else flagged

/-- Stage EraseCmd (R250, R240): ERASEALL begins with its own check of the preconditions, in a SESSION too (R248, R249). -/
def stepEraseCmd (fail : Bool) (s : State) : Result :=
  access (precondition s) fail (.write cfgCsrOff 4 cmdBulkErase) s fun t => .next (startPolling .erasePoll t)

/-- Stage ErasePoll (R250, R240). ERASEALL on its own ends here (R251). -/
def stepErasePoll (fail : Bool) (s : State) : Result :=
  access (handleCheck s) fail (.read cfgCsrOff 4) s fun t =>
    let u := countPoll t
    .next (if csrBusy u.env.busData then stillBusy (markErase u)
      else if u.prg.op = .eraseAll then endWith .ok u
      else goto .wrMode u)

/-- Stage WrMode (R250, R242): DOWNLOAD begins with its own check of the preconditions (R248, R249). -/
def stepWrMode (fail : Bool) (s : State) : Result :=
  access (precondition s) fail (.write cfgCsrOff 4 cmdWren) s fun t => .next (startLoop .wrByte t)

/-- Stage WrByte (R250, R242): the byte written is the reversed byte of the image, as it is (R319). -/
def stepWrByte (fail : Bool) (s : State) : Result :=
  match s.prg.img[s.prg.addr]? with
  | none => .fault (.imageEntryNoValue s.prg.addr)
  | some b =>
    access (handleCheck s) fail (.write cfgDataOff 4 (dataWord (BitVec.ofNat 24 s.prg.addr) b)) s fun t =>
      .next (startPolling .wrPoll t)

/-- Stage WrPoll (R250, R242). DOWNLOAD on its own ends after the last byte (R251). -/
def stepWrPoll (fail : Bool) (s : State) : Result :=
  access (handleCheck s) fail (.read cfgCsrOff 4) s fun t =>
    let u := countPoll t
    .next (if csrBusy u.env.busData then stillBusy u
      else
        let v := markDownload (nextAddr u)
        if v.prg.addr < v.prg.imgSize then goto .wrByte v
        else if v.prg.op = .download then endWith .ok v
        else goto .rdMode v)

/-- Stage RdMode (R250, R245): VERIFY begins with its own check of the preconditions (R248, R249), and the error flag and the
diagnostic are cleared when a verification starts (R37). When the access of CMD_READ fails they keep their values: R245's
pseudocode clears them before the access, R250's row of a failing access has the action none, and the model follows R250
(DESIGN CHOICE, log entry 31). -/
def stepRdMode (fail : Bool) (s : State) : Result :=
  access (precondition s) fail (.write cfgCsrOff 4 cmdRead) s fun t =>
    .next (startLoop .rdByte
      { t with prg := { t.prg with verifyErr := false, mm := { t.prg.mm with valid := false } } })

/-- Stage RdByte (R250, R245). -/
def stepRdByte (fail : Bool) (s : State) : Result :=
  access (handleCheck s) fail (.write cfgDataOff 4 (dataWord (BitVec.ofNat 24 s.prg.addr) 0)) s fun t =>
    .next (startPolling .rdPoll t)

/-- The outcome of VERIFY, decided after the last address (R247). -/
def verifyOutcome (s : State) : PrgResult := if s.prg.verifyErr then .verificationFailed else .ok

/-- Stage RdPoll (R250, R245): the scan goes on whatever the comparison says (R246). -/
def stepRdPoll (fail : Bool) (s : State) : Result :=
  access (handleCheck s) fail (.read cfgCsrOff 4) s fun t =>
    let u := countPoll t
    if csrBusy u.env.busData then .next (stillBusy u)
    else match u.prg.img[u.prg.addr]? with
      | none => .fault (.imageEntryNoValue u.prg.addr)
      | some b =>
        let v := nextAddr (compareByte b (csrRData u.env.busData) u)
        .next (if v.prg.addr < v.prg.imgSize then goto .rdByte v else endWith (verifyOutcome v) v)

/-- One step of PRG (R250). In Idle PRG waits for a command, in Confirm for HOST's answer (DESIGN CHOICE, log entry 19). -/
def prgStep (fail : Bool) (s : State) : Result :=
  match s.prg.stage with
  | .idle => .next s
  | .confirm => .next s
  | .eraseCmd => stepEraseCmd fail s
  | .erasePoll => stepErasePoll fail s
  | .wrMode => stepWrMode fail s
  | .wrByte => stepWrByte fail s
  | .wrPoll => stepWrPoll fail s
  | .rdMode => stepRdMode fail s
  | .rdByte => stepRdByte fail s
  | .rdPoll => stepRdPoll fail s
  | .finish => .next (finish s)

end Sys2Proof.Machine
end

