-- ==== Sys2Proof/Machine/Source.lean ====
section
/-! DEFINITION. SRC, the block reader, as the environment that orders the word stream (spec file 48): which words a delivery
holds. The delivered words become the next moves, one DEC step each. -/

namespace Sys2Proof.Machine

/-- A read of the FIFO's data port (R68): the oldest word is removed. What an empty FIFO returns the spec does not say: a
draw, and nothing is removed (DESIGN CHOICE, log entry 22). -/
def fifoPop (s : State) : Word × State :=
  match s.env.fifo with
  | w :: rest => (w, { s with env := { s.env with fifo := rest } })
  | [] => (nextDraw s, drawn s)

/-- The loop of R262 with room for `n` more words: it stops after a word that satisfies `isBlockTrailer`. -/
def pioBody : Nat → State → List Word × State
  | 0, s => ([], s)
  | n + 1, s =>
    let p := fifoPop s
    if isBlockTrailer p.1 then ([p.1], p.2)
    else
      let q := pioBody n p.2
      (p.1 :: q.1, q.2)

/-- `n` words in FIFO order (R266). -/
def popWords : Nat → State → List Word × State
  | 0, s => ([], s)
  | n + 1, s =>
    let p := fifoPop s
    let q := popWords n p.2
    (p.1 :: q.1, q.2)

/-- SRC's report to its caller. -/
def report (r : SrcResult) (s : State) : State := { s with env := { s.env with srcResult := r } }

/-- The words of a delivery are presented to DEC next, in order, each once (R260); the count is reported. That nothing
comes between them is a DESIGN CHOICE (log entry 21): any other order is a schedule of `.word` moves. -/
def deliver (ws : List Word) (s : State) : State :=
  report (.words ws.length) { s with env := { s.env with inputs := ws.map Event.word ++ s.env.inputs } }

/-- `readBlock` in programmed-I/O mode (R261, R262). The "bounded polling read" of the lead word is exactly one FIFO read here, with no
count of tries and no timeout outcome: the spec states neither the bound nor what ends the poll nor what a bound that runs out
reports (DESIGN CHOICE, log entry 22). A lead word that is no BlockHeader gives 0 words when the device reports
zero events on board, `InvalidHeader` otherwise, and DEC is given nothing. A FIFO read that fails ends the delivery with
`ReadError`: DEC is given nothing, and the words read before it are gone from the FIFO (R68, R265; DESIGN CHOICE, log entry 22). -/
def readBlockPio (maxWords : Nat) (zeroEvents : Bool) (fail : Option Nat) (s : State) : State :=
  if fail = some 0 then report .readError s
  else
    let lead := fifoPop s
    if isBlockHeader lead.1 then
      let body := pioBody (maxWords - 1) lead.2
      match fail with
      | none => deliver (lead.1 :: body.1) body.2
      | some k =>
        if k ≤ body.1.length then report .readError (popWords k s).2
        else deliver (lead.1 :: body.1) body.2
    else report (if zeroEvents then .words 0 else .invalidHeader) lead.2

/-- `readBlock` in DMA mode (R266): no header and no trailer test, the dummy word first when the destination needs it. A
failing engine delivers nothing and is reported (R265). R266 knows a positive word count or an error and does not say what a
transfer of no words is: the model delivers none but the dummy word, and reports that count (DESIGN CHOICE, log entry 22). -/
def readBlockDma (n : Nat) (filler fail : Bool) (s : State) : State :=
  if fail then report .dmaError s
  else
    let body := popWords n s
    deliver (if filler then s.params.dmaFillerWord :: body.1 else body.1) body.2

/-- SRC holds the lock of R72 during a `readBlock` (R79, R267): it waits while another agent holds it. A whole `readBlock`, with
all its FIFO reads, is one move: no state shows SRC holding the lock, and no other agent moves, and no word enters the FIFO,
between two of its reads. The spec fixes no step for SRC: DESIGN CHOICE (log entry 32). SRC does not look at `devReady`: the spec
gives its `readBlock` no check of the handle and no outcome `NotInitialized` (DESIGN CHOICE, log entry 28). -/
def srcMove (e : Event) (f : State → State) (s : State) : Result :=
  if lockFree s then .next (f s) else .next (block e s)

end Sys2Proof.Machine
end

