-- ==== Sys2Proof/Machine/Events.lean ====
section
/-! DEFINITION. One move of one agent (R7), and the move that comes next. -/

namespace Sys2Proof.Machine

/-- What an event does. A word on DEC's input port runs the instruction it decodes to (R28, R120). -/
def runEvent (e : Event) (s : State) : Result :=
  match e with
  | .word w => present (.stream w) s
  | .decRst => .next (decRst s)
  | .decSave => .next (decSave s)
  | .decRestore r => decRestore r s
  | .bufRead i => bufRead i s
  | .devReady b => .next { s with env := { s.env with devReady := b } }
  | .cmd c => command c s
  | .confirm b => .next (answer b s)
  | .prgRst => prgRst s
  | .prg fail => prgStep fail s
  | .devComplete => .next (devComplete s)
  | .otherAcquire who => .next (otherAcquire who s)
  | .otherRelease who => .next (otherRelease who s)
  | .hostWrite who off width v => hostAccess who e (.write off width v) s
  | .hostRead who off width => hostAccess who e (.read off width) s
  | .fifoFill ws => .next { s with env := { s.env with fifo := s.env.fifo ++ ws } }
  | .srcPio maxWords zeroEvents fail => srcMove e (readBlockPio maxWords zeroEvents fail) s
  | .srcDma n filler fail => srcMove e (readBlockDma n filler fail) s

/-- The machine without the event that is being run: an input is consumed once (R61). -/
def popped (s : State) (rest : List Event) : State := { s with env := { s.env with inputs := rest } }

/-- The next move. With none listed PRG moves by itself while it is in an operation: it always has a step, and a poll loop goes on
for as long as DEV does not complete (R227, R228, R311, U11). Else every agent waits (R50: DEC for a word, PRG for a command).
DESIGN CHOICE (log entry 1). -/
def nextMove (s : State) : Result :=
  match s.env.inputs with
  | [] => if lockingStage s.prg.stage then runEvent (.prg false) s else .next s
  | e :: rest => runEvent e (popped s rest)

end Sys2Proof.Machine
end

