-- ==== Sys2Proof/Machine/Step.lean ====
section
/-! DEFINITION. The step, and where a host puts the word that the next step runs. -/

namespace Sys2Proof.Machine

/-- One step: one move of one agent. -/
def step (s : State) : Host.Outcome State Fault Refusal := nextMove s

/-- The word of the low `nbits` bits of `w`, presented next on DEC's input port: the next step decodes and runs it. -/
def State.withFetchWord (s : State) (nbits w : Nat) : State :=
  { s with env := { s.env with inputs := .word (tableWord nbits w) :: s.env.inputs } }

end Sys2Proof.Machine
end

