-- ==== Sys2Proof/Safety.lean ====
section
/-! DEFINITION. What holds of every state a run reaches (`StateInv`), and what holds throughout a SESSION (`SessionInv`), in the
terms the statements use. -/

namespace Sys2Proof.Machine

/-- The stages that look at the byte `PRG.addr` of the image (R250). -/
def byteStage (g : Stage) : Bool := g == .wrByte || g == .wrPoll || g == .rdByte || g == .rdPoll

/-- The operations that go through a stage (R250, R251). -/
def stageOp (g : Stage) (op : PrgOp) : Bool :=
  match g with
  | .idle => op == .none
  | .confirm => op == .session
  | .eraseCmd | .erasePoll => op == .session || op == .eraseAll
  | .wrMode | .wrByte | .wrPoll => op == .session || op == .download
  | .rdMode | .rdByte | .rdPoll => op == .session || op == .verify
  | .finish => op != .none

/-- The EEPROM address an operation names, if it names one, lies in the array (R230). -/
def pendingInRange (eepSize : Nat) : Pending → Bool
  | .write a _ => decide (a.toNat < eepSize)
  | .read a => decide (a.toNat < eepSize)
  | _ => true

/-- The mode and the pending operation that go with a stage: after its own command PRG finds in DEV only what it started,
and where PRG has just seen BUSY = 0, nothing is pending (R74, R250). -/
def devAtStage (s : State) : Bool :=
  match s.prg.stage with
  | .erasePoll => s.dev.pending == .none || s.dev.pending == .erase
  | .wrMode | .rdMode => s.prg.op != .session || s.dev.pending == .none
  | .wrByte => s.dev.mode == .writeEnable && s.dev.pending == .none
  | .wrPoll => s.dev.mode == .writeEnable &&
      (s.dev.pending == .none ||
        s.dev.pending == .write (BitVec.ofNat 24 s.prg.addr) ((s.prg.img[s.prg.addr]?).getD 0))
  | .rdByte => s.dev.mode == .read && s.dev.pending == .none
  | .rdPoll => s.dev.mode == .read && (s.dev.pending == .none || s.dev.pending == .read (BitVec.ofNat 24 s.prg.addr))
  | _ => true

/-- What holds of every state a run reaches. -/
structure StateInv (s : State) : Prop where
  /-- `FW_MAX_SIZE <= EEP_SIZE <= 2^24` (R8, R9). -/
  params_wf     : s.params.wf = true
  /-- `remaining <= decCount` (R132). -/
  run_le        : s.dec.remaining.toNat ≤ s.dec.decCount.toNat
  /-- The EEPROM listing is canonical. -/
  mem_wf        : s.dev.mem.wf s.params = true
  /-- A pending operation's address lies in the array (R230). -/
  pending_range : pendingInRange s.params.eepSize s.dev.pending = true
  /-- `imgSize <= FW_MAX_SIZE` (R33). -/
  img_le        : s.prg.imgSize ≤ s.params.fwMaxSize
  /-- `addr <= FW_MAX_SIZE` (R34). -/
  addr_le       : s.prg.addr ≤ s.params.fwMaxSize
  /-- PRG holds the lock exactly in the stages of an operation (R38, R250). -/
  lock_stage    : s.prg.lockHeld = lockingStage s.prg.stage
  /-- Two agents never hold the lock together (R72). -/
  lock_one      : s.prg.lockHeld = true → s.env.lockOther = none
  /-- A move that waits for the lock waits for a holder (R72). -/
  blocked_held  : lockFree s = true → s.env.blocked = []
  /-- An answer to the prompt waits only during the prompt it answers (R249, R250). -/
  answer_waits  : (∃ e ∈ s.env.blocked, isAnswer e = true) → s.prg.stage = .confirm
  /-- The operation in progress goes through the stage (R250, R251). -/
  op_stage      : stageOp s.prg.stage s.prg.op = true
  /-- An image is loaded during every operation (R33, R248). -/
  img_loaded    : s.prg.stage ≠ .idle → 0 < s.prg.imgSize
  /-- The byte stages look at a byte of the image (R34, R250). -/
  addr_lt       : byteStage s.prg.stage = true → s.prg.addr < s.prg.imgSize
  /-- The diagnostic is valid exactly when the error flag is set (R37, R246). -/
  mm_flag       : s.prg.mm.valid = s.prg.verifyErr
  /-- Mode and pending operation fit the stage. -/
  dev_stage     : devAtStage s = true

/-- Bytes `0 .. n - 1` of the EEPROM are those of the image (R244). -/
def programmed (s : State) (img : List Byte) (n : Nat) : Prop :=
  ∀ a, a < n → img[a]? = some (s.dev.mem.read s.params a)

/-- The addresses from `n` on are erased and read `ERASED_BYTE` (R217, R244). -/
def blankFrom (s : State) (n : Nat) : Prop :=
  ∀ a, n ≤ a → s.dev.mem.erased a = true ∧ s.dev.mem.read s.params a = s.params.erasedByte

/-- The whole image stands in the EEPROM and every address above it is blank (R253). -/
def fullyProgrammed (s : State) (img : List Byte) : Prop := programmed s img img.length ∧ blankFrom s img.length

/-- What has been achieved at each stage of a SESSION that programs `img` (R240 to R249). -/
def stageGoal (img : List Byte) (s : State) : Prop :=
  match s.prg.stage with
  | .eraseCmd => s.dev.pending = .none
  | .erasePoll => s.dev.pending = .erase ∨ (s.dev.pending = .none ∧ blankFrom s 0)
  | .wrMode => s.dev.pending = .none ∧ blankFrom s 0
  | .wrByte => programmed s img s.prg.addr ∧ blankFrom s s.prg.addr
  | .wrPoll =>
    (∃ b, img[s.prg.addr]? = some b ∧ s.dev.pending = .write (BitVec.ofNat 24 s.prg.addr) b ∧
      programmed s img s.prg.addr ∧ blankFrom s s.prg.addr) ∨
    (s.dev.pending = .none ∧ programmed s img (s.prg.addr + 1) ∧ blankFrom s (s.prg.addr + 1))
  | .rdMode => s.dev.pending = .none ∧ fullyProgrammed s img
  | .rdByte => fullyProgrammed s img ∧ s.prg.verifyErr = false
  | .rdPoll => fullyProgrammed s img ∧ s.prg.verifyErr = false ∧
      (s.dev.pending = .read (BitVec.ofNat 24 s.prg.addr) ∨
        (s.dev.pending = .none ∧ img[s.prg.addr]? = some s.dev.rdata))
  | .finish => (s.prg.ending = .ok ∨ s.prg.ending = .deviceError ∨ ∃ g a, s.prg.ending = .timeout g a) ∧
      (s.prg.ending = .ok → fullyProgrammed s img ∧ s.dev.mode = .read ∧ s.dev.pending = .none)
  | _ => False

/-- The launch premises of a SESSION (R310) that speak of a state. P4 needs no field: while PRG holds the lock the machine lets no
other agent write the two registers. That the handle stays (the rest of P2) is a premise on the steps. -/
structure LaunchPremises (s : State) : Prop where
  /-- P1: nothing is pending, so `BUSY = 0`. -/
  p1 : s.dev.pending = .none
  /-- P2: `devReady = 1`. -/
  p2 : s.env.devReady = true
  /-- P3: an image is loaded. -/
  p3 : 0 < s.prg.imgSize
  /-- P5: `FW_MAX_SIZE <= EEP_SIZE`. -/
  p5 : s.params.fwMaxSize ≤ s.params.eepSize
  /-- P6: the three command words are pairwise different. -/
  p6 : cmdWren ≠ cmdBulkErase ∧ cmdWren ≠ cmdRead ∧ cmdBulkErase ≠ cmdRead

/-- A SESSION that programs `img` is in progress, past its confirmation, and so far as its stage says, with the handle there (P2
of R310). -/
structure SessionInv (img : List Byte) (s : State) : Prop where
  inv     : StateInv s
  ready   : s.env.devReady = true
  session : s.prg.op = .session
  image   : s.prg.img = img
  goal    : stageGoal img s

end Sys2Proof.Machine
end

