-- ==== Sys2Proof/Certificates/Slice0/Obligations.lean ====
section
/-! DEFINITION. The statements for the provers. Each docstring names the rules of spec/ that the statement formalises.

A state after a step is written out whole (`{ s with ... }`), so every such equation is the instruction's frame as well: what
is not named in it keeps its value. A DataWord is written `⟨raw, type, new, tag, idx, fields, err⟩`.

Which agent moves next, and with what input, stands in `env.inputs`: that list is the model's choice (log entry 1), so a
statement about a step says which move is at its head. A statement that rests on another choice of the model names its log
entry. Wherever a statement writes a type code, a field position, a register offset, a bit of CFG_CSR or a command word that the
spec marks as its own decision (D1 to D7, D17 to D20), log entry 6 holds of it. -/

open Sys2Proof Sys2Proof.Machine

/-! ### Encoding -/

/-- Decoding an encoded well-formed instruction gives it back, with every operand (R90 to R107). The generic row CONT is
refined by `lastType` (R126), so it comes back as the row that applies, which has the same word. -/
def Obligations.DecodeOfEncode : Prop :=
  ∀ (c : DecodeCtx) (i : Instr), i.wellFormedIn c = true →
    ((∀ p, i ≠ .cont p) → decode c (encode i) = .ok i) ∧
    (∀ p, i = .cont p →
      ∃ j, decode c (encode i) = .ok j ∧ j.wellFormedIn c = true ∧ (∀ q, j ≠ .cont q) ∧ encode j = encode i)

/-- Whatever the decoder accepts is a well-formed instruction whose encoding is the request it came from (R90 to R107). In mode
Read the low byte of a CFG_DATA word is ignored (R42, R224), so there the address is what comes back (log entry 13). -/
def Obligations.EncodeOfDecode : Prop :=
  ∀ (c : DecodeCtx) (i : Instr),
    (∀ w, decode c (.stream w) = .ok i → i.wellFormedIn c = true ∧ encode i = .stream w) ∧
    (∀ off width v, decode c (.write off width v) = .ok i →
      i.wellFormedIn c = true ∧ width = 4 ∧ (off = 0x90 ∨ off = 0x94) ∧
      (off = 0x90 ∨ c.mode ≠ .read → encode i = .write off 4 v) ∧
      (off = 0x94 → c.mode = .read → encode i = .write off 4 (v &&& 0xFFFFFF00))) ∧
    (∀ off width, decode c (.read off width) = .ok i → i = .poll ∧ off = 0x90 ∧ width = 4)

/-- R95: the decoding is total, and no word has two rows: apart from the generic row CONT, two well-formed stream instructions
with one word are the same instruction. -/
def Obligations.StreamDecodingTotalAndUnique : Prop :=
  ∀ (c : DecodeCtx) (w : Word),
    (∃ i, decode c (.stream w) = .ok i) ∧
    (∀ i j : Instr, i.wellFormedIn c = true → j.wellFormedIn c = true → (∀ p, i ≠ .cont p) → (∀ p, j ≠ .cont p) →
      encode i = .stream w → encode j = .stream w → i = j)

/-- A few words written out from the encoding tables, at least one for each of the six formats of R90, decode to the instructions
they stand for (R92 to R95, R97, R98, R99, R102, R105, R106, R107). -/
def Obligations.SampleWordsDecode : Prop :=
  decode resetCtx (.stream 0x84D7FFFF) = .ok (.blkhdr 19 5 1023 255) ∧
  decode resetCtx (.stream 0x8CC00010) = .ok (.blktrl 19 16) ∧
  decode resetCtx (.stream 0x90EAAFFF) = .ok (.evhdr 3 0x2AA 0xFFF) ∧
  decode resetCtx (.stream 0xC0000003) = .ok (.dechdr 0 3) ∧
  decode resetCtx (.stream 0x00000105) = .ok (.fillC 0x105) ∧
  decode { resetCtx with remaining := 1 } (.stream 0x88000000) = .ok (.decdata 0x88000000) ∧
  decode resetCtx (.write 0x90 4 0x80000000) = .ok .setWren ∧
  decode resetCtx (.read 0x90 4) = .ok .poll ∧
  decode { resetCtx with mode := .writeEnable } (.write 0x94 4 0x000002FF) = .ok (.wrbyte 2 0xFF)

/-- R66, R110, U5, U6, U7, U14: the register accesses no rule defines. Of a wrong width, misaligned, or to a register whose content
the spec leaves out (R47): refused by name; beyond the block, which spans 0x00 to 0x94 (R70): a fault. With an operation pending a
write of an unknown command or in mode None faults instead (R229). That an aligned access below 0x90 is that refusal and one above
0x94 that fault is the model's choice (log entry 16), and so is that width and offset are looked at first (log entry 14). -/
def Obligations.UndefinedRegisterAccessesRefused : Prop :=
  ∀ (s : State) (off width : Nat) (v : Word),
    (width ≠ 4 → present (.write off width v) s = .refused (.accessWidth width) ∧
      present (.read off width) s = .refused (.accessWidth width)) ∧
    (off % 4 ≠ 0 → present (.write off 4 v) s = .refused (.accessMisaligned off) ∧
      present (.read off 4) s = .refused (.accessMisaligned off)) ∧
    (off % 4 = 0 → off < 0x90 → present (.write off 4 v) s = .refused (.otherRegister off) ∧
      present (.read off 4) s = .refused (.otherRegister off)) ∧
    (off % 4 = 0 → 0x94 < off → present (.write off 4 v) s = .fault (.outsideBlock off) ∧
      present (.read off 4) s = .fault (.outsideBlock off)) ∧
    (s.dev.pending = .none → v ≠ 0x80000000 → v ≠ 0x40000000 → v ≠ 0x20000000 →
      present (.write 0x90 4 v) s = .refused (.unknownCommand v)) ∧
    (s.dev.pending = .none → s.dev.mode = .none → present (.write 0x94 4 v) s = .refused .dataWriteInModeNone)

/-- R114: the two framing predicates are the masked comparisons, on every word. The header's code 0 is the source's; the trailer's
code 1, and so its mask comparison, holds "under decision D1", a decision of the spec's (R92, R114; log entry 6). -/
def Obligations.FramingPredicatesAreMasks : Prop :=
  ∀ w : Word, (isBlockHeader w = true ↔ w &&& 0xF8000000 = 0x80000000) ∧
    (isBlockTrailer w = true ↔ w &&& 0xF8000000 = 0x88000000)

/-! ### The step runs the decoded instruction -/

/-- A word at the head of the inputs is consumed, and the step is exec of the instruction it decodes to in the present state
(R28, R61, R120). -/
def Obligations.StepRunsStreamWord : Prop :=
  ∀ (s : State) (w : Word) (rest : List Event) (i : Instr),
    s.env.inputs = .word w :: rest → decode s.ctx (.stream w) = .ok i →
    step s = exec i { s with env := { s.env with inputs := rest } }

/-- A register access of a HOST thread runs the instruction it decodes to, while the lock is free or that thread's own (R60, R72). That
HOST's other threads go by a number is the model's choice (log entry 26). -/
def Obligations.StepRunsHostAccess : Prop :=
  ∀ (s : State) (rest : List Event) (i : Instr) (who : Nat), s.prg.lockHeld = false →
    s.env.lockOther = none ∨ s.env.lockOther = some who →
    (∀ off width v, s.env.inputs = .hostWrite who off width v :: rest → decode s.ctx (.write off width v) = .ok i →
      step s = exec i { s with env := { s.env with inputs := rest } }) ∧
    (∀ off width, s.env.inputs = .hostRead who off width :: rest → decode s.ctx (.read off width) = .ok i →
      step s = exec i { s with env := { s.env with inputs := rest } })

/-- R250: each stage of PRG makes the one register access of its row, that is, it runs that instruction; the access appears on
PRG's output port, and PRG goes on as the row says: next stage, `polls`, `addr`. A poll that sees BUSY keeps `addr` and either
polls again or ends the operation (which of the two, BusyPollCountsAndTimesOut says). With no move listed PRG moves by itself
(log entry 1), with the handle or without it; for the listed move the handle and the image are there, as R215 and R248 ask. -/
def Obligations.PrgStepRunsItsInstruction : Prop :=
  ∀ (s t : State) (rest : List Event) (b : Byte),
    (s.env.inputs = [] → lockingStage s.prg.stage = true →
      step s = step { s with env := { s.env with inputs := [.prg false] } }) ∧
    (s.env.devReady = true → s.prg.img ≠ [] → s.env.inputs = .prg false :: rest →
      (s.prg.stage = .eraseCmd → exec .bulkErase (popped s rest) = .next t →
        step s = .next { t with prg := { t.prg with stage := .erasePoll, polls := 0,
                                                    trace := t.prg.trace ++ [.wrote 0x90 0x40000000] } }) ∧
      (s.prg.stage = .wrMode → exec .setWren (popped s rest) = .next t →
        step s = .next { t with prg := { t.prg with stage := .wrByte, addr := 0,
                                                    trace := t.prg.trace ++ [.wrote 0x90 0x80000000] } }) ∧
      (s.prg.stage = .wrByte → s.dev.mode = .writeEnable → s.prg.img[s.prg.addr]? = some b →
        exec (.wrbyte (BitVec.ofNat 24 s.prg.addr) b) (popped s rest) = .next t →
        step s = .next { t with prg := { t.prg with stage := .wrPoll, polls := 0,
                                                    trace := t.prg.trace ++
                                                      [.wrote 0x94 (BitVec.ofNat 24 s.prg.addr ++ b)] } }) ∧
      (s.prg.stage = .rdMode → exec .setRd (popped s rest) = .next t →
        step s = .next { t with prg := { t.prg with stage := .rdByte, addr := 0, verifyErr := false,
                                                    mm := { t.prg.mm with valid := false },
                                                    trace := t.prg.trace ++ [.wrote 0x90 0x20000000] } }) ∧
      (s.prg.stage = .rdByte → s.dev.mode = .read →
        exec (.rdbyte (BitVec.ofNat 24 s.prg.addr)) (popped s rest) = .next t →
        step s = .next { t with prg := { t.prg with stage := .rdPoll, polls := 0,
                                                    trace := t.prg.trace ++
                                                      [.wrote 0x94 (BitVec.ofNat 24 s.prg.addr ++ 0#8)] } }) ∧
      (s.prg.stage = .erasePoll ∨ s.prg.stage = .wrPoll ∨ s.prg.stage = .rdPoll → exec .poll (popped s rest) = .next t →
        (s.prg.stage = .rdPoll → s.prg.img[s.prg.addr]? = some b) →
        ∃ u, step s = .next u ∧ u.dev = t.dev ∧ u.dec = t.dec ∧ u.env = t.env ∧ u.prg.polls = s.prg.polls + 1 ∧
          u.prg.trace = s.prg.trace ++ [.got 0x90 t.env.busData] ∧
          (s.dev.pending ≠ .none →
            u.prg.addr = s.prg.addr ∧ (u.prg.stage = s.prg.stage ∨ u.prg.stage = .finish)) ∧
          (s.dev.pending = .none →
            (s.prg.stage = .erasePoll → u.prg.addr = s.prg.addr ∧
              (s.prg.op ≠ .eraseAll → u.prg.stage = .wrMode)) ∧
            (s.prg.stage = .wrPoll → u.prg.addr = s.prg.addr + 1 ∧
              (s.prg.addr + 1 < s.prg.imgSize → u.prg.stage = .wrByte) ∧
              (s.prg.imgSize ≤ s.prg.addr + 1 → s.prg.op ≠ .download → u.prg.stage = .rdMode)) ∧
            (s.prg.stage = .rdPoll → u.prg.addr = s.prg.addr + 1 ∧
              (s.prg.addr + 1 < s.prg.imgSize → u.prg.stage = .rdByte) ∧
              (s.prg.imgSize ≤ s.prg.addr + 1 → u.prg.stage = .finish)))))

/-! ### DEC: type-defining words -/

/-- R140, R143: BLKHDR and BLKTRL in Generic: encoding, fields, flags, and nothing else written. BLKTRL's code is decision D1 of
the spec's (R92, R143), and the positions and widths of the fields are its decisions D2, D3 and D4 (R96, R97, R98; log entry 6). -/
def Obligations.BlockFramingWords : Prop :=
  ∀ (s : State) (w : Word), s.dec.remaining = 0 →
    (w &&& 0xF8000000 = 0x80000000 →
      decode s.ctx (.stream w) =
        .ok (.blkhdr (w.extractLsb' 22 5) (w.extractLsb' 18 4) (w.extractLsb' 8 10) (w.extractLsb' 0 8)) ∧
      exec (.blkhdr (w.extractLsb' 22 5) (w.extractLsb' 18 4) (w.extractLsb' 8 10) (w.extractLsb' 0 8)) s =
        .next { s with dec := { s.dec with
          lastType := 0, isContinuation := false,
          out := s.dec.out ++ [⟨w, 0, true, .blockHeader, none,
            .blockHeader (w.extractLsb' 22 5) (w.extractLsb' 18 4) (w.extractLsb' 8 10) (w.extractLsb' 0 8), .none⟩] } }) ∧
    (w &&& 0xF8000000 = 0x88000000 →
      decode s.ctx (.stream w) = .ok (.blktrl (w.extractLsb' 22 5) (w.extractLsb' 0 22)) ∧
      exec (.blktrl (w.extractLsb' 22 5) (w.extractLsb' 0 22)) s =
        .next { s with dec := { s.dec with
          lastType := 1, isContinuation := false,
          out := s.dec.out ++ [⟨w, 1, true, .blockTrailer, none,
            .blockTrailer (w.extractLsb' 22 5) (w.extractLsb' 0 22), .none⟩] } })

/-- R150, R153, R158: EVHDR, TRGTIME and EOE in Generic. The codes 2, 3 and 13 are decision D1 of the spec's (R92), the positions of
EVHDR's fields its decisions D2 and D5 (R96, R99; log entry 6). -/
def Obligations.EventWords : Prop :=
  ∀ (s : State) (w : Word), s.dec.remaining = 0 →
    (w &&& 0xF8000000 = 0x90000000 →
      decode s.ctx (.stream w) = .ok (.evhdr (w.extractLsb' 22 5) (w.extractLsb' 12 10) (w.extractLsb' 0 12)) ∧
      exec (.evhdr (w.extractLsb' 22 5) (w.extractLsb' 12 10) (w.extractLsb' 0 12)) s =
        .next { s with dec := { s.dec with
          lastType := 2, isContinuation := false,
          out := s.dec.out ++ [⟨w, 2, true, .eventHeader, none,
            .eventHeader (w.extractLsb' 22 5) (w.extractLsb' 12 10) (w.extractLsb' 0 12), .none⟩] } }) ∧
    (w &&& 0xF8000000 = 0x98000000 →
      decode s.ctx (.stream w) = .ok (.trgtime (w.extractLsb' 0 27)) ∧
      exec (.trgtime (w.extractLsb' 0 27)) s =
        .next { s with dec := { s.dec with
          lastType := 3, isContinuation := false,
          out := s.dec.out ++ [⟨w, 3, true, .triggerTime, none, .time1 (w.extractLsb' 0 27), .none⟩] } }) ∧
    (w &&& 0xF8000000 = 0xE8000000 →
      decode s.ctx (.stream w) = .ok (.eoe (w.extractLsb' 0 27)) ∧
      exec (.eoe (w.extractLsb' 0 27)) s =
        .next { s with dec := { s.dec with
          lastType := 13, isContinuation := false,
          out := s.dec.out ++ [⟨w, 13, true, .endOfEvent, none, .none, .none⟩] } })

/-- R180, R183: DNV and FILL in Generic. DNV's code is decision D1 of the spec's (R92, R180), the position of the slot id its
decision D2 (R96, R103; log entry 6). -/
def Obligations.StatusWords : Prop :=
  ∀ (s : State) (w : Word), s.dec.remaining = 0 →
    (w &&& 0xF8000000 = 0xF0000000 →
      decode s.ctx (.stream w) = .ok (.dnv (w.extractLsb' 22 5) (w.extractLsb' 0 22)) ∧
      exec (.dnv (w.extractLsb' 22 5) (w.extractLsb' 0 22)) s =
        .next { s with dec := { s.dec with
          lastType := 14, isContinuation := false,
          out := s.dec.out ++ [⟨w, 14, true, .dataNotValid, none, .slot (w.extractLsb' 22 5), .none⟩] } }) ∧
    (w &&& 0xF8000000 = 0xF8000000 →
      decode s.ctx (.stream w) = .ok (.fill (w.extractLsb' 22 5) (w.extractLsb' 0 22)) ∧
      exec (.fill (w.extractLsb' 22 5) (w.extractLsb' 0 22)) s =
        .next { s with dec := { s.dec with
          lastType := 15, isContinuation := false,
          out := s.dec.out ++ [⟨w, 15, true, .fillerWord, none, .slot (w.extractLsb' 22 5), .none⟩] } })

/-- R186 to R193: a word of an undefined code in Generic is tagged with the raw code; the code becomes `lastType`. -/
def Obligations.UndefinedCodeWords : Prop :=
  ∀ (s : State) (w : Word), s.dec.remaining = 0 →
    let after := fun (c : Code) => Host.Outcome.next (φ := Fault) (ρ := Refusal)
      { s with dec := { s.dec with
        lastType := c, isContinuation := false,
        out := s.dec.out ++ [⟨w, c, true, .undefined c, none, .none, .none⟩] } }
    let p := w.extractLsb' 0 27
    (w &&& 0xF8000000 = 0xA0000000 → decode s.ctx (.stream w) = .ok (.undef4 p) ∧ exec (.undef4 p) s = after 4) ∧
    (w &&& 0xF8000000 = 0xA8000000 → decode s.ctx (.stream w) = .ok (.undef5 p) ∧ exec (.undef5 p) s = after 5) ∧
    (w &&& 0xF8000000 = 0xB0000000 → decode s.ctx (.stream w) = .ok (.undef6 p) ∧ exec (.undef6 p) s = after 6) ∧
    (w &&& 0xF8000000 = 0xB8000000 → decode s.ctx (.stream w) = .ok (.undef7 p) ∧ exec (.undef7 p) s = after 7) ∧
    (w &&& 0xF8000000 = 0xC8000000 → decode s.ctx (.stream w) = .ok (.undef9 p) ∧ exec (.undef9 p) s = after 9) ∧
    (w &&& 0xF8000000 = 0xD0000000 → decode s.ctx (.stream w) = .ok (.undef10 p) ∧ exec (.undef10 p) s = after 10) ∧
    (w &&& 0xF8000000 = 0xD8000000 → decode s.ctx (.stream w) = .ok (.undef11 p) ∧ exec (.undef11 p) s = after 11) ∧
    (w &&& 0xF8000000 = 0xE0000000 → decode s.ctx (.stream w) = .ok (.undef12 p) ∧ exec (.undef12 p) s = after 12)

/-- R165, R166: DECHDR in Generic loads the count into both registers, so no buffer entry is valid; with n = 0 DEC stays in
Generic. -/
def Obligations.DecoderHeaderStartsRun : Prop :=
  ∀ (s : State) (w : Word), s.dec.remaining = 0 → w &&& 0xF8000000 = 0xC0000000 →
    decode s.ctx (.stream w) = .ok (.dechdr (w.extractLsb' 6 21) (w.extractLsb' 0 6)) ∧
    ∃ t, exec (.dechdr (w.extractLsb' 6 21) (w.extractLsb' 0 6)) s = .next t ∧
      t = { s with dec := { s.dec with
        lastType := 8, isContinuation := false, decCount := w.extractLsb' 0 6,
        remaining := w.extractLsb' 0 6,
        out := s.dec.out ++ [⟨w, 8, true, .decoderHeader, none, .count (w.extractLsb' 0 6), .none⟩] } } ∧
      (∀ i, bufRead i t = .fault (.bufferEntryNotValid i))

/-! ### DEC: continuation words and captured words -/

/-- R142, R145, R152, R160, R171, R182, R185, R194: a continuation word in Generic under every type but TriggerTime is
reported under that type with no fields, sets `isContinuation`, and changes nothing else (R127). For every type but EventHeader
this is a decision of the spec's, not the source's: "that the other types behave the same, raise no error and extract nothing is
the spec's own choice" (R127; log entry 6). -/
def Obligations.PlainContinuationWords : Prop :=
  ∀ (s : State) (w : Word), s.dec.remaining = 0 → w.getLsbD 31 = false →
    let after := fun (c : Code) (g : Tag) => Host.Outcome.next (φ := Fault) (ρ := Refusal)
      { s with dec := { s.dec with isContinuation := true, out := s.dec.out ++ [⟨w, c, false, g, none, .none, .none⟩] } }
    let p := w.extractLsb' 0 31
    (s.dec.lastType = 0 → decode s.ctx (.stream w) = .ok (.blkhdrC p) ∧ exec (.blkhdrC p) s = after 0 .blockHeader) ∧
    (s.dec.lastType = 1 → decode s.ctx (.stream w) = .ok (.blktrlC p) ∧ exec (.blktrlC p) s = after 1 .blockTrailer) ∧
    (s.dec.lastType = 2 → decode s.ctx (.stream w) = .ok (.evhdrC p) ∧ exec (.evhdrC p) s = after 2 .eventHeader) ∧
    (s.dec.lastType = 8 → decode s.ctx (.stream w) = .ok (.dechdrC p) ∧ exec (.dechdrC p) s = after 8 .decoderHeader) ∧
    (s.dec.lastType = 13 → decode s.ctx (.stream w) = .ok (.eoeC p) ∧ exec (.eoeC p) s = after 13 .endOfEvent) ∧
    (s.dec.lastType = 14 → decode s.ctx (.stream w) = .ok (.dnvC p) ∧ exec (.dnvC p) s = after 14 .dataNotValid) ∧
    (s.dec.lastType = 15 → decode s.ctx (.stream w) = .ok (.fillC p) ∧ exec (.fillC p) s = after 15 .fillerWord) ∧
    (s.dec.lastType ∈ ([4, 5, 6, 7, 9, 10, 11, 12] : List Code) →
      decode s.ctx (.stream w) = .ok (.undefC p) ∧ exec (.undefC p) s = after s.dec.lastType (.undefined s.dec.lastType))

/-- R155, R156: a continuation word under TriggerTime: the second fragment in sequence, the protocol error out of sequence.
TRGTIME's code (D1), the position of `time2` (D6), that `isContinuation` carries what the word before was (D12, R154) and that
the word out of sequence has no `time2` (D13, R156) are decisions of the spec's (log entry 6). -/
def Obligations.TriggerTimeContinuations : Prop :=
  ∀ (s : State) (w : Word), s.dec.remaining = 0 → w.getLsbD 31 = false → s.dec.lastType = 3 →
    (s.dec.isContinuation = false →
      decode s.ctx (.stream w) = .ok (.trgtimeC (w.extractLsb' 20 11) (w.extractLsb' 0 20)) ∧
      exec (.trgtimeC (w.extractLsb' 20 11) (w.extractLsb' 0 20)) s =
        .next { s with dec := { s.dec with
          isContinuation := true,
          out := s.dec.out ++ [⟨w, 3, false, .triggerTime, none, .time2 (w.extractLsb' 0 20), .none⟩] } }) ∧
    (s.dec.isContinuation = true →
      decode s.ctx (.stream w) = .ok (.trgtimeCerr (w.extractLsb' 0 31)) ∧
      exec (.trgtimeCerr (w.extractLsb' 0 31)) s =
        .next { s with dec := { s.dec with
          isContinuation := true, protoErr := true,
          out := s.dec.out ++ [⟨w, 3, false, .triggerTime, none, .none, .trigTimeSeq⟩] } })

/-- R126, R127: the generic row CONT, in every state, does what the row that `lastType` selects does
(log entry 12). -/
def Obligations.GenericContinuationIsItsRow : Prop :=
  ∀ (s : State) (p : BitVec 31) (j : Instr), decode s.ctx (encode (.cont p)) = .ok j →
    ∃ t, exec (.cont p) s = .next t ∧ exec j s = .next t

/-- R168: a word in a decoder run is written to `decBuf[decCount - remaining]`, `remaining` goes down by one, and the DataWord
is DecoderData of type 8 with that index; nothing else is written. What a captured word leaves unwritten (D10) and its type 8
and `new` 0 (D14) are decisions of the spec's (R168; log entry 6). -/
def Obligations.CapturedWord : Prop :=
  ∀ (s : State) (w : Word), s.dec.remaining ≠ 0 →
    decode s.ctx (.stream w) = .ok (.decdata w) ∧
    ∃ t, exec (.decdata w) s = .next t ∧
      t = { s with dec := { s.dec with
        decBuf := t.dec.decBuf, remaining := s.dec.remaining - 1,
        out := s.dec.out ++
          [⟨w, 8, false, .decoderData, some (s.dec.decCount - s.dec.remaining), .none, .none⟩] } } ∧
      ∀ i (h : i < 64),
        t.dec.decBuf[i] = if i = (s.dec.decCount - s.dec.remaining).toNat then w else s.dec.decBuf[i]

/-- R121: in a decoder run no word is classified: whatever stream instruction its bits spell, it is captured. That
`exec` of another row captures its word there is the model's reading (log entry 12). -/
def Obligations.RunSuppressesClassification : Prop :=
  ∀ (s : State) (i : Instr), s.dec.remaining ≠ 0 → i.onStream = true →
    exec i s = exec (.decdata (encodeWord i)) s ∧
    ∃ t, exec i s = .next t ∧ t.dec.lastType = s.dec.lastType ∧ t.dec.isContinuation = s.dec.isContinuation ∧
      t.dec.decCount = s.dec.decCount ∧ t.dec.protoErr = s.dec.protoErr

/-- R120: the rows together are the one step `DEC.step`: every stream instruction, in every state and with every operand,
answers the next state that `DEC.step` of its word gives, and a step on a word is `DEC.step` of the word. That `exec` of a row does
so in the states its condition excludes too is the model's reading (log entry 12). -/
def Obligations.RowsAreDecStep : Prop :=
  (∀ (i : Instr) (s : State), i.onStream = true → exec i s = .next (decStep (encodeWord i) s)) ∧
  (∀ (s : State) (w : Word) (rest : List Event), s.env.inputs = .word w :: rest →
    step s = .next (decStep w (popped s rest)))

/-- R165, R168 to R170: a decoder header of count n and any n words after it, whatever their bits: n + 1 steps later the
n words stand in the buffer in order, all valid, each was reported as DecoderData, and DEC is in Generic with `lastType` 8. -/
def Obligations.DecoderRunCapturesItsWords : Prop :=
  ∀ (s : State) (h : Word) (ws : List Word) (rest : List Event),
    s.dec.remaining = 0 → h &&& 0xF8000000 = 0xC0000000 → ws.length = (h.extractLsb' 0 6).toNat →
    s.env.inputs = .word h :: (ws.map Event.word ++ rest) →
    ∃ t, Host.Core.run Sys2Proof.core (ws.length + 1) s = .next t ∧
      t.env.inputs = rest ∧ t.dec.remaining = 0 ∧ t.dec.lastType = 8 ∧ t.dec.isContinuation = false ∧
      t.dec.protoErr = s.dec.protoErr ∧ t.prg = s.prg ∧ t.dev = s.dev ∧
      (∀ i (hi : i < ws.length), bufRead i t = .next { t with env := { t.env with bufData := ws[i] } }) ∧
      (∀ i, ws.length ≤ i → bufRead i t = .fault (.bufferEntryNotValid i)) ∧
      (t.dec.out.drop (s.dec.out.length + 1)).map DataWord.raw = ws ∧
      ∀ d ∈ t.dec.out.drop (s.dec.out.length + 1), d.tag = .decoderData

/-- R128: after reset a continuation word is reported under FillerWord, type 15, with `new` 0. -/
def Obligations.FirstWordQuirk : Prop :=
  ∀ (s t : State) (w : Word) (rest : List Event), s.dec = Dec.reset → w.getLsbD 31 = false →
    s.env.inputs = .word w :: rest → step s = .next t →
    t.dec = { Dec.reset with isContinuation := true, out := [⟨w, 15, false, .fillerWord, none, .none, .none⟩] }

/-! ### DEC: reset, the buffer, save and restore, the sticky error -/

/-- R50: the machine right after reset, register by register, as far as the spec gives a value: no buffer entry holds one, and what
the array, RDATA and the fields of a diagnostic that is not valid hold the statement does not say. The mode None and nothing
pending are the spec's values for the model and a launch premise, not facts of the hardware (R46, R302; log entry 9). -/
def Obligations.ResetState : Prop :=
  State.reset.dec.lastType = 15 ∧ State.reset.dec.isContinuation = false ∧ State.reset.dec.remaining = 0 ∧
  State.reset.dec.decCount = 0 ∧ State.reset.dec.protoErr = false ∧
  (∀ i, bufRead i State.reset = .fault (.bufferEntryNotValid i)) ∧
  State.reset.prg.imgSize = 0 ∧ State.reset.prg.addr = 0 ∧ State.reset.prg.stage = .idle ∧ State.reset.prg.polls = 0 ∧
  State.reset.prg.verifyErr = false ∧ State.reset.prg.mm.valid = false ∧ State.reset.prg.lockHeld = false ∧
  State.reset.prg.result = .none ∧ State.reset.env.devReady = false ∧ State.reset.dev.mode = .none ∧
  State.reset.dev.pending = .none

/-- R300, R134: `rst` of DEC, whatever it was doing; no buffer entry is valid after it. The input `rst` of DEC is a decision of
the spec's (D14, D15 in R50 and R300: "The source has no reset signal for the decoder"; log entry 6), and so are the reset
values of `isContinuation`, `decCount`, the buffer and `protoErr` (D12, D9, D13 in R50). What `rst` does to the BlockRecord is
the model's choice (log entry 11) and the statement does not say it. -/
def Obligations.DecResetValues : Prop :=
  ∀ (s : State) (rest : List Event), s.env.inputs = .decRst :: rest →
    ∃ t, step s = .next t ∧ t.dec.lastType = 15 ∧ t.dec.isContinuation = false ∧ t.dec.remaining = 0 ∧
      t.dec.decCount = 0 ∧ t.dec.protoErr = false ∧ (∀ i, bufRead i t = .fault (.bufferEntryNotValid i)) ∧
      t.prg = s.prg ∧ t.dev = s.dev ∧ t.params = s.params ∧ t.draws = s.draws

/-- R25: an entry of the buffer can be read exactly when `i < decCount - remaining`; any other read faults. -/
def Obligations.BufferEntryValidity : Prop :=
  ∀ (s : State) (i : Nat) (rest : List Event), s.env.inputs = .bufRead i :: rest →
    s.dec.remaining.toNat ≤ s.dec.decCount.toNat →
    (i < s.dec.decCount.toNat - s.dec.remaining.toNat →
      ∃ h : i < 64, step s = .next { s with env := { s.env with inputs := rest, bufData := s.dec.decBuf[i] } }) ∧
    (s.dec.decCount.toNat - s.dec.remaining.toNat ≤ i → step s = .fault (.bufferEntryNotValid i))

/-- R133: after `restore` of a saved state, every sequence of words gives the DataWords it gives without the interruption, in
whatever state the decoder was between the two. `protoErr` and the DataWords already put out stay with the instance (R48). The
moves: `save` puts the record out and changes nothing else, `restore` writes the five pieces and changes nothing else; that a
record's buffer must have exactly `decCount - remaining` words is the model's reading (log entry 24). -/
def Obligations.SaveRestoreResumesStream : Prop :=
  (∀ (s t : State), s.dec.remaining.toNat ≤ s.dec.decCount.toNat →
    ∃ u, decRestore (savedRecord s.dec) t = .next u ∧
      u = { t with dec := { u.dec with protoErr := t.dec.protoErr, out := t.dec.out } } ∧
      ∀ ws : List Word, ∃ dws : List DataWord,
        (ws.foldl (fun x w => decStep w x) s).dec.out = s.dec.out ++ dws ∧
        (ws.foldl (fun x w => decStep w x) u).dec.out = t.dec.out ++ dws ∧
        savedRecord (ws.foldl (fun x w => decStep w x) s).dec = savedRecord (ws.foldl (fun x w => decStep w x) u).dec) ∧
  (∀ (s : State) (rest : List Event), s.env.inputs = .decSave :: rest →
    step s = .next { s with env := { s.env with inputs := rest, saved := s.env.saved ++
      [⟨s.dec.lastType, s.dec.isContinuation, s.dec.remaining, s.dec.decCount,
        s.dec.decBuf.toList.take (s.dec.decCount.toNat - s.dec.remaining.toNat)⟩] } }) ∧
  (∀ (s : State) (r : DecRecord) (rest : List Event), s.env.inputs = .decRestore r :: rest →
    r.remaining.toNat ≤ r.decCount.toNat → r.buf.length = r.decCount.toNat - r.remaining.toNat →
    ∃ u, step s = .next u ∧
      u = { s with env := { s.env with inputs := rest },
                   dec := { s.dec with lastType := r.lastType, isContinuation := r.isContinuation,
                                       remaining := r.remaining, decCount := r.decCount, decBuf := u.dec.decBuf } } ∧
      (∀ i (h : i < r.buf.length), bufRead i u = .next { u with env := { u.env with bufData := r.buf[i] } }) ∧
      (∀ i, r.buf.length ≤ i → bufRead i u = .fault (.bufferEntryNotValid i)))

/-- R132, U15: a restore with a record that breaks `remaining <= decCount` is refused. -/
def Obligations.BadRestoreRefused : Prop :=
  ∀ (s : State) (r : DecRecord) (rest : List Event), s.env.inputs = .decRestore r :: rest →
    r.decCount.toNat < r.remaining.toNat → step s = .refused .badRestore

/-- R26, R156: `protoErr` is set by an out-of-sequence TriggerTime continuation and by nothing else, and cleared by nothing but
`rst` of DEC. -/
def Obligations.ProtoErrIsSticky : Prop :=
  ∀ s t : State, step s = .next t →
    (s.dec.protoErr = true → t.dec.protoErr = false → ∃ rest, s.env.inputs = .decRst :: rest) ∧
    (s.dec.protoErr = false → t.dec.protoErr = true →
      ∃ w rest, s.env.inputs = .word w :: rest ∧ s.dec.remaining = 0 ∧ w.getLsbD 31 = false ∧ s.dec.lastType = 3 ∧
        s.dec.isContinuation = true)

/-- R76, R77, R31: DEC's words touch neither PRG nor DEV, and no move but DEC's own touches DEC. -/
def Obligations.DecAndProgrammerAreSeparate : Prop :=
  ∀ (s t : State), step s = .next t →
    (∀ (e : Event) (rest : List Event), s.env.inputs = e :: rest →
      (∀ w, e = .word w → t.prg = s.prg ∧ t.dev = s.dev ∧ t.params = s.params ∧ t.draws = s.draws ∧
        t.env = { s.env with inputs := rest }) ∧
      ((∀ w, e ≠ .word w) → e ≠ .decRst → (∀ r, e ≠ .decRestore r) → t.dec = s.dec)) ∧
    (s.env.inputs = [] → t.dec = s.dec)

/-! ### DEV: the register words -/

/-- R218, R222: SET_WREN and SET_RD set the mode and nothing else; BUSY stays 0. -/
def Obligations.ModeCommands : Prop :=
  ∀ s : State, s.dev.pending = .none →
    exec .setWren s = .next { s with dev := { s.dev with mode := .writeEnable } } ∧
    exec .setRd s = .next { s with dev := { s.dev with mode := .read } }

/-- R216: BULK_ERASE makes an erase pending and changes neither the mode nor the array. -/
def Obligations.BulkEraseStarts : Prop :=
  ∀ s : State, s.dev.pending = .none →
    exec .bulkErase s = .next { s with dev := { s.dev with pending := .erase } }

/-- R220, R224: in mode WriteEnable a CFG_DATA word inside the array makes a write of its byte pending, in mode Read a read;
nothing else changes. -/
def Obligations.DataWordsStart : Prop :=
  ∀ (s : State) (a : EepAddr) (b : Byte), s.dev.pending = .none → a.toNat < s.params.eepSize →
    (s.dev.mode = .writeEnable →
      exec (.wrbyte a b) s = .next { s with dev := { s.dev with pending := .write a b } }) ∧
    (s.dev.mode = .read → exec (.rdbyte a) s = .next { s with dev := { s.dev with pending := .read a } })

/-- R42: the mode, not the row, says what a CFG_DATA word is: in mode Read the word of a WRBYTE is a read of its address
(R220's own comment), in mode WriteEnable the word of an RDBYTE is a write of byte 0. That `exec` of a row met in the other mode
does the other row's work is the model's reading (log entry 13). -/
def Obligations.ModeSelectsDataOperation : Prop :=
  ∀ (s : State) (a : EepAddr) (b : Byte),
    (s.dev.mode = .read → exec (.wrbyte a b) s = exec (.rdbyte a) s) ∧
    (s.dev.mode = .writeEnable → exec (.rdbyte a) s = exec (.wrbyte a 0) s)

/-- R226, R41, R68: POLL returns BUSY at bit 8 and RDATA at bits 7:0 and has no side effect on DEV. Bits 31:9 are a draw
(log entry 5), of which the statement says nothing. R42: a read of CFG_DATA, which is no instruction, returns a draw and has no
side effect either. -/
def Obligations.PollReadsBusyAndData : Prop :=
  ∀ s : State,
    (∃ t, exec .poll s = .next t ∧
      t = { s with env := { s.env with busData := t.env.busData }, draws := s.draws + 1 } ∧
      t.env.busData.getLsbD 8 = decide (s.dev.pending ≠ .none) ∧ t.env.busData.extractLsb' 0 8 = s.dev.rdata) ∧
    (∃ t, present (.read 0x94 4) s = .next t ∧
      t = { s with env := { s.env with busData := t.env.busData }, draws := s.draws + 1 })

/-- R229: a write to CFG_CSR or CFG_DATA while an operation is pending faults, whatever the value and the mode; the
whole machine stops (log entry 15). -/
def Obligations.CommandWhileBusyFaults : Prop :=
  ∀ (s : State) (v : Word), s.dev.pending ≠ .none →
    present (.write 0x90 4 v) s = .fault .cmdWhileBusy ∧ present (.write 0x94 4 v) s = .fault .cmdWhileBusy ∧
    exec .setWren s = .fault .cmdWhileBusy ∧ exec .setRd s = .fault .cmdWhileBusy ∧
    exec .bulkErase s = .fault .cmdWhileBusy

/-- R230, U5: an address at or above `EEP_SIZE` is refused, in either mode. -/
def Obligations.AddressBeyondEepromRefused : Prop :=
  ∀ (s : State) (a : EepAddr) (b : Byte), s.dev.pending = .none → s.params.eepSize ≤ a.toNat →
    (s.dev.mode = .writeEnable → exec (.wrbyte a b) s = .refused (.addressBeyondEeprom a)) ∧
    (s.dev.mode = .read → exec (.rdbyte a) s = .refused (.addressBeyondEeprom a))

/-- R217: a completed erase makes every byte `ERASED_BYTE` and marks it erased; the mode and RDATA stay. -/
def Obligations.EraseCompletion : Prop :=
  ∀ (s : State) (rest : List Event), s.env.inputs = .devComplete :: rest → s.dev.pending = .erase →
    ∃ t, step s = .next t ∧ t.dev.pending = .none ∧ t.dev.mode = s.dev.mode ∧ t.dev.rdata = s.dev.rdata ∧
      (∀ a, t.dev.mem.read t.params a = s.params.erasedByte ∧ t.dev.mem.erased a = true) ∧
      t.dec = s.dec ∧ t.prg = s.prg

/-- R221: a completed write to an erased byte stores the value and clears the mark; every other byte reads as before. A byte that
was not erased takes a draw: the statement says nothing of its value. -/
def Obligations.WriteCompletion : Prop :=
  ∀ (s : State) (rest : List Event) (a : EepAddr) (b : Byte),
    s.env.inputs = .devComplete :: rest → s.dev.pending = .write a b → s.dev.mem.wf s.params = true →
    ∃ t, step s = .next t ∧ t.dev.pending = .none ∧ t.dev.mode = s.dev.mode ∧ t.dev.rdata = s.dev.rdata ∧
      (s.dev.mem.erased a.toNat = true → t.dev.mem.read t.params a.toNat = b) ∧
      t.dev.mem.erased a.toNat = false ∧
      (∀ x, x ≠ a.toNat → t.dev.mem.read t.params x = s.dev.mem.read s.params x ∧
        t.dev.mem.erased x = s.dev.mem.erased x) ∧
      t.dec = s.dec ∧ t.prg = s.prg

/-- R225: a completed read puts the addressed byte into RDATA; the array is not changed. -/
def Obligations.ReadCompletion : Prop :=
  ∀ (s : State) (rest : List Event) (a : EepAddr),
    s.env.inputs = .devComplete :: rest → s.dev.pending = .read a →
    step s = .next { s with dev := { s.dev with pending := .none, rdata := s.dev.mem.read s.params a.toNat },
                            env := { s.env with inputs := rest } }

/-- R74, R75: a byte written to an erased address, read back after SET_RD, is delivered by the poll that sees BUSY = 0. -/
def Obligations.WrittenByteReadsBack : Prop :=
  ∀ (s : State) (a : EepAddr) (b : Byte) (who : Nat) (rest : List Event),
    s.dev.mem.wf s.params = true → s.dev.mem.erased a.toNat = true → a.toNat < s.params.eepSize →
    s.dev.pending = .none → s.dev.mode = .writeEnable → s.prg.lockHeld = false →
    s.env.lockOther = none ∨ s.env.lockOther = some who →
    s.env.inputs = [.hostWrite who 0x94 4 (a ++ b), .devComplete, .hostWrite who 0x90 4 0x20000000,
      .hostWrite who 0x94 4 (a ++ 0#8), .devComplete, .hostRead who 0x90 4] ++ rest →
    ∃ t, Host.Core.run Sys2Proof.core 6 s = .next t ∧ t.env.inputs = rest ∧
      t.env.busData.getLsbD 8 = false ∧ t.env.busData.extractLsb' 0 8 = b ∧
      ∀ x, x ≠ a.toNat → t.dev.mem.read t.params x = s.dev.mem.read s.params x

/-! ### PRG -/

/-- R200, R201, R202: REVB reverses the eight bits, is an involution, and its three swaps commute. -/
def Obligations.BitReversal : Prop :=
  ∀ b : Byte, (∀ i, i < 8 → (revb b).getLsbD i = b.getLsbD (7 - i)) ∧ revb (revb b) = b ∧
    swap1 (swap4 (swap2 b)) = revb b ∧ swap2 (swap1 (swap4 b)) = revb b ∧ swap2 (swap4 (swap1 b)) = revb b ∧
    swap4 (swap1 (swap2 b)) = revb b ∧ swap4 (swap2 (swap1 b)) = revb b

/-- R204 to R207: LOADIMG in Idle stores each byte reversed when every read succeeds and the file fits; a read that fails first is
`IoError`, a byte beyond the capacity `ImageTooLarge`, and after either no image is left. A read that fails is a `none` in the
file (log entry 18), and that no image is left is a decision of the spec's own (D25 in R205, R206). -/
def Obligations.LoadImageOutcome : Prop :=
  ∀ (s : State) (file : List (Option Byte)) (rest : List Event),
    s.prg.stage = .idle → s.env.inputs = .cmd (.loadImage file) :: rest →
    let after := fun (img : List Byte) (r : PrgResult) => Host.Outcome.next (φ := Fault) (ρ := Refusal)
      { s with prg := { s.prg with img := img, result := r }, env := { s.env with inputs := rest } }
    (∀ bytes : List Byte, file = bytes.map some → bytes.length ≤ s.params.fwMaxSize →
      step s = after (bytes.map revb) .ok) ∧
    (∀ i, i ≤ s.params.fwMaxSize → file[i]? = some none → (∀ j, j < i → file[j]? ≠ some none) →
      step s = after [] .ioError) ∧
    (s.params.fwMaxSize < file.length → (∀ j, j ≤ s.params.fwMaxSize → file[j]? ≠ some none) →
      step s = after [] .imageTooLarge)

/-- R248, R282: a failed precondition, checked in this order, ends the operation with its error and writes no register: a command in
Idle, and each of ERASEALL, DOWNLOAD and VERIFY at the stage it begins with, inside a SESSION too (R240, R242, R245, R249). That the
check is made in the step of that stage is the model's reading (log entry 28). -/
def Obligations.PreconditionsBeforeAnyAccess : Prop :=
  ∀ (s : State) (rest : List Event),
    (∀ c, s.prg.stage = .idle → s.env.inputs = .cmd c :: rest → (∀ f, c ≠ .loadImage f) →
      let after := fun (r : PrgResult) => Host.Outcome.next (φ := Fault) (ρ := Refusal)
        { s with prg := { s.prg with result := r, op := .none }, env := { s.env with inputs := rest } }
      (s.env.devReady = false → step s = after .notInitialized) ∧
      (s.env.devReady = true → s.prg.img = [] → step s = after .imageNotLoaded)) ∧
    (∀ fail, s.prg.stage ∈ [Stage.eraseCmd, .wrMode, .rdMode] → s.env.inputs = .prg fail :: rest →
      let after := fun (r : PrgResult) => Host.Outcome.next (φ := Fault) (ρ := Refusal)
        { s with prg := { s.prg with stage := .finish, ending := r }, env := { s.env with inputs := rest } }
      (s.env.devReady = false → step s = after .notInitialized) ∧
      (s.env.devReady = true → s.prg.img = [] → step s = after .imageNotLoaded))

/-- R249, R250: StartSession with its preconditions leads to the confirmation prompt. The answer to it: declined, no lock is taken
and the image is discarded; accepted with the lock free, PRG takes the lock and goes to EraseCmd; accepted with the lock held by
another, PRG stays in Confirm and the answer waits, in a list of the model's (log entry 2). An answer replaces one that still
waits (log entry 29). -/
def Obligations.ConfirmationGate : Prop :=
  ∀ (s : State) (rest : List Event),
    (s.prg.stage = .idle → s.env.inputs = .cmd .startSession :: rest → s.env.devReady = true → s.prg.img ≠ [] →
      step s = .next { s with prg := { s.prg with stage := .confirm, op := .session },
                              env := { s.env with inputs := rest } }) ∧
    (s.prg.stage = .confirm →
      let others := s.env.blocked.filter fun e => !isAnswer e
      (s.env.inputs = .confirm false :: rest →
        step s = .next { s with prg := { s.prg with img := [], stage := .idle, result := .declined, op := .none },
                                env := { s.env with inputs := rest, blocked := others } }) ∧
      (s.env.inputs = .confirm true :: rest → s.prg.lockHeld = false → s.env.lockOther = none →
        step s = .next { s with prg := { s.prg with stage := .eraseCmd, op := .session, lockHeld := true },
                                env := { s.env with inputs := rest, blocked := others } }) ∧
      (s.env.inputs = .confirm true :: rest → s.prg.lockHeld = false → s.env.lockOther ≠ none →
        step s = .next { s with env := { s.env with inputs := rest, blocked := others ++ [.confirm true] } }))

/-- R250, R301, U16, U21: outside Idle PRG accepts neither a command nor `rst`. -/
def Obligations.BusyProgrammerAcceptsNothing : Prop :=
  ∀ (s : State) (rest : List Event), s.prg.stage ≠ .idle →
    (∀ c, s.env.inputs = .cmd c :: rest → step s = .refused .commandOutsideIdle) ∧
    (s.env.inputs = .prgRst :: rest → step s = .refused .rstOutsideIdle)

/-- R301: `rst` of PRG in Idle. -/
def Obligations.PrgResetValues : Prop :=
  ∀ (s : State) (rest : List Event), s.prg.stage = .idle → s.env.inputs = .prgRst :: rest →
    ∃ t, step s = .next t ∧ t.prg.stage = .idle ∧ t.prg.imgSize = 0 ∧ t.prg.addr = 0 ∧ t.prg.polls = 0 ∧
      t.prg.verifyErr = false ∧ t.prg.mm.valid = false ∧ t.prg.lockHeld = false ∧ t.prg.result = .none ∧
      t.dec = s.dec ∧ t.dev = s.dev

/-- R232, R250, R283: an access that fails ends the operation with `DeviceError`: PRG goes to Finish and nothing else changes,
what DEV has pending included. That a failing access does not reach DEV is the model's choice (log entry 17). R215: without the
handle no access is made, whether it would fail or not, and the operation ends with `NotInitialized`; that this is its outcome in
the course of an operation is the model's choice (log entry 28). -/
def Obligations.FailedAccessEndsOperation : Prop :=
  ∀ (s : State) (fail : Bool) (rest : List Event), s.env.inputs = .prg fail :: rest → lockingStage s.prg.stage = true →
    s.prg.stage ≠ .finish → (s.prg.stage = .wrByte → s.prg.addr < s.prg.imgSize) →
    let after := fun (r : PrgResult) => Host.Outcome.next (φ := Fault) (ρ := Refusal)
      { s with prg := { s.prg with stage := .finish, ending := r }, env := { s.env with inputs := rest } }
    (fail = true → s.env.devReady = true → s.prg.img ≠ [] → step s = after .deviceError) ∧
    (s.env.devReady = false → step s = after .notInitialized)

/-- R226, R227, R250: a poll that sees BUSY counts; when the count reaches a finite `POLL_MAX` the operation ends with `Timeout`,
which names the stage and the address; otherwise PRG polls again. DEV is untouched. R311: with no move listed, so that DEV never
completes (log entry 1), PRG polls for ever holding the lock if `POLL_MAX` is `inf`, and otherwise is in Idle with `Timeout` and
without the lock after some steps. -/
def Obligations.BusyPollCountsAndTimesOut : Prop :=
  ∀ s : State, s.env.devReady = true → s.dev.pending ≠ .none →
    s.prg.stage = .erasePoll ∨ s.prg.stage = .wrPoll ∨ s.prg.stage = .rdPoll →
    (∀ rest, s.env.inputs = .prg false :: rest →
      ∃ t, step s = .next t ∧ t.prg.polls = s.prg.polls + 1 ∧ t.dev = s.dev ∧ t.prg.addr = s.prg.addr ∧
        t.prg.lockHeld = s.prg.lockHeld ∧ t.prg.img = s.prg.img ∧
        (∀ m, s.params.pollMax = some m → m ≤ s.prg.polls + 1 →
          t.prg.stage = .finish ∧ t.prg.ending = .timeout s.prg.stage s.prg.addr) ∧
        (∀ m, s.params.pollMax = some m → s.prg.polls + 1 < m →
          t.prg.stage = s.prg.stage ∧ t.prg.ending = s.prg.ending) ∧
        (s.params.pollMax = none → t.prg.stage = s.prg.stage ∧ t.prg.ending = s.prg.ending)) ∧
    (s.env.inputs = [] → s.params.pollMax = none →
      ∀ k, ∃ t, Host.Core.run Sys2Proof.core k s = .next t ∧ t.prg.stage = s.prg.stage ∧
        t.prg.lockHeld = s.prg.lockHeld ∧ t.prg.polls = s.prg.polls + k) ∧
    (∀ m, s.env.inputs = [] → s.params.pollMax = some m →
      ∃ k t, Host.Core.run Sys2Proof.core k s = .next t ∧ t.prg.stage = .idle ∧ t.prg.lockHeld = false ∧
        t.prg.result = .timeout s.prg.stage s.prg.addr)

/-- R226, R240, R242, R245, R287: the progress markers: one for every hundredth busy poll of the erase, one for every 100000th byte
of the download, and none elsewhere. RdPoll puts out nothing, or one diagnostic when it has compared a byte; every other stage,
an access that fails and a step without the handle put out nothing. -/
def Obligations.ProgressMarkers : Prop :=
  ∀ (s t : State) (fail : Bool) (rest : List Event), s.env.inputs = .prg fail :: rest → step s = .next t →
    (fail = false → s.env.devReady = true →
      (s.prg.stage = .erasePoll → t.prg.emitted = s.prg.emitted ++
        (if s.dev.pending ≠ .none ∧ (s.prg.polls + 1) % 100 = 0 then [.progressErase] else [])) ∧
      (s.prg.stage = .wrPoll → t.prg.emitted = s.prg.emitted ++
        (if s.dev.pending = .none ∧ (s.prg.addr + 1) % 100000 = 0 then [.progressDownload] else [])) ∧
      (s.prg.stage = .rdPoll → t.prg.emitted = s.prg.emitted ∨
        (s.dev.pending = .none ∧ ∃ a x y, t.prg.emitted = s.prg.emitted ++ [.diagnostic a x y]))) ∧
    (fail = true ∨ s.env.devReady = false ∨
        (s.prg.stage ≠ .erasePoll ∧ s.prg.stage ≠ .wrPoll ∧ s.prg.stage ≠ .rdPoll) →
      t.prg.emitted = s.prg.emitted)

/-- R246, R247: a byte of the verification compared: the first mismatch is latched and emitted once, a later one only keeps the
flag set; the scan goes on to the next address in either case and is decided after the last (R245, R250). That only the first
mismatch is recorded is a decision of the spec's own (D24 in R246; log entry 6). -/
def Obligations.VerificationComparesEveryByte : Prop :=
  ∀ (s : State) (rest : List Event) (b : Byte), s.env.inputs = .prg false :: rest → s.prg.stage = .rdPoll →
    s.env.devReady = true → s.dev.pending = .none → s.prg.img[s.prg.addr]? = some b →
    ∃ t, step s = .next t ∧ t.prg.addr = s.prg.addr + 1 ∧ t.prg.polls = s.prg.polls + 1 ∧ t.dev = s.dev ∧
      t.prg.verifyErr = (s.prg.verifyErr || s.dev.rdata != b) ∧
      (s.prg.verifyErr = false → s.dev.rdata ≠ b →
        t.prg.mm = ⟨true, BitVec.ofNat 24 s.prg.addr, b, s.dev.rdata⟩ ∧
        t.prg.emitted = s.prg.emitted ++ [.diagnostic (BitVec.ofNat 24 s.prg.addr) b s.dev.rdata]) ∧
      (s.prg.verifyErr = true ∨ s.dev.rdata = b → t.prg.mm = s.prg.mm ∧ t.prg.emitted = s.prg.emitted) ∧
      (s.prg.addr + 1 < s.prg.imgSize → t.prg.stage = .rdByte) ∧
      (s.prg.imgSize ≤ s.prg.addr + 1 → t.prg.stage = .finish ∧
        t.prg.ending = if t.prg.verifyErr then .verificationFailed else .ok)

/-- R251: ERASEALL, DOWNLOAD and VERIFY commanded on their own: with the preconditions and the lock free PRG takes the lock and
enters at EraseCmd, WrMode or RdMode; with the lock held by another the command waits, in a list of the model's (log entry 2).
The erase and the download end with Ok after their own part. -/
def Obligations.StandAloneOperations : Prop :=
  ∀ (s : State) (c : PrgCmd) (op : PrgOp) (g : Stage) (rest : List Event),
    (c, op, g) ∈ [(PrgCmd.eraseAll, PrgOp.eraseAll, Stage.eraseCmd), (.download, .download, .wrMode),
      (.verify, .verify, .rdMode)] →
    (s.prg.stage = .idle → s.env.inputs = .cmd c :: rest → s.env.devReady = true → s.prg.img ≠ [] →
      s.prg.lockHeld = false →
      (s.env.lockOther = none →
        step s = .next { s with prg := { s.prg with lockHeld := true, op := op, stage := g },
                                env := { s.env with inputs := rest } }) ∧
      (s.env.lockOther ≠ none →
        step s = .next { s with env := { s.env with inputs := rest, blocked := s.env.blocked ++ [.cmd c] } })) ∧
    (s.env.inputs = .prg false :: rest → s.prg.op = op → s.env.devReady = true → s.dev.pending = .none →
      (s.prg.stage = .erasePoll ∧ op = .eraseAll) ∨
        (s.prg.stage = .wrPoll ∧ op = .download ∧ s.prg.imgSize ≤ s.prg.addr + 1) →
      ∃ t, step s = .next t ∧ t.prg.stage = .finish ∧ t.prg.ending = .ok ∧ t.dev = s.dev ∧ t.prg.img = s.prg.img ∧
        t.prg.lockHeld = s.prg.lockHeld)

/-- R249, R251, R284: Finish releases the lock on every path, reports the outcome, returns to Idle, discards a SESSION's image and
keeps a stand-alone operation's. That the moves that waited for the lock come next is the model's choice (log entry 2). -/
def Obligations.FinishReleasesLock : Prop :=
  ∀ (s : State) (fail : Bool) (rest : List Event), s.env.inputs = .prg fail :: rest → s.prg.stage = .finish →
    ∃ t, step s = .next t ∧ t.prg.lockHeld = false ∧ t.prg.stage = .idle ∧ t.prg.result = s.prg.ending ∧
      (s.prg.op = .session → t.prg.imgSize = 0) ∧ (s.prg.op ≠ .session → t.prg.img = s.prg.img) ∧
      t.env.inputs = s.env.blocked ++ rest ∧ t.env.blocked = [] ∧ t.dev = s.dev ∧ t.dec = s.dec

/-- R72, R290: while PRG holds the lock, every other agent that needs the register block waits: its move is kept and nothing
else happens; while a HOST thread holds it, so do the accesses of every other thread, SRC and an acquisition (PRG's own wait is in
ConfirmationGate and StandAloneOperations, the holder's own accesses are in StepRunsHostAccess). A free lock is taken by the thread
that asks, and released by its holder only. The list the moves are kept in, that they come next when the lock is released, that an
acquisition by the holder itself waits, and that a release without the lock does nothing are the model's choice (log entries 2, 26,
19). -/
def Obligations.LockHoldsOthersBack : Prop :=
  ∀ (s : State) (rest : List Event) (who : Nat),
    (∀ e, s.prg.lockHeld = true → s.env.inputs = e :: rest →
      (∃ off width v, e = .hostWrite who off width v) ∨ (∃ off width, e = .hostRead who off width) ∨
        (∃ m z f, e = .srcPio m z f) ∨ (∃ n d f, e = .srcDma n d f) ∨ e = .otherAcquire who →
      step s = .next { s with env := { s.env with inputs := rest, blocked := s.env.blocked ++ [e] } }) ∧
    (∀ e holder, s.env.lockOther = some holder → s.env.inputs = e :: rest →
      (who ≠ holder ∧ ∃ off width v, e = .hostWrite who off width v) ∨
        (who ≠ holder ∧ ∃ off width, e = .hostRead who off width) ∨
        (∃ m z f, e = .srcPio m z f) ∨ (∃ n d f, e = .srcDma n d f) ∨ e = .otherAcquire who →
      step s = .next { s with env := { s.env with inputs := rest, blocked := s.env.blocked ++ [e] } }) ∧
    (s.env.inputs = .otherAcquire who :: rest → s.prg.lockHeld = false → s.env.lockOther = none →
      step s = .next { s with env := { s.env with inputs := rest, lockOther := some who } }) ∧
    (s.env.inputs = .otherRelease who :: rest →
      (s.env.lockOther = some who →
        step s = .next { s with env := { s.env with inputs := s.env.blocked ++ rest, blocked := [], lockOther := none } }) ∧
      (s.env.lockOther ≠ some who → step s = .next { s with env := { s.env with inputs := rest } }))

/-! ### SRC -/

/-- R261, R262, R265, R268: what a programmed-I/O delivery from a FIFO that holds `maxWords` words, or a trailer behind its lead
word, looks like: a prefix of the FIFO, in order, that starts with a block header, has no trailer before its last word, and ends
with a trailer or fills the buffer. A lead word that is no header delivers nothing. A FIFO read that fails before the delivery
is complete, so with no trailer among the body words read before it, delivers nothing and is reported as `ReadError`. The
trailer's code (D1) and that the lead word counts against `maxWords` (D40) are decisions of the spec's (log entry 6). That the
delivered words are the very next moves, that the polling read of the lead word is one FIFO read, that it is made with
`maxWords` 0 too, and what a failing read leaves in the FIFO is the model's choice (log entries 21, 22), and so is that SRC does
not look at `devReady` (log entry 28). -/
def Obligations.ProgrammedDelivery : Prop :=
  ∀ (s : State) (maxWords : Nat) (zeroEvents : Bool) (fail : Option Nat) (rest : List Event),
    s.prg.lockHeld = false → s.env.lockOther = none →
    s.env.inputs = .srcPio maxWords zeroEvents fail :: rest →
    (maxWords ≤ s.env.fifo.length ∨ ∃ (i : Nat) (w : Word), 1 ≤ i ∧ s.env.fifo[i]? = some w ∧ w &&& 0xF8000000 = 0x88000000) →
    ∀ lead body, s.env.fifo = lead :: body →
    ∃ t, step s = .next t ∧ t.dec = s.dec ∧ t.prg = s.prg ∧ t.dev = s.dev ∧
      let delivered := fun k : Nat => 1 ≤ k ∧ k ≤ max maxWords 1 ∧
        t.env.inputs = (s.env.fifo.take k).map Event.word ++ rest ∧
        t.env.fifo = s.env.fifo.drop k ∧ t.env.srcResult = .words k ∧
        (∀ j, 0 < j → j + 1 < k → ∀ w, s.env.fifo[j]? = some w → w &&& 0xF8000000 ≠ 0x88000000) ∧
        (k = max maxWords 1 ∨ ∃ w, s.env.fifo[k - 1]? = some w ∧ w &&& 0xF8000000 = 0x88000000)
      let failed := fun j : Nat => t.env.inputs = rest ∧ t.env.fifo = s.env.fifo.drop j ∧ t.env.srcResult = .readError
      (lead &&& 0xF8000000 = 0x80000000 → fail = none → ∃ k, delivered k) ∧
      (lead &&& 0xF8000000 ≠ 0x80000000 → fail ≠ some 0 →
        t.env.inputs = rest ∧ t.env.srcResult = if zeroEvents then .words 0 else .invalidHeader) ∧
      (fail = some 0 → failed 0) ∧
      (∀ j, lead &&& 0xF8000000 = 0x80000000 → fail = some (j + 1) →
        (∃ k, k ≤ j + 1 ∧ delivered k) ∨
        (j + 1 < max maxWords 1 ∧ failed (j + 1) ∧
          ∀ i, 1 ≤ i → i ≤ j → ∀ w, s.env.fifo[i]? = some w → w &&& 0xF8000000 ≠ 0x88000000))

/-- R260, R265, R266: a DMA delivery from a FIFO that holds enough words: the first n words in order, behind the dummy word when
the destination needs it, which the count includes; no header or trailer is looked at. A failing engine delivers nothing;
that it leaves the FIFO as it was, and what a transfer of no words (n = 0) reports, is the model's choice (log entry 22). That the
delivered words are the very next moves and that SRC does not look at `devReady` is the model's choice too (log entries 21, 28). -/
def Obligations.DmaDelivery : Prop :=
  ∀ (s : State) (n : Nat) (filler fail : Bool) (rest : List Event), s.prg.lockHeld = false → s.env.lockOther = none →
    s.env.inputs = .srcDma n filler fail :: rest → n ≤ s.env.fifo.length →
    (fail = true → step s = .next { s with env := { s.env with inputs := rest, srcResult := .dmaError } }) ∧
    (fail = false → filler = false →
      step s = .next { s with env := { s.env with
        inputs := (s.env.fifo.take n).map Event.word ++ rest, fifo := s.env.fifo.drop n, srcResult := .words n } }) ∧
    (fail = false → filler = true →
      step s = .next { s with env := { s.env with
        inputs := .word s.params.dmaFillerWord :: ((s.env.fifo.take n).map Event.word ++ rest),
        fifo := s.env.fifo.drop n, srcResult := .words (n + 1) } })

/-! ### Invariants -/

/-- The invariant holds right after reset (R50, R132). -/
def Obligations.ResetMeetsInvariant : Prop := StateInv State.reset

/-- The invariant is kept by every step from every state: `remaining <= decCount` (R132), the image and the address inside
the capacity (R33, R34), the lock held exactly by an operation in progress and by one agent only (R38, R72), no waiting move
without a holder and no waiting answer beyond its prompt (log entries 2, 29), the byte stages inside the image, the diagnostic
with its flag (R37), the mode and the pending operation those of the stage (R250), the EEPROM listing canonical. -/
def Obligations.StepKeepsInvariant : Prop :=
  ∀ s t : State, StateInv s → Sys2Proof.Machine.step s = .next t → StateInv t

/-- R110, R230, R280: PRG as specified never meets a fault or a refusal of DEV, under launch premise P1 (R310) for the command an
operation begins with. R311: with a finite `POLL_MAX` and the handle there, an operation left to itself, with no move listed and
so no completion of DEV's (log entry 1), ends: after some steps PRG is in Idle without the lock. -/
def Obligations.ProgrammerNeverStops : Prop :=
  ∀ s : State, StateInv s →
    (s.prg.stage = .eraseCmd ∨ (s.prg.op ≠ .session ∧ (s.prg.stage = .wrMode ∨ s.prg.stage = .rdMode)) →
      s.dev.pending = .none) →
    (∀ (fail : Bool) (rest : List Event), s.env.inputs = .prg fail :: rest → ∃ t, step s = .next t) ∧
    (∀ m, s.env.inputs = [] → s.env.devReady = true → lockingStage s.prg.stage = true → s.params.pollMax = some m →
      ∃ k t, Host.Core.run Sys2Proof.core k s = .next t ∧ t.prg.stage = .idle ∧ t.prg.lockHeld = false)

/-- R249, R310: under the launch premises, the step that accepts the confirmation enters stage EraseCmd of a SESSION that programs
the loaded image, and the premises hold there. -/
def Obligations.SessionBegins : Prop :=
  ∀ (s : State) (rest : List Event), StateInv s → s.prg.stage = .confirm → s.env.inputs = .confirm true :: rest →
    s.env.lockOther = none → LaunchPremises s →
    ∃ t, step s = .next t ∧ t.prg.stage = .eraseCmd ∧ LaunchPremises t ∧ SessionInv s.prg.img t

/-- R241, R244, R249, R253, under the premises of R310, P2 among them: the handle is there and stays (without it
FailedAccessEndsOperation says what happens). Whatever moves all agents make in whatever order, a SESSION goes on towards
programming its image until it ends in Idle; it then has released the lock and discarded the image, it ends with `Ok`,
`DeviceError` or `Timeout` and never with `VerificationFailed`, and if it ends with `Ok` every byte of the EEPROM below the image's
size is the image's, every byte above it is `ERASED_BYTE`, the mode is Read and nothing is pending. -/
def Obligations.SessionProgramsTheImage : Prop :=
  ∀ (img : List Byte) (s t : State), SessionInv img s → Sys2Proof.Machine.step s = .next t → t.env.devReady = true →
    SessionInv img t ∨
    (t.prg.stage = .idle ∧ t.prg.lockHeld = false ∧ t.prg.imgSize = 0 ∧ t.prg.result = s.prg.ending ∧
      (t.prg.result = .ok ∨ t.prg.result = .deviceError ∨ ∃ g a, t.prg.result = .timeout g a) ∧
      (t.prg.result = .ok → fullyProgrammed t img ∧ t.dev.mode = .read ∧ t.dev.pending = .none))
end

