-- ==== Sys2Proof/Laws/Memory.lean ====
section
/-! SUPPORT. The laws of the EEPROM array: a read after a store, the marks, and the canonical form that every operation keeps. -/

namespace Sys2Proof.Machine

/-! ### Rising lists -/

theorem risingFrom_mono {lo lo' : Nat} {ks : List Nat} (h : risingFrom lo ks = true) (hle : lo' ≤ lo) :
    risingFrom lo' ks = true := by
  cases ks with
  | nil => rfl
  | cons k rest =>
    simp only [risingFrom, Bool.and_eq_true, decide_eq_true_eq] at h ⊢
    exact ⟨by omega, h.2⟩

theorem risingFrom_le_of_mem {lo k : Nat} {ks : List Nat} (h : risingFrom lo ks = true) (hk : k ∈ ks) : lo ≤ k := by
  induction ks generalizing lo with
  | nil => simp at hk
  | cons j rest ih =>
    simp only [risingFrom, Bool.and_eq_true, decide_eq_true_eq] at h
    rcases List.mem_cons.1 hk with rfl | hk
    · exact h.1
    · have := ih h.2 hk
      omega

theorem risingFrom_insertAddr {lo a : Nat} {ks : List Nat} (h : risingFrom lo ks = true) (ha : lo ≤ a) :
    risingFrom lo (insertAddr a ks) = true := by
  induction ks generalizing lo with
  | nil => simpa [insertAddr, risingFrom] using ha
  | cons k rest ih =>
    simp only [risingFrom, Bool.and_eq_true, decide_eq_true_eq] at h
    unfold insertAddr
    split
    · next hlt => simp [risingFrom, ha, h.2, Nat.succ_le_of_lt hlt]
    · split
      · simp [risingFrom, h]
      · simp only [risingFrom, Bool.and_eq_true, decide_eq_true_eq]
        exact ⟨h.1, ih h.2 (by omega)⟩

@[simp] theorem mem_insertAddr {a x : Nat} {ks : List Nat} : x ∈ insertAddr a ks ↔ x = a ∨ x ∈ ks := by
  induction ks with
  | nil => simp [insertAddr]
  | cons k rest ih => grind [insertAddr]

/-! ### The listing -/

theorem keys_insertCell (a : Nat) (v : Byte) (cs : List Host.Cell) :
    (insertCell a v cs).map Prod.fst = insertAddr a (cs.map Prod.fst) := by
  induction cs with
  | nil => rfl
  | cons c rest ih => grind [insertCell, insertAddr]

theorem risingFrom_removeCell {lo a : Nat} {cs : List Host.Cell} (h : risingFrom lo (cs.map Prod.fst) = true) :
    risingFrom lo ((removeCell a cs).map Prod.fst) = true := by
  induction cs generalizing lo with
  | nil => rfl
  | cons c rest ih =>
    obtain ⟨k, b⟩ := c
    simp only [List.map_cons, risingFrom, Bool.and_eq_true, decide_eq_true_eq] at h
    unfold removeCell
    split
    · exact risingFrom_mono h.2 (by omega)
    · simp only [List.map_cons, risingFrom, Bool.and_eq_true, decide_eq_true_eq]
      exact ⟨h.1, ih h.2⟩

theorem mem_of_mem_removeCell {a : Nat} {c : Host.Cell} {cs : List Host.Cell} (h : c ∈ removeCell a cs) : c ∈ cs := by
  induction cs with
  | nil => exact h
  | cons d rest ih => grind [removeCell]

theorem mem_insertCell {a : Nat} {v : Byte} {c : Host.Cell} {cs : List Host.Cell} (h : c ∈ insertCell a v cs) :
    c = (a, v) ∨ c ∈ cs := by
  induction cs with
  | nil => simpa [insertCell] using h
  | cons d rest ih => grind [insertCell]

theorem lookupCell_eq_none {a : Nat} {cs : List Host.Cell} (h : a ∉ cs.map Prod.fst) : lookupCell a cs = none := by
  induction cs with
  | nil => rfl
  | cons d rest ih => grind [lookupCell]

@[simp] theorem lookupCell_insertCell_self (a : Nat) (v : Byte) (cs : List Host.Cell) :
    lookupCell a (insertCell a v cs) = some v := by
  induction cs with
  | nil => simp [insertCell, lookupCell]
  | cons d rest ih => grind [insertCell, lookupCell]

theorem lookupCell_insertCell_of_ne {a x : Nat} (v : Byte) (cs : List Host.Cell) (hx : x ≠ a) :
    lookupCell x (insertCell a v cs) = lookupCell x cs := by
  induction cs with
  | nil => grind [insertCell, lookupCell]
  | cons d rest ih => grind [insertCell, lookupCell]

theorem lookupCell_removeCell_of_ne {a x : Nat} (cs : List Host.Cell) (hx : x ≠ a) :
    lookupCell x (removeCell a cs) = lookupCell x cs := by
  induction cs with
  | nil => rfl
  | cons d rest ih => grind [removeCell, lookupCell]

theorem lookupCell_removeCell_self {lo a : Nat} {cs : List Host.Cell} (h : risingFrom lo (cs.map Prod.fst) = true) :
    lookupCell a (removeCell a cs) = none := by
  induction cs generalizing lo with
  | nil => rfl
  | cons d rest ih =>
    obtain ⟨k, b⟩ := d
    simp only [List.map_cons, risingFrom, Bool.and_eq_true, decide_eq_true_eq] at h
    unfold removeCell
    split
    · next hk =>
      refine lookupCell_eq_none fun hmem => ?_
      have := risingFrom_le_of_mem h.2 hmem
      omega
    · next hk => simpa [lookupCell, hk] using ih h.2

/-! ### The array -/

variable (p : Config.Params) (m : Memory)

@[simp] theorem background_store (a : Nat) (v : Byte) (x : Nat) : (m.store p a v).background p x = m.background p x := rfl

@[simp] theorem read_eraseAll (x : Nat) : Memory.eraseAll.read p x = p.erasedByte := rfl

@[simp] theorem erased_eraseAll (x : Nat) : Memory.eraseAll.erased x = true := rfl

/-- A store marks its address as written and no other (R221). -/
@[simp] theorem erased_store (a : Nat) (v : Byte) (x : Nat) :
    (m.store p a v).erased x = (m.erased x && x != a) := by
  by_cases hx : x = a <;> simp [Memory.erased, Memory.store, hx]

/-- A store leaves every other address alone. -/
theorem read_store_of_ne {a x : Nat} (v : Byte) (hx : x ≠ a) : (m.store p a v).read p x = m.read p x := by
  unfold Memory.read
  rw [background_store]
  congr 1
  unfold Memory.store
  split
  · exact lookupCell_removeCell_of_ne _ hx
  · exact lookupCell_insertCell_of_ne _ _ hx

/-- A read after a store to the same address gives the value stored (R75). -/
theorem read_store_self (h : m.wf p = true) (a : Nat) (v : Byte) : (m.store p a v).read p a = v := by
  simp only [Memory.wf, Bool.and_eq_true] at h
  unfold Memory.read
  rw [background_store]
  unfold Memory.store
  split
  · next hv => simp [lookupCell_removeCell_self h.1.1, hv]
  · simp

/-! ### The canonical form -/

@[simp] theorem wf_eraseAll : Memory.eraseAll.wf p = true := rfl

@[simp] theorem wf_reset : Memory.reset.wf p = true := rfl

/-- Every store keeps the canonical form. -/
theorem wf_store (h : m.wf p = true) (a : Nat) (v : Byte) : (m.store p a v).wf p = true := by
  simp only [Memory.wf, Bool.and_eq_true, List.all_eq_true, bne_iff_ne, ne_eq, background_store] at h ⊢
  obtain ⟨⟨hk, hb⟩, hw⟩ := h
  refine ⟨⟨?_, ?_⟩, risingFrom_insertAddr hw (by omega)⟩
  · simp only [Memory.store]
    split
    · exact risingFrom_removeCell hk
    · rw [keys_insertCell]
      exact risingFrom_insertAddr hk (by omega)
  · intro c hc
    simp only [Memory.store] at hc
    split at hc
    · exact hb c (mem_of_mem_removeCell hc)
    · next hv =>
      rcases mem_insertCell hc with rfl | hc
      · exact hv
      · exact hb c hc

end Sys2Proof.Machine
end

