-- ==== Sys2Proof/Laws/State.lean ====
section
/-! SUPPORT. One lemma per field per update of the state, true by rfl: later proofs unfold no record update. -/

namespace Sys2Proof.Machine

variable (s : State)

@[simp] theorem emit_params (dw : DataWord) : (emit dw s).params = s.params := rfl
@[simp] theorem emit_dec_lastType (dw : DataWord) : (emit dw s).dec.lastType = s.dec.lastType := rfl
@[simp] theorem emit_dec_isContinuation (dw : DataWord) : (emit dw s).dec.isContinuation = s.dec.isContinuation := rfl
@[simp] theorem emit_dec_remaining (dw : DataWord) : (emit dw s).dec.remaining = s.dec.remaining := rfl
@[simp] theorem emit_dec_decCount (dw : DataWord) : (emit dw s).dec.decCount = s.dec.decCount := rfl
@[simp] theorem emit_dec_decBuf (dw : DataWord) : (emit dw s).dec.decBuf = s.dec.decBuf := rfl
@[simp] theorem emit_dec_protoErr (dw : DataWord) : (emit dw s).dec.protoErr = s.dec.protoErr := rfl
@[simp] theorem emit_dec_out (dw : DataWord) : (emit dw s).dec.out = s.dec.out ++ [dw] := rfl
@[simp] theorem emit_prg (dw : DataWord) : (emit dw s).prg = s.prg := rfl
@[simp] theorem emit_dev (dw : DataWord) : (emit dw s).dev = s.dev := rfl
@[simp] theorem emit_env (dw : DataWord) : (emit dw s).env = s.env := rfl
@[simp] theorem emit_draws (dw : DataWord) : (emit dw s).draws = s.draws := rfl

@[simp] theorem typed_params (code : Code) (w : Word) (f : Fields) : (typed code w f s).params = s.params := rfl
@[simp] theorem typed_dec_lastType (code : Code) (w : Word) (f : Fields) : (typed code w f s).dec.lastType = code := rfl
@[simp] theorem typed_dec_isContinuation (code : Code) (w : Word) (f : Fields) : (typed code w f s).dec.isContinuation = false := rfl
@[simp] theorem typed_dec_remaining (code : Code) (w : Word) (f : Fields) : (typed code w f s).dec.remaining = s.dec.remaining := rfl
@[simp] theorem typed_dec_decCount (code : Code) (w : Word) (f : Fields) : (typed code w f s).dec.decCount = s.dec.decCount := rfl
@[simp] theorem typed_dec_decBuf (code : Code) (w : Word) (f : Fields) : (typed code w f s).dec.decBuf = s.dec.decBuf := rfl
@[simp] theorem typed_dec_protoErr (code : Code) (w : Word) (f : Fields) : (typed code w f s).dec.protoErr = s.dec.protoErr := rfl
@[simp] theorem typed_dec_out (code : Code) (w : Word) (f : Fields) : (typed code w f s).dec.out = s.dec.out ++ [{ raw := w, code := code, new := true, tag := tagOf code, idx := none, fields := f, err := .none }] := rfl
@[simp] theorem typed_prg (code : Code) (w : Word) (f : Fields) : (typed code w f s).prg = s.prg := rfl
@[simp] theorem typed_dev (code : Code) (w : Word) (f : Fields) : (typed code w f s).dev = s.dev := rfl
@[simp] theorem typed_env (code : Code) (w : Word) (f : Fields) : (typed code w f s).env = s.env := rfl
@[simp] theorem typed_draws (code : Code) (w : Word) (f : Fields) : (typed code w f s).draws = s.draws := rfl

@[simp] theorem continued_params (code : Code) (w : Word) (f : Fields) (e : DecErr) : (continued code w f e s).params = s.params := rfl
@[simp] theorem continued_dec_lastType (code : Code) (w : Word) (f : Fields) (e : DecErr) : (continued code w f e s).dec.lastType = s.dec.lastType := rfl
@[simp] theorem continued_dec_isContinuation (code : Code) (w : Word) (f : Fields) (e : DecErr) : (continued code w f e s).dec.isContinuation = true := rfl
@[simp] theorem continued_dec_remaining (code : Code) (w : Word) (f : Fields) (e : DecErr) : (continued code w f e s).dec.remaining = s.dec.remaining := rfl
@[simp] theorem continued_dec_decCount (code : Code) (w : Word) (f : Fields) (e : DecErr) : (continued code w f e s).dec.decCount = s.dec.decCount := rfl
@[simp] theorem continued_dec_decBuf (code : Code) (w : Word) (f : Fields) (e : DecErr) : (continued code w f e s).dec.decBuf = s.dec.decBuf := rfl
@[simp] theorem continued_dec_protoErr (code : Code) (w : Word) (f : Fields) (e : DecErr) : (continued code w f e s).dec.protoErr = protoErrAfter s.dec.protoErr e := rfl
@[simp] theorem continued_dec_out (code : Code) (w : Word) (f : Fields) (e : DecErr) : (continued code w f e s).dec.out = s.dec.out ++ [{ raw := w, code := code, new := false, tag := tagOf code, idx := none, fields := f, err := e }] := rfl
@[simp] theorem continued_prg (code : Code) (w : Word) (f : Fields) (e : DecErr) : (continued code w f e s).prg = s.prg := rfl
@[simp] theorem continued_dev (code : Code) (w : Word) (f : Fields) (e : DecErr) : (continued code w f e s).dev = s.dev := rfl
@[simp] theorem continued_env (code : Code) (w : Word) (f : Fields) (e : DecErr) : (continued code w f e s).env = s.env := rfl
@[simp] theorem continued_draws (code : Code) (w : Word) (f : Fields) (e : DecErr) : (continued code w f e s).draws = s.draws := rfl

@[simp] theorem loadCount_params (n : Count) : (loadCount n s).params = s.params := rfl
@[simp] theorem loadCount_dec_lastType (n : Count) : (loadCount n s).dec.lastType = s.dec.lastType := rfl
@[simp] theorem loadCount_dec_isContinuation (n : Count) : (loadCount n s).dec.isContinuation = s.dec.isContinuation := rfl
@[simp] theorem loadCount_dec_remaining (n : Count) : (loadCount n s).dec.remaining = n := rfl
@[simp] theorem loadCount_dec_decCount (n : Count) : (loadCount n s).dec.decCount = n := rfl
@[simp] theorem loadCount_dec_decBuf (n : Count) : (loadCount n s).dec.decBuf = s.dec.decBuf := rfl
@[simp] theorem loadCount_dec_protoErr (n : Count) : (loadCount n s).dec.protoErr = s.dec.protoErr := rfl
@[simp] theorem loadCount_dec_out (n : Count) : (loadCount n s).dec.out = s.dec.out := rfl
@[simp] theorem loadCount_prg (n : Count) : (loadCount n s).prg = s.prg := rfl
@[simp] theorem loadCount_dev (n : Count) : (loadCount n s).dev = s.dev := rfl
@[simp] theorem loadCount_env (n : Count) : (loadCount n s).env = s.env := rfl
@[simp] theorem loadCount_draws (n : Count) : (loadCount n s).draws = s.draws := rfl

@[simp] theorem capture_params (w : Word) : (capture w s).params = s.params := rfl
@[simp] theorem capture_dec_lastType (w : Word) : (capture w s).dec.lastType = s.dec.lastType := rfl
@[simp] theorem capture_dec_isContinuation (w : Word) : (capture w s).dec.isContinuation = s.dec.isContinuation := rfl
@[simp] theorem capture_dec_remaining (w : Word) : (capture w s).dec.remaining = s.dec.remaining - 1 := rfl
@[simp] theorem capture_dec_decCount (w : Word) : (capture w s).dec.decCount = s.dec.decCount := rfl
@[simp] theorem capture_dec_decBuf (w : Word) : (capture w s).dec.decBuf = s.dec.decBuf.setIfInBounds (s.dec.decCount - s.dec.remaining).toNat w := rfl
@[simp] theorem capture_dec_protoErr (w : Word) : (capture w s).dec.protoErr = s.dec.protoErr := rfl
@[simp] theorem capture_dec_out (w : Word) : (capture w s).dec.out = s.dec.out ++ [{ raw := w, code := codeDecHdr, new := false, tag := .decoderData, idx := some (s.dec.decCount - s.dec.remaining), fields := .none, err := .none }] := rfl
@[simp] theorem capture_prg (w : Word) : (capture w s).prg = s.prg := rfl
@[simp] theorem capture_dev (w : Word) : (capture w s).dev = s.dev := rfl
@[simp] theorem capture_env (w : Word) : (capture w s).env = s.env := rfl
@[simp] theorem capture_draws (w : Word) : (capture w s).draws = s.draws := rfl

@[simp] theorem decRst_params : (decRst s).params = s.params := rfl
@[simp] theorem decRst_dec : (decRst s).dec = Dec.reset := rfl
@[simp] theorem decRst_prg : (decRst s).prg = s.prg := rfl
@[simp] theorem decRst_dev : (decRst s).dev = s.dev := rfl
@[simp] theorem decRst_env : (decRst s).env = s.env := rfl
@[simp] theorem decRst_draws : (decRst s).draws = s.draws := rfl

@[simp] theorem decSave_params : (decSave s).params = s.params := rfl
@[simp] theorem decSave_dec : (decSave s).dec = s.dec := rfl
@[simp] theorem decSave_prg : (decSave s).prg = s.prg := rfl
@[simp] theorem decSave_dev : (decSave s).dev = s.dev := rfl
@[simp] theorem decSave_env_devReady : (decSave s).env.devReady = s.env.devReady := rfl
@[simp] theorem decSave_env_lockOther : (decSave s).env.lockOther = s.env.lockOther := rfl
@[simp] theorem decSave_env_inputs : (decSave s).env.inputs = s.env.inputs := rfl
@[simp] theorem decSave_env_blocked : (decSave s).env.blocked = s.env.blocked := rfl
@[simp] theorem decSave_env_fifo : (decSave s).env.fifo = s.env.fifo := rfl
@[simp] theorem decSave_env_srcResult : (decSave s).env.srcResult = s.env.srcResult := rfl
@[simp] theorem decSave_env_busData : (decSave s).env.busData = s.env.busData := rfl
@[simp] theorem decSave_env_bufData : (decSave s).env.bufData = s.env.bufData := rfl
@[simp] theorem decSave_env_saved : (decSave s).env.saved = s.env.saved ++ [savedRecord s.dec] := rfl
@[simp] theorem decSave_draws : (decSave s).draws = s.draws := rfl

@[simp] theorem drawn_params : (drawn s).params = s.params := rfl
@[simp] theorem drawn_dec : (drawn s).dec = s.dec := rfl
@[simp] theorem drawn_prg : (drawn s).prg = s.prg := rfl
@[simp] theorem drawn_dev : (drawn s).dev = s.dev := rfl
@[simp] theorem drawn_env : (drawn s).env = s.env := rfl
@[simp] theorem drawn_draws : (drawn s).draws = s.draws + 1 := rfl

@[simp] theorem setMode_params (m : Mode) : (setMode m s).params = s.params := rfl
@[simp] theorem setMode_dec (m : Mode) : (setMode m s).dec = s.dec := rfl
@[simp] theorem setMode_prg (m : Mode) : (setMode m s).prg = s.prg := rfl
@[simp] theorem setMode_dev_mode (m : Mode) : (setMode m s).dev.mode = m := rfl
@[simp] theorem setMode_dev_pending (m : Mode) : (setMode m s).dev.pending = s.dev.pending := rfl
@[simp] theorem setMode_dev_mem (m : Mode) : (setMode m s).dev.mem = s.dev.mem := rfl
@[simp] theorem setMode_dev_rdata (m : Mode) : (setMode m s).dev.rdata = s.dev.rdata := rfl
@[simp] theorem setMode_env (m : Mode) : (setMode m s).env = s.env := rfl
@[simp] theorem setMode_draws (m : Mode) : (setMode m s).draws = s.draws := rfl

@[simp] theorem startOp_params (p : Pending) : (startOp p s).params = s.params := rfl
@[simp] theorem startOp_dec (p : Pending) : (startOp p s).dec = s.dec := rfl
@[simp] theorem startOp_prg (p : Pending) : (startOp p s).prg = s.prg := rfl
@[simp] theorem startOp_dev_mode (p : Pending) : (startOp p s).dev.mode = s.dev.mode := rfl
@[simp] theorem startOp_dev_pending (p : Pending) : (startOp p s).dev.pending = p := rfl
@[simp] theorem startOp_dev_mem (p : Pending) : (startOp p s).dev.mem = s.dev.mem := rfl
@[simp] theorem startOp_dev_rdata (p : Pending) : (startOp p s).dev.rdata = s.dev.rdata := rfl
@[simp] theorem startOp_env (p : Pending) : (startOp p s).env = s.env := rfl
@[simp] theorem startOp_draws (p : Pending) : (startOp p s).draws = s.draws := rfl

@[simp] theorem readCsr_params : (readCsr s).params = s.params := rfl
@[simp] theorem readCsr_dec : (readCsr s).dec = s.dec := rfl
@[simp] theorem readCsr_prg : (readCsr s).prg = s.prg := rfl
@[simp] theorem readCsr_dev : (readCsr s).dev = s.dev := rfl
@[simp] theorem readCsr_env_devReady : (readCsr s).env.devReady = s.env.devReady := rfl
@[simp] theorem readCsr_env_lockOther : (readCsr s).env.lockOther = s.env.lockOther := rfl
@[simp] theorem readCsr_env_inputs : (readCsr s).env.inputs = s.env.inputs := rfl
@[simp] theorem readCsr_env_blocked : (readCsr s).env.blocked = s.env.blocked := rfl
@[simp] theorem readCsr_env_fifo : (readCsr s).env.fifo = s.env.fifo := rfl
@[simp] theorem readCsr_env_srcResult : (readCsr s).env.srcResult = s.env.srcResult := rfl
@[simp] theorem readCsr_env_busData : (readCsr s).env.busData = csrValue s := rfl
@[simp] theorem readCsr_env_bufData : (readCsr s).env.bufData = s.env.bufData := rfl
@[simp] theorem readCsr_env_saved : (readCsr s).env.saved = s.env.saved := rfl
@[simp] theorem readCsr_draws : (readCsr s).draws = s.draws + 1 := rfl

@[simp] theorem readData_params : (readData s).params = s.params := rfl
@[simp] theorem readData_dec : (readData s).dec = s.dec := rfl
@[simp] theorem readData_prg : (readData s).prg = s.prg := rfl
@[simp] theorem readData_dev : (readData s).dev = s.dev := rfl
@[simp] theorem readData_env_devReady : (readData s).env.devReady = s.env.devReady := rfl
@[simp] theorem readData_env_lockOther : (readData s).env.lockOther = s.env.lockOther := rfl
@[simp] theorem readData_env_inputs : (readData s).env.inputs = s.env.inputs := rfl
@[simp] theorem readData_env_blocked : (readData s).env.blocked = s.env.blocked := rfl
@[simp] theorem readData_env_fifo : (readData s).env.fifo = s.env.fifo := rfl
@[simp] theorem readData_env_srcResult : (readData s).env.srcResult = s.env.srcResult := rfl
@[simp] theorem readData_env_busData : (readData s).env.busData = nextDraw s := rfl
@[simp] theorem readData_env_bufData : (readData s).env.bufData = s.env.bufData := rfl
@[simp] theorem readData_env_saved : (readData s).env.saved = s.env.saved := rfl
@[simp] theorem readData_draws : (readData s).draws = s.draws + 1 := rfl

@[simp] theorem endWith_params (r : PrgResult) : (endWith r s).params = s.params := rfl
@[simp] theorem endWith_dec (r : PrgResult) : (endWith r s).dec = s.dec := rfl
@[simp] theorem endWith_prg_img (r : PrgResult) : (endWith r s).prg.img = s.prg.img := rfl
@[simp] theorem endWith_prg_addr (r : PrgResult) : (endWith r s).prg.addr = s.prg.addr := rfl
@[simp] theorem endWith_prg_stage (r : PrgResult) : (endWith r s).prg.stage = .finish := rfl
@[simp] theorem endWith_prg_polls (r : PrgResult) : (endWith r s).prg.polls = s.prg.polls := rfl
@[simp] theorem endWith_prg_verifyErr (r : PrgResult) : (endWith r s).prg.verifyErr = s.prg.verifyErr := rfl
@[simp] theorem endWith_prg_mm (r : PrgResult) : (endWith r s).prg.mm = s.prg.mm := rfl
@[simp] theorem endWith_prg_lockHeld (r : PrgResult) : (endWith r s).prg.lockHeld = s.prg.lockHeld := rfl
@[simp] theorem endWith_prg_result (r : PrgResult) : (endWith r s).prg.result = s.prg.result := rfl
@[simp] theorem endWith_prg_op (r : PrgResult) : (endWith r s).prg.op = s.prg.op := rfl
@[simp] theorem endWith_prg_ending (r : PrgResult) : (endWith r s).prg.ending = r := rfl
@[simp] theorem endWith_prg_emitted (r : PrgResult) : (endWith r s).prg.emitted = s.prg.emitted := rfl
@[simp] theorem endWith_prg_trace (r : PrgResult) : (endWith r s).prg.trace = s.prg.trace := rfl
@[simp] theorem endWith_dev (r : PrgResult) : (endWith r s).dev = s.dev := rfl
@[simp] theorem endWith_env (r : PrgResult) : (endWith r s).env = s.env := rfl
@[simp] theorem endWith_draws (r : PrgResult) : (endWith r s).draws = s.draws := rfl

@[simp] theorem endIdle_params (r : PrgResult) : (endIdle r s).params = s.params := rfl
@[simp] theorem endIdle_dec (r : PrgResult) : (endIdle r s).dec = s.dec := rfl
@[simp] theorem endIdle_prg_img (r : PrgResult) : (endIdle r s).prg.img = s.prg.img := rfl
@[simp] theorem endIdle_prg_addr (r : PrgResult) : (endIdle r s).prg.addr = s.prg.addr := rfl
@[simp] theorem endIdle_prg_stage (r : PrgResult) : (endIdle r s).prg.stage = .idle := rfl
@[simp] theorem endIdle_prg_polls (r : PrgResult) : (endIdle r s).prg.polls = s.prg.polls := rfl
@[simp] theorem endIdle_prg_verifyErr (r : PrgResult) : (endIdle r s).prg.verifyErr = s.prg.verifyErr := rfl
@[simp] theorem endIdle_prg_mm (r : PrgResult) : (endIdle r s).prg.mm = s.prg.mm := rfl
@[simp] theorem endIdle_prg_lockHeld (r : PrgResult) : (endIdle r s).prg.lockHeld = s.prg.lockHeld := rfl
@[simp] theorem endIdle_prg_result (r : PrgResult) : (endIdle r s).prg.result = r := rfl
@[simp] theorem endIdle_prg_op (r : PrgResult) : (endIdle r s).prg.op = .none := rfl
@[simp] theorem endIdle_prg_ending (r : PrgResult) : (endIdle r s).prg.ending = s.prg.ending := rfl
@[simp] theorem endIdle_prg_emitted (r : PrgResult) : (endIdle r s).prg.emitted = s.prg.emitted := rfl
@[simp] theorem endIdle_prg_trace (r : PrgResult) : (endIdle r s).prg.trace = s.prg.trace := rfl
@[simp] theorem endIdle_dev (r : PrgResult) : (endIdle r s).dev = s.dev := rfl
@[simp] theorem endIdle_env (r : PrgResult) : (endIdle r s).env = s.env := rfl
@[simp] theorem endIdle_draws (r : PrgResult) : (endIdle r s).draws = s.draws := rfl

@[simp] theorem dropAnswers_params : (dropAnswers s).params = s.params := rfl
@[simp] theorem dropAnswers_dec : (dropAnswers s).dec = s.dec := rfl
@[simp] theorem dropAnswers_prg : (dropAnswers s).prg = s.prg := rfl
@[simp] theorem dropAnswers_dev : (dropAnswers s).dev = s.dev := rfl
@[simp] theorem dropAnswers_env_devReady : (dropAnswers s).env.devReady = s.env.devReady := rfl
@[simp] theorem dropAnswers_env_lockOther : (dropAnswers s).env.lockOther = s.env.lockOther := rfl
@[simp] theorem dropAnswers_env_inputs : (dropAnswers s).env.inputs = s.env.inputs := rfl
@[simp] theorem dropAnswers_env_blocked : (dropAnswers s).env.blocked = s.env.blocked.filter fun e => !isAnswer e := rfl
@[simp] theorem dropAnswers_env_fifo : (dropAnswers s).env.fifo = s.env.fifo := rfl
@[simp] theorem dropAnswers_env_srcResult : (dropAnswers s).env.srcResult = s.env.srcResult := rfl
@[simp] theorem dropAnswers_env_busData : (dropAnswers s).env.busData = s.env.busData := rfl
@[simp] theorem dropAnswers_env_bufData : (dropAnswers s).env.bufData = s.env.bufData := rfl
@[simp] theorem dropAnswers_env_saved : (dropAnswers s).env.saved = s.env.saved := rfl
@[simp] theorem dropAnswers_draws : (dropAnswers s).draws = s.draws := rfl

@[simp] theorem wake_params : (wake s).params = s.params := rfl
@[simp] theorem wake_dec : (wake s).dec = s.dec := rfl
@[simp] theorem wake_prg : (wake s).prg = s.prg := rfl
@[simp] theorem wake_dev : (wake s).dev = s.dev := rfl
@[simp] theorem wake_env_devReady : (wake s).env.devReady = s.env.devReady := rfl
@[simp] theorem wake_env_lockOther : (wake s).env.lockOther = s.env.lockOther := rfl
@[simp] theorem wake_env_inputs : (wake s).env.inputs = s.env.blocked ++ s.env.inputs := rfl
@[simp] theorem wake_env_blocked : (wake s).env.blocked = [] := rfl
@[simp] theorem wake_env_fifo : (wake s).env.fifo = s.env.fifo := rfl
@[simp] theorem wake_env_srcResult : (wake s).env.srcResult = s.env.srcResult := rfl
@[simp] theorem wake_env_busData : (wake s).env.busData = s.env.busData := rfl
@[simp] theorem wake_env_bufData : (wake s).env.bufData = s.env.bufData := rfl
@[simp] theorem wake_env_saved : (wake s).env.saved = s.env.saved := rfl
@[simp] theorem wake_draws : (wake s).draws = s.draws := rfl

@[simp] theorem block_params (e : Event) : (block e s).params = s.params := rfl
@[simp] theorem block_dec (e : Event) : (block e s).dec = s.dec := rfl
@[simp] theorem block_prg (e : Event) : (block e s).prg = s.prg := rfl
@[simp] theorem block_dev (e : Event) : (block e s).dev = s.dev := rfl
@[simp] theorem block_env_devReady (e : Event) : (block e s).env.devReady = s.env.devReady := rfl
@[simp] theorem block_env_lockOther (e : Event) : (block e s).env.lockOther = s.env.lockOther := rfl
@[simp] theorem block_env_inputs (e : Event) : (block e s).env.inputs = s.env.inputs := rfl
@[simp] theorem block_env_blocked (e : Event) : (block e s).env.blocked = s.env.blocked ++ [e] := rfl
@[simp] theorem block_env_fifo (e : Event) : (block e s).env.fifo = s.env.fifo := rfl
@[simp] theorem block_env_srcResult (e : Event) : (block e s).env.srcResult = s.env.srcResult := rfl
@[simp] theorem block_env_busData (e : Event) : (block e s).env.busData = s.env.busData := rfl
@[simp] theorem block_env_bufData (e : Event) : (block e s).env.bufData = s.env.bufData := rfl
@[simp] theorem block_env_saved (e : Event) : (block e s).env.saved = s.env.saved := rfl
@[simp] theorem block_draws (e : Event) : (block e s).draws = s.draws := rfl

@[simp] theorem finish_params : (finish s).params = s.params := rfl
@[simp] theorem finish_dec : (finish s).dec = s.dec := rfl
@[simp] theorem finish_prg_img : (finish s).prg.img = if s.prg.op = .session then [] else s.prg.img := rfl
@[simp] theorem finish_prg_addr : (finish s).prg.addr = s.prg.addr := rfl
@[simp] theorem finish_prg_stage : (finish s).prg.stage = .idle := rfl
@[simp] theorem finish_prg_polls : (finish s).prg.polls = s.prg.polls := rfl
@[simp] theorem finish_prg_verifyErr : (finish s).prg.verifyErr = s.prg.verifyErr := rfl
@[simp] theorem finish_prg_mm : (finish s).prg.mm = s.prg.mm := rfl
@[simp] theorem finish_prg_lockHeld : (finish s).prg.lockHeld = false := rfl
@[simp] theorem finish_prg_result : (finish s).prg.result = s.prg.ending := rfl
@[simp] theorem finish_prg_op : (finish s).prg.op = .none := rfl
@[simp] theorem finish_prg_ending : (finish s).prg.ending = .none := rfl
@[simp] theorem finish_prg_emitted : (finish s).prg.emitted = s.prg.emitted := rfl
@[simp] theorem finish_prg_trace : (finish s).prg.trace = s.prg.trace := rfl
@[simp] theorem finish_dev : (finish s).dev = s.dev := rfl
@[simp] theorem finish_env_devReady : (finish s).env.devReady = s.env.devReady := rfl
@[simp] theorem finish_env_lockOther : (finish s).env.lockOther = s.env.lockOther := rfl
@[simp] theorem finish_env_inputs : (finish s).env.inputs = s.env.blocked ++ s.env.inputs := rfl
@[simp] theorem finish_env_blocked : (finish s).env.blocked = [] := rfl
@[simp] theorem finish_env_fifo : (finish s).env.fifo = s.env.fifo := rfl
@[simp] theorem finish_env_srcResult : (finish s).env.srcResult = s.env.srcResult := rfl
@[simp] theorem finish_env_busData : (finish s).env.busData = s.env.busData := rfl
@[simp] theorem finish_env_bufData : (finish s).env.bufData = s.env.bufData := rfl
@[simp] theorem finish_env_saved : (finish s).env.saved = s.env.saved := rfl
@[simp] theorem finish_draws : (finish s).draws = s.draws := rfl

@[simp] theorem takeLock_params (op : PrgOp) (g : Stage) : (takeLock op g s).params = s.params := rfl
@[simp] theorem takeLock_dec (op : PrgOp) (g : Stage) : (takeLock op g s).dec = s.dec := rfl
@[simp] theorem takeLock_prg_img (op : PrgOp) (g : Stage) : (takeLock op g s).prg.img = s.prg.img := rfl
@[simp] theorem takeLock_prg_addr (op : PrgOp) (g : Stage) : (takeLock op g s).prg.addr = s.prg.addr := rfl
@[simp] theorem takeLock_prg_stage (op : PrgOp) (g : Stage) : (takeLock op g s).prg.stage = g := rfl
@[simp] theorem takeLock_prg_polls (op : PrgOp) (g : Stage) : (takeLock op g s).prg.polls = s.prg.polls := rfl
@[simp] theorem takeLock_prg_verifyErr (op : PrgOp) (g : Stage) : (takeLock op g s).prg.verifyErr = s.prg.verifyErr := rfl
@[simp] theorem takeLock_prg_mm (op : PrgOp) (g : Stage) : (takeLock op g s).prg.mm = s.prg.mm := rfl
@[simp] theorem takeLock_prg_lockHeld (op : PrgOp) (g : Stage) : (takeLock op g s).prg.lockHeld = true := rfl
@[simp] theorem takeLock_prg_result (op : PrgOp) (g : Stage) : (takeLock op g s).prg.result = s.prg.result := rfl
@[simp] theorem takeLock_prg_op (op : PrgOp) (g : Stage) : (takeLock op g s).prg.op = op := rfl
@[simp] theorem takeLock_prg_ending (op : PrgOp) (g : Stage) : (takeLock op g s).prg.ending = s.prg.ending := rfl
@[simp] theorem takeLock_prg_emitted (op : PrgOp) (g : Stage) : (takeLock op g s).prg.emitted = s.prg.emitted := rfl
@[simp] theorem takeLock_prg_trace (op : PrgOp) (g : Stage) : (takeLock op g s).prg.trace = s.prg.trace := rfl
@[simp] theorem takeLock_dev (op : PrgOp) (g : Stage) : (takeLock op g s).dev = s.dev := rfl
@[simp] theorem takeLock_env (op : PrgOp) (g : Stage) : (takeLock op g s).env = s.env := rfl
@[simp] theorem takeLock_draws (op : PrgOp) (g : Stage) : (takeLock op g s).draws = s.draws := rfl

@[simp] theorem emitPrg_params (e : PrgEmit) : (emitPrg e s).params = s.params := rfl
@[simp] theorem emitPrg_dec (e : PrgEmit) : (emitPrg e s).dec = s.dec := rfl
@[simp] theorem emitPrg_prg_img (e : PrgEmit) : (emitPrg e s).prg.img = s.prg.img := rfl
@[simp] theorem emitPrg_prg_addr (e : PrgEmit) : (emitPrg e s).prg.addr = s.prg.addr := rfl
@[simp] theorem emitPrg_prg_stage (e : PrgEmit) : (emitPrg e s).prg.stage = s.prg.stage := rfl
@[simp] theorem emitPrg_prg_polls (e : PrgEmit) : (emitPrg e s).prg.polls = s.prg.polls := rfl
@[simp] theorem emitPrg_prg_verifyErr (e : PrgEmit) : (emitPrg e s).prg.verifyErr = s.prg.verifyErr := rfl
@[simp] theorem emitPrg_prg_mm (e : PrgEmit) : (emitPrg e s).prg.mm = s.prg.mm := rfl
@[simp] theorem emitPrg_prg_lockHeld (e : PrgEmit) : (emitPrg e s).prg.lockHeld = s.prg.lockHeld := rfl
@[simp] theorem emitPrg_prg_result (e : PrgEmit) : (emitPrg e s).prg.result = s.prg.result := rfl
@[simp] theorem emitPrg_prg_op (e : PrgEmit) : (emitPrg e s).prg.op = s.prg.op := rfl
@[simp] theorem emitPrg_prg_ending (e : PrgEmit) : (emitPrg e s).prg.ending = s.prg.ending := rfl
@[simp] theorem emitPrg_prg_emitted (e : PrgEmit) : (emitPrg e s).prg.emitted = s.prg.emitted ++ [e] := rfl
@[simp] theorem emitPrg_prg_trace (e : PrgEmit) : (emitPrg e s).prg.trace = s.prg.trace := rfl
@[simp] theorem emitPrg_dev (e : PrgEmit) : (emitPrg e s).dev = s.dev := rfl
@[simp] theorem emitPrg_env (e : PrgEmit) : (emitPrg e s).env = s.env := rfl
@[simp] theorem emitPrg_draws (e : PrgEmit) : (emitPrg e s).draws = s.draws := rfl

@[simp] theorem goto_params (g : Stage) : (goto g s).params = s.params := rfl
@[simp] theorem goto_dec (g : Stage) : (goto g s).dec = s.dec := rfl
@[simp] theorem goto_prg_img (g : Stage) : (goto g s).prg.img = s.prg.img := rfl
@[simp] theorem goto_prg_addr (g : Stage) : (goto g s).prg.addr = s.prg.addr := rfl
@[simp] theorem goto_prg_stage (g : Stage) : (goto g s).prg.stage = g := rfl
@[simp] theorem goto_prg_polls (g : Stage) : (goto g s).prg.polls = s.prg.polls := rfl
@[simp] theorem goto_prg_verifyErr (g : Stage) : (goto g s).prg.verifyErr = s.prg.verifyErr := rfl
@[simp] theorem goto_prg_mm (g : Stage) : (goto g s).prg.mm = s.prg.mm := rfl
@[simp] theorem goto_prg_lockHeld (g : Stage) : (goto g s).prg.lockHeld = s.prg.lockHeld := rfl
@[simp] theorem goto_prg_result (g : Stage) : (goto g s).prg.result = s.prg.result := rfl
@[simp] theorem goto_prg_op (g : Stage) : (goto g s).prg.op = s.prg.op := rfl
@[simp] theorem goto_prg_ending (g : Stage) : (goto g s).prg.ending = s.prg.ending := rfl
@[simp] theorem goto_prg_emitted (g : Stage) : (goto g s).prg.emitted = s.prg.emitted := rfl
@[simp] theorem goto_prg_trace (g : Stage) : (goto g s).prg.trace = s.prg.trace := rfl
@[simp] theorem goto_dev (g : Stage) : (goto g s).dev = s.dev := rfl
@[simp] theorem goto_env (g : Stage) : (goto g s).env = s.env := rfl
@[simp] theorem goto_draws (g : Stage) : (goto g s).draws = s.draws := rfl

@[simp] theorem startPolling_params (g : Stage) : (startPolling g s).params = s.params := rfl
@[simp] theorem startPolling_dec (g : Stage) : (startPolling g s).dec = s.dec := rfl
@[simp] theorem startPolling_prg_img (g : Stage) : (startPolling g s).prg.img = s.prg.img := rfl
@[simp] theorem startPolling_prg_addr (g : Stage) : (startPolling g s).prg.addr = s.prg.addr := rfl
@[simp] theorem startPolling_prg_stage (g : Stage) : (startPolling g s).prg.stage = g := rfl
@[simp] theorem startPolling_prg_polls (g : Stage) : (startPolling g s).prg.polls = 0 := rfl
@[simp] theorem startPolling_prg_verifyErr (g : Stage) : (startPolling g s).prg.verifyErr = s.prg.verifyErr := rfl
@[simp] theorem startPolling_prg_mm (g : Stage) : (startPolling g s).prg.mm = s.prg.mm := rfl
@[simp] theorem startPolling_prg_lockHeld (g : Stage) : (startPolling g s).prg.lockHeld = s.prg.lockHeld := rfl
@[simp] theorem startPolling_prg_result (g : Stage) : (startPolling g s).prg.result = s.prg.result := rfl
@[simp] theorem startPolling_prg_op (g : Stage) : (startPolling g s).prg.op = s.prg.op := rfl
@[simp] theorem startPolling_prg_ending (g : Stage) : (startPolling g s).prg.ending = s.prg.ending := rfl
@[simp] theorem startPolling_prg_emitted (g : Stage) : (startPolling g s).prg.emitted = s.prg.emitted := rfl
@[simp] theorem startPolling_prg_trace (g : Stage) : (startPolling g s).prg.trace = s.prg.trace := rfl
@[simp] theorem startPolling_dev (g : Stage) : (startPolling g s).dev = s.dev := rfl
@[simp] theorem startPolling_env (g : Stage) : (startPolling g s).env = s.env := rfl
@[simp] theorem startPolling_draws (g : Stage) : (startPolling g s).draws = s.draws := rfl

@[simp] theorem startLoop_params (g : Stage) : (startLoop g s).params = s.params := rfl
@[simp] theorem startLoop_dec (g : Stage) : (startLoop g s).dec = s.dec := rfl
@[simp] theorem startLoop_prg_img (g : Stage) : (startLoop g s).prg.img = s.prg.img := rfl
@[simp] theorem startLoop_prg_addr (g : Stage) : (startLoop g s).prg.addr = 0 := rfl
@[simp] theorem startLoop_prg_stage (g : Stage) : (startLoop g s).prg.stage = g := rfl
@[simp] theorem startLoop_prg_polls (g : Stage) : (startLoop g s).prg.polls = s.prg.polls := rfl
@[simp] theorem startLoop_prg_verifyErr (g : Stage) : (startLoop g s).prg.verifyErr = s.prg.verifyErr := rfl
@[simp] theorem startLoop_prg_mm (g : Stage) : (startLoop g s).prg.mm = s.prg.mm := rfl
@[simp] theorem startLoop_prg_lockHeld (g : Stage) : (startLoop g s).prg.lockHeld = s.prg.lockHeld := rfl
@[simp] theorem startLoop_prg_result (g : Stage) : (startLoop g s).prg.result = s.prg.result := rfl
@[simp] theorem startLoop_prg_op (g : Stage) : (startLoop g s).prg.op = s.prg.op := rfl
@[simp] theorem startLoop_prg_ending (g : Stage) : (startLoop g s).prg.ending = s.prg.ending := rfl
@[simp] theorem startLoop_prg_emitted (g : Stage) : (startLoop g s).prg.emitted = s.prg.emitted := rfl
@[simp] theorem startLoop_prg_trace (g : Stage) : (startLoop g s).prg.trace = s.prg.trace := rfl
@[simp] theorem startLoop_dev (g : Stage) : (startLoop g s).dev = s.dev := rfl
@[simp] theorem startLoop_env (g : Stage) : (startLoop g s).env = s.env := rfl
@[simp] theorem startLoop_draws (g : Stage) : (startLoop g s).draws = s.draws := rfl

@[simp] theorem countPoll_params : (countPoll s).params = s.params := rfl
@[simp] theorem countPoll_dec : (countPoll s).dec = s.dec := rfl
@[simp] theorem countPoll_prg_img : (countPoll s).prg.img = s.prg.img := rfl
@[simp] theorem countPoll_prg_addr : (countPoll s).prg.addr = s.prg.addr := rfl
@[simp] theorem countPoll_prg_stage : (countPoll s).prg.stage = s.prg.stage := rfl
@[simp] theorem countPoll_prg_polls : (countPoll s).prg.polls = s.prg.polls + 1 := rfl
@[simp] theorem countPoll_prg_verifyErr : (countPoll s).prg.verifyErr = s.prg.verifyErr := rfl
@[simp] theorem countPoll_prg_mm : (countPoll s).prg.mm = s.prg.mm := rfl
@[simp] theorem countPoll_prg_lockHeld : (countPoll s).prg.lockHeld = s.prg.lockHeld := rfl
@[simp] theorem countPoll_prg_result : (countPoll s).prg.result = s.prg.result := rfl
@[simp] theorem countPoll_prg_op : (countPoll s).prg.op = s.prg.op := rfl
@[simp] theorem countPoll_prg_ending : (countPoll s).prg.ending = s.prg.ending := rfl
@[simp] theorem countPoll_prg_emitted : (countPoll s).prg.emitted = s.prg.emitted := rfl
@[simp] theorem countPoll_prg_trace : (countPoll s).prg.trace = s.prg.trace := rfl
@[simp] theorem countPoll_dev : (countPoll s).dev = s.dev := rfl
@[simp] theorem countPoll_env : (countPoll s).env = s.env := rfl
@[simp] theorem countPoll_draws : (countPoll s).draws = s.draws := rfl

@[simp] theorem nextAddr_params : (nextAddr s).params = s.params := rfl
@[simp] theorem nextAddr_dec : (nextAddr s).dec = s.dec := rfl
@[simp] theorem nextAddr_prg_img : (nextAddr s).prg.img = s.prg.img := rfl
@[simp] theorem nextAddr_prg_addr : (nextAddr s).prg.addr = s.prg.addr + 1 := rfl
@[simp] theorem nextAddr_prg_stage : (nextAddr s).prg.stage = s.prg.stage := rfl
@[simp] theorem nextAddr_prg_polls : (nextAddr s).prg.polls = s.prg.polls := rfl
@[simp] theorem nextAddr_prg_verifyErr : (nextAddr s).prg.verifyErr = s.prg.verifyErr := rfl
@[simp] theorem nextAddr_prg_mm : (nextAddr s).prg.mm = s.prg.mm := rfl
@[simp] theorem nextAddr_prg_lockHeld : (nextAddr s).prg.lockHeld = s.prg.lockHeld := rfl
@[simp] theorem nextAddr_prg_result : (nextAddr s).prg.result = s.prg.result := rfl
@[simp] theorem nextAddr_prg_op : (nextAddr s).prg.op = s.prg.op := rfl
@[simp] theorem nextAddr_prg_ending : (nextAddr s).prg.ending = s.prg.ending := rfl
@[simp] theorem nextAddr_prg_emitted : (nextAddr s).prg.emitted = s.prg.emitted := rfl
@[simp] theorem nextAddr_prg_trace : (nextAddr s).prg.trace = s.prg.trace := rfl
@[simp] theorem nextAddr_dev : (nextAddr s).dev = s.dev := rfl
@[simp] theorem nextAddr_env : (nextAddr s).env = s.env := rfl
@[simp] theorem nextAddr_draws : (nextAddr s).draws = s.draws := rfl

@[simp] theorem report_params (r : SrcResult) : (report r s).params = s.params := rfl
@[simp] theorem report_dec (r : SrcResult) : (report r s).dec = s.dec := rfl
@[simp] theorem report_prg (r : SrcResult) : (report r s).prg = s.prg := rfl
@[simp] theorem report_dev (r : SrcResult) : (report r s).dev = s.dev := rfl
@[simp] theorem report_env_devReady (r : SrcResult) : (report r s).env.devReady = s.env.devReady := rfl
@[simp] theorem report_env_lockOther (r : SrcResult) : (report r s).env.lockOther = s.env.lockOther := rfl
@[simp] theorem report_env_inputs (r : SrcResult) : (report r s).env.inputs = s.env.inputs := rfl
@[simp] theorem report_env_blocked (r : SrcResult) : (report r s).env.blocked = s.env.blocked := rfl
@[simp] theorem report_env_fifo (r : SrcResult) : (report r s).env.fifo = s.env.fifo := rfl
@[simp] theorem report_env_srcResult (r : SrcResult) : (report r s).env.srcResult = r := rfl
@[simp] theorem report_env_busData (r : SrcResult) : (report r s).env.busData = s.env.busData := rfl
@[simp] theorem report_env_bufData (r : SrcResult) : (report r s).env.bufData = s.env.bufData := rfl
@[simp] theorem report_env_saved (r : SrcResult) : (report r s).env.saved = s.env.saved := rfl
@[simp] theorem report_draws (r : SrcResult) : (report r s).draws = s.draws := rfl

@[simp] theorem popped_params (rest : List Event) : (popped s rest).params = s.params := rfl
@[simp] theorem popped_dec (rest : List Event) : (popped s rest).dec = s.dec := rfl
@[simp] theorem popped_prg (rest : List Event) : (popped s rest).prg = s.prg := rfl
@[simp] theorem popped_dev (rest : List Event) : (popped s rest).dev = s.dev := rfl
@[simp] theorem popped_env_devReady (rest : List Event) : (popped s rest).env.devReady = s.env.devReady := rfl
@[simp] theorem popped_env_lockOther (rest : List Event) : (popped s rest).env.lockOther = s.env.lockOther := rfl
@[simp] theorem popped_env_inputs (rest : List Event) : (popped s rest).env.inputs = rest := rfl
@[simp] theorem popped_env_blocked (rest : List Event) : (popped s rest).env.blocked = s.env.blocked := rfl
@[simp] theorem popped_env_fifo (rest : List Event) : (popped s rest).env.fifo = s.env.fifo := rfl
@[simp] theorem popped_env_srcResult (rest : List Event) : (popped s rest).env.srcResult = s.env.srcResult := rfl
@[simp] theorem popped_env_busData (rest : List Event) : (popped s rest).env.busData = s.env.busData := rfl
@[simp] theorem popped_env_bufData (rest : List Event) : (popped s rest).env.bufData = s.env.bufData := rfl
@[simp] theorem popped_env_saved (rest : List Event) : (popped s rest).env.saved = s.env.saved := rfl
@[simp] theorem popped_draws (rest : List Event) : (popped s rest).draws = s.draws := rfl

@[simp] theorem endWith_prg_imgSize (r : PrgResult) : (endWith r s).prg.imgSize = s.prg.imgSize := rfl
@[simp] theorem endIdle_prg_imgSize (r : PrgResult) : (endIdle r s).prg.imgSize = s.prg.imgSize := rfl
@[simp] theorem takeLock_prg_imgSize (op : PrgOp) (g : Stage) : (takeLock op g s).prg.imgSize = s.prg.imgSize := rfl
@[simp] theorem emitPrg_prg_imgSize (e : PrgEmit) : (emitPrg e s).prg.imgSize = s.prg.imgSize := rfl
@[simp] theorem goto_prg_imgSize (g : Stage) : (goto g s).prg.imgSize = s.prg.imgSize := rfl
@[simp] theorem startPolling_prg_imgSize (g : Stage) : (startPolling g s).prg.imgSize = s.prg.imgSize := rfl
@[simp] theorem startLoop_prg_imgSize (g : Stage) : (startLoop g s).prg.imgSize = s.prg.imgSize := rfl
@[simp] theorem countPoll_prg_imgSize : (countPoll s).prg.imgSize = s.prg.imgSize := rfl
@[simp] theorem nextAddr_prg_imgSize : (nextAddr s).prg.imgSize = s.prg.imgSize := rfl

@[simp] theorem record_params (r : Request) : (record r s).params = s.params := by cases r <;> rfl
@[simp] theorem record_dec (r : Request) : (record r s).dec = s.dec := by cases r <;> rfl
@[simp] theorem record_dev (r : Request) : (record r s).dev = s.dev := by cases r <;> rfl
@[simp] theorem record_env (r : Request) : (record r s).env = s.env := by cases r <;> rfl
@[simp] theorem record_draws (r : Request) : (record r s).draws = s.draws := by cases r <;> rfl
@[simp] theorem record_prg_img (r : Request) : (record r s).prg.img = s.prg.img := by cases r <;> rfl
@[simp] theorem record_prg_addr (r : Request) : (record r s).prg.addr = s.prg.addr := by cases r <;> rfl
@[simp] theorem record_prg_stage (r : Request) : (record r s).prg.stage = s.prg.stage := by cases r <;> rfl
@[simp] theorem record_prg_polls (r : Request) : (record r s).prg.polls = s.prg.polls := by cases r <;> rfl
@[simp] theorem record_prg_verifyErr (r : Request) : (record r s).prg.verifyErr = s.prg.verifyErr := by cases r <;> rfl
@[simp] theorem record_prg_mm (r : Request) : (record r s).prg.mm = s.prg.mm := by cases r <;> rfl
@[simp] theorem record_prg_lockHeld (r : Request) : (record r s).prg.lockHeld = s.prg.lockHeld := by cases r <;> rfl
@[simp] theorem record_prg_result (r : Request) : (record r s).prg.result = s.prg.result := by cases r <;> rfl
@[simp] theorem record_prg_op (r : Request) : (record r s).prg.op = s.prg.op := by cases r <;> rfl
@[simp] theorem record_prg_ending (r : Request) : (record r s).prg.ending = s.prg.ending := by cases r <;> rfl
@[simp] theorem record_prg_emitted (r : Request) : (record r s).prg.emitted = s.prg.emitted := by cases r <;> rfl
@[simp] theorem record_prg_imgSize (r : Request) : (record r s).prg.imgSize = s.prg.imgSize := by cases r <;> rfl

@[simp] theorem raiseError_eq (e : PrgResult) : raiseError e s = endWith e s := rfl
@[simp] theorem continuedPlain_eq (code : Code) (w : Word) : continuedPlain code w s = continued code w .none .none s := rfl
@[simp] theorem ctx_remaining : s.ctx.remaining = s.dec.remaining := rfl
@[simp] theorem ctx_lastType : s.ctx.lastType = s.dec.lastType := rfl
@[simp] theorem ctx_isContinuation : s.ctx.isContinuation = s.dec.isContinuation := rfl
@[simp] theorem ctx_mode : s.ctx.mode = s.dev.mode := rfl

end Sys2Proof.Machine
end

