-- ==== Sys2Proof/Laws/Words.lean ====
section
/-! SUPPORT. What the field functions give on the words the encoder builds, one lemma per shared word function. -/

namespace Sys2Proof

theorem codeOf_typedWord (c : Code) (p : BitVec 27) : codeOf (typedWord c (place 0 p)) = c := by
  ext i hi
  simp [codeOf, typedWord, place]
  grind

theorem payloadOf_typedWord (c : Code) (p : BitVec 27) : payloadOf (typedWord c (place 0 p)) = p := by
  ext i hi
  simp [payloadOf, typedWord, place]
  grind

theorem typeDefining_typedWord (c : Code) (p : Word) : typeDefining (typedWord c p) = true := by
  simp [typeDefining, typedWord]

/-- A type-defining word is its code and its payload. -/
theorem typedWord_of_typeDefining (w : Word) (h : typeDefining w = true) :
    typedWord (codeOf w) (place 0 (payloadOf w)) = w := by
  ext i hi
  simp [typeDefining, typedWord, codeOf, payloadOf, place] at *
  grind

/-- The masked comparison of an encoding table row of format TW-T says: type-defining, with that code (R91, R92). -/
theorem and_typeMask_eq_iff (w : Word) (c : Code) :
    w &&& 0xF8000000 = BitVec.twoPow 32 31 ||| place 27 c ↔ typeDefining w = true ∧ codeOf w = c := by
  have hm : ∀ i : Fin 32, (0xF8000000 : Word)[i.val] = decide (27 ≤ i.val) := by decide
  constructor
  · intro h
    have h' : ∀ i (hi : i < 32), (w &&& 0xF8000000)[i] = (BitVec.twoPow 32 31 ||| place 27 c)[i] := by
      intro i hi
      rw [h]
    constructor
    · have := h' 31 (by omega)
      have := hm 31
      simp [typeDefining, place] at *
      grind
    · ext i hi
      have := h' (27 + i) (by omega)
      have := hm ⟨27 + i, by omega⟩
      simp [codeOf, place] at *
      grind
  · rintro ⟨h1, rfl⟩
    ext i hi
    have := hm ⟨i, hi⟩
    simp [typeDefining, codeOf, place] at *
    grind

/-- The bits below the code of a type-defining word are its payload's. -/
theorem extractLsb'_typedWord (c : Code) (p : Word) (lo n : Nat) (h : lo + n ≤ 27) :
    (typedWord c p).extractLsb' lo n = p.extractLsb' lo n := by
  ext i hi
  simp [typedWord, place]
  grind

/-- A TriggerTime continuation word is its ignored bits and its time fragment (R101). -/
theorem contWord_of_trgtime_fields (w : Word) (h : typeDefining w = false) :
    place 20 (contIgnoredOf w) ||| place 0 (time2Of w) = w := by
  ext i hi
  simp [typeDefining, place, contIgnoredOf, time2Of] at *
  grind

@[simp] theorem typeDefining_contWord (p : BitVec 31) : typeDefining (contWord p) = false := by
  simp [typeDefining, contWord, place]

@[simp] theorem contPayloadOf_contWord (p : BitVec 31) : contPayloadOf (contWord p) = p := by
  ext i hi
  simp [contPayloadOf, contWord, place]
  grind

/-- A continuation word is its payload. -/
theorem contWord_of_not_typeDefining (w : Word) (h : typeDefining w = false) : contWord (contPayloadOf w) = w := by
  ext i hi
  simp [typeDefining, contWord, contPayloadOf, place] at *
  grind

@[simp] theorem addrOf_dataWord (a : EepAddr) (b : Byte) : addrOf (dataWord a b) = a := by
  ext i hi
  simp [addrOf, dataWord, place]
  grind

@[simp] theorem byteOf_dataWord (a : EepAddr) (b : Byte) : byteOf (dataWord a b) = b := by
  ext i hi
  simp [byteOf, dataWord, place]
  grind

/-- A CFG_DATA word is its address and its byte. -/
theorem dataWord_of_fields (v : Word) : dataWord (addrOf v) (byteOf v) = v := by
  ext i hi
  simp [dataWord, addrOf, byteOf, place]
  grind

end Sys2Proof

namespace Sys2Proof.Machine

@[simp] theorem csrBusy_csrWord (u : BitVec 23) (busy : Bool) (r : Byte) : csrBusy (csrWord u busy r) = busy := by
  simp [csrBusy, csrWord, place]

@[simp] theorem csrRData_csrWord (u : BitVec 23) (busy : Bool) (r : Byte) : csrRData (csrWord u busy r) = r := by
  ext i hi
  simp [csrRData, csrWord, place]
  grind

end Sys2Proof.Machine
end

