-- ==== Sys2Proof/Laws/Ops.lean ====
section
/-! SUPPORT. For each shared operation one lemma that says what it can answer; later proofs cite these and do not unfold the
operation. -/

namespace Sys2Proof.Machine

variable (s : State)

/-! ### Flags -/

@[simp] theorem busyFlag_none : busyFlag .none = false := rfl

@[simp] theorem busyFlag_eq_false {p : Pending} : busyFlag p = false ↔ p = .none := by
  cases p <;> simp [busyFlag]

@[simp] theorem busyFlag_eq_true {p : Pending} : busyFlag p = true ↔ p ≠ .none := by
  rw [← Bool.not_eq_false, busyFlag_eq_false]

@[simp] theorem protoErrAfter_none (b : Bool) : protoErrAfter b .none = b := by
  cases b <;> rfl

@[simp] theorem protoErrAfter_trigTimeSeq (b : Bool) : protoErrAfter b .trigTimeSeq = true := by
  cases b <;> rfl

/-- The lock is free when neither PRG nor a HOST thread holds it (R72). -/
theorem lockFree_iff : lockFree s = true ↔ s.prg.lockHeld = false ∧ s.env.lockOther = none := by
  simp [lockFree]

/-- Who may access a register: everyone while the lock is free, its holder while a HOST thread holds it (R72). -/
theorem lockAllows_iff {who : Nat} : lockAllows who s = true ↔
    s.prg.lockHeld = false ∧ (s.env.lockOther = none ∨ s.env.lockOther = some who) := by
  simp [lockAllows]

/-- A thread that must wait finds the lock held (R72). -/
theorem lockFree_of_not_allows {who : Nat} (h : lockAllows who s = false) : lockFree s = false := by
  rw [← Bool.not_eq_true] at h ⊢
  rw [lockAllows_iff] at h
  rw [lockFree_iff]
  tauto

/-! ### DEC -/

/-- In a decoder run a word is captured whatever its row (R121). -/
theorem inGeneric_of_run {w : Word} {row : State} (h : s.dec.remaining ≠ 0) : inGeneric w s row = capture w s :=
  if_pos h

/-- In Generic the row applies (R121). -/
theorem inGeneric_of_generic {w : Word} {row : State} (h : s.dec.remaining = 0) : inGeneric w s row = row :=
  if_neg (not_not_intro h)

/-- What one DEC step can be (R120): a capture, a type-defining word, a continuation word. -/
theorem decStep_cases (w : Word) :
    (s.dec.remaining ≠ 0 ∧ decStep w s = capture w s) ∨
    (s.dec.remaining = 0 ∧ typeDefining w = true ∧ decStep w s = classifyTyped w s) ∨
    (s.dec.remaining = 0 ∧ typeDefining w = false ∧ decStep w s = continuation w s) := by
  unfold decStep
  by_cases hr : s.dec.remaining = 0 <;> by_cases hw : typeDefining w = true <;> simp_all

/-- What a type-defining word in Generic does (R126, R165): its row's emission, and for a decoder header the count. -/
theorem classifyTyped_cases (w : Word) :
    (codeOf w = codeDecHdr ∧ classifyTyped w s = loadCount (countOf w) (typed (codeOf w) w (fieldsOf w) s)) ∨
    (codeOf w ≠ codeDecHdr ∧ classifyTyped w s = typed (codeOf w) w (fieldsOf w) s) := by
  unfold classifyTyped
  by_cases h : codeOf w = codeDecHdr <;> simp [h]

/-- What a continuation word in Generic does (R126): one emission under `lastType`. -/
theorem continuation_eq (w : Word) :
    ∃ f e, continuation w s = continued s.dec.lastType w f e s ∧
      (e = .trigTimeSeq ↔ s.dec.lastType = codeTrgTime ∧ s.dec.isContinuation = true) := by
  unfold continuation prevNew
  split
  · next h =>
    cases hc : s.dec.isContinuation
    · exact ⟨.time2 (time2Of w), .none, by simp [h], by simp⟩
    · exact ⟨.none, .trigTimeSeq, by simp [h], by simp [h]⟩
  · next h => exact ⟨.none, .none, rfl, by simp [h]⟩

/-- DEC's step touches nothing but DEC. -/
theorem decStep_frame (w : Word) :
    (decStep w s).params = s.params ∧ (decStep w s).prg = s.prg ∧ (decStep w s).dev = s.dev ∧ (decStep w s).env = s.env ∧
      (decStep w s).draws = s.draws := by
  rcases decStep_cases s w with ⟨-, h⟩ | ⟨-, -, h⟩ | ⟨-, -, h⟩ <;> rw [h]
  · simp
  · rcases classifyTyped_cases s w with ⟨-, h⟩ | ⟨-, h⟩ <;> rw [h] <;> simp
  · obtain ⟨f, e, h, -⟩ := continuation_eq s w
    rw [h]
    simp

/-! ### DEV -/

/-- A register write answers a next state only with nothing pending (R229). -/
theorem whenNotBusy_next {k : Result} {t : State} :
    whenNotBusy s k = .next t ↔ s.dev.pending = .none ∧ k = .next t := by
  unfold whenNotBusy
  by_cases h : s.dev.pending = .none <;> simp [h]

theorem whenNotBusy_of_none {k : Result} (h : s.dev.pending = .none) : whenNotBusy s k = k := by
  simp [whenNotBusy, h]

theorem whenNotBusy_of_pending {k : Result} (h : s.dev.pending ≠ .none) : whenNotBusy s k = .fault .cmdWhileBusy := by
  simp [whenNotBusy, h]

/-- A write of CFG_DATA that completes has started a write or a read, as the mode says, inside the array (R220, R224). -/
theorem acceptData_next {a : EepAddr} {b : Byte} {t : State} (h : acceptData a b s = .next t) :
    s.dev.pending = .none ∧ a.toNat < s.params.eepSize ∧
      ((s.dev.mode = .writeEnable ∧ t = startOp (.write a b) s) ∨ (s.dev.mode = .read ∧ t = startOp (.read a) s)) := by
  obtain ⟨hp, h⟩ := (whenNotBusy_next s).1 h
  refine ⟨hp, ?_⟩
  cases hm : s.dev.mode <;> simp only [hm, acceptWrite, acceptRead] at h
  · simp at h
  · split at h
    · next hlt => exact ⟨hlt, .inl ⟨rfl, by simpa using h.symm⟩⟩
    · simp at h
  · split at h
    · next hlt => exact ⟨hlt, .inr ⟨rfl, by simpa using h.symm⟩⟩
    · simp at h

/-- `DEV.complete` touches the array, `RDATA`, the pending operation and the draws, nothing else (R228). -/
theorem devComplete_frame :
    (devComplete s).params = s.params ∧ (devComplete s).dec = s.dec ∧ (devComplete s).prg = s.prg ∧
      (devComplete s).env = s.env ∧ (devComplete s).dev.mode = s.dev.mode := by
  unfold devComplete completeWrite
  split
  · simp
  · simp
  · split <;> simp
  · simp

/-- After `DEV.complete` nothing is pending (R228). -/
theorem devComplete_pending : (devComplete s).dev.pending = .none := by
  unfold devComplete completeWrite
  split
  · assumption
  · rfl
  · split <;> rfl
  · rfl

/-! ### The accesses of PRG -/

/-- What a register access that answers a next state leaves alone: DEC, PRG, the array, `RDATA` and the environment but for
the value the bus returned. -/
theorem present_frame {r : Request} {t : State} (hr : ∀ w, r ≠ .stream w) (h : present r s = .next t) :
    t.params = s.params ∧ t.dec = s.dec ∧ t.prg = s.prg ∧ t.dev.mem = s.dev.mem ∧ t.dev.rdata = s.dev.rdata ∧
      t.env = { s.env with busData := t.env.busData } := by
  have key : ∀ k : Result, whenNotBusy s k = .next t → k = .next t := fun k hk => ((whenNotBusy_next s).1 hk).2
  have data : ∀ a b, acceptData a b s = .next t → t.params = s.params ∧ t.dec = s.dec ∧ t.prg = s.prg ∧
      t.dev.mem = s.dev.mem ∧ t.dev.rdata = s.dev.rdata ∧ t.env = { s.env with busData := t.env.busData } := by
    intro a b hk
    obtain ⟨-, -, ⟨-, rfl⟩ | ⟨-, rfl⟩⟩ := acceptData_next s hk <;> exact ⟨rfl, rfl, rfl, rfl, rfl, rfl⟩
  have none : ∀ e, noInstruction e s = .next t → t.params = s.params ∧ t.dec = s.dec ∧ t.prg = s.prg ∧
      t.dev.mem = s.dev.mem ∧ t.dev.rdata = s.dev.rdata ∧ t.env = { s.env with busData := t.env.busData } := by
    intro e hk
    cases e <;> simp only [noInstruction, reduceCtorEq] at hk
    · have := key _ hk
      simp at this
    · have := key _ hk
      simp at this
    · obtain rfl : readData s = t := by simpa using hk
      exact ⟨rfl, rfl, rfl, rfl, rfl, rfl⟩
  cases r with
  | stream w => exact absurd rfl (hr w)
  | write off width v =>
    unfold present decode at h
    dsimp only at h
    split at h
    · next i hi =>
      split at hi
      · cases hi
      · split at hi
        · split at hi
          · cases hi
            cases key _ h
            exact ⟨rfl, rfl, rfl, rfl, rfl, rfl⟩
          · split at hi
            · cases hi
              cases key _ h
              exact ⟨rfl, rfl, rfl, rfl, rfl, rfl⟩
            · split at hi <;> cases hi
              cases key _ h
              exact ⟨rfl, rfl, rfl, rfl, rfl, rfl⟩
        · split at hi <;> cases hi <;> exact data _ _ h
    · exact none _ h
  | read off width =>
    unfold present decode at h
    dsimp only at h
    split at h
    · next i hi =>
      split at hi
      · cases hi
      · split at hi <;> cases hi
        obtain rfl : readCsr s = t := by simpa [exec, execPoll] using h
        exact ⟨rfl, rfl, rfl, rfl, rfl, rfl⟩
    · exact none _ h

/-- The poll's word has the busy bit and the byte of R41; what its other bits are no lemma says. -/
theorem csrValue_fields : csrBusy (csrValue s) = busyFlag s.dev.pending ∧ csrRData (csrValue s) = s.dev.rdata := by
  simp [csrValue]

theorem present_bulkErase : present (.write cfgCsrOff 4 cmdBulkErase) s = execBulkErase s := rfl

theorem present_setWren : present (.write cfgCsrOff 4 cmdWren) s = execSetWren s := rfl

theorem present_setRd : present (.write cfgCsrOff 4 cmdRead) s = execSetRd s := rfl

theorem present_poll : present (.read cfgCsrOff 4) s = .next (readCsr s) := rfl

/-- A write of CFG_DATA reaches DEV as its address and its byte, whatever row it is (R107, R220, R224). -/
theorem present_data (a : EepAddr) (b : Byte) (h : s.dev.mode = .writeEnable) :
    present (.write cfgDataOff 4 (dataWord a b)) s = acceptData a b s := by
  have hd : decode s.ctx (.write cfgDataOff 4 (dataWord a b)) =
      match s.dev.mode with
      | .writeEnable => .ok (.wrbyte (addrOf (dataWord a b)) (byteOf (dataWord a b)))
      | .read => .ok (.rdbyte (addrOf (dataWord a b)))
      | .none => .error .dataWriteInModeNone := rfl
  simp [present, hd, h, exec, execWrbyte]

theorem present_dataRead (a : EepAddr) (b : Byte) (h : s.dev.mode = .read) :
    present (.write cfgDataOff 4 (dataWord a b)) s = acceptData a 0 s := by
  have hd : decode s.ctx (.write cfgDataOff 4 (dataWord a b)) =
      match s.dev.mode with
      | .writeEnable => .ok (.wrbyte (addrOf (dataWord a b)) (byteOf (dataWord a b)))
      | .read => .ok (.rdbyte (addrOf (dataWord a b)))
      | .none => .error .dataWriteInModeNone := rfl
  simp [present, hd, h, exec, execRdbyte]

/-- In mode None a write of CFG_DATA never answers a next state (R110, R229). -/
theorem present_dataNone (a : EepAddr) (b : Byte) (h : s.dev.mode = .none) :
    present (.write cfgDataOff 4 (dataWord a b)) s = whenNotBusy s (.refused .dataWriteInModeNone) := by
  have hd : decode s.ctx (.write cfgDataOff 4 (dataWord a b)) =
      match s.dev.mode with
      | .writeEnable => .ok (.wrbyte (addrOf (dataWord a b)) (byteOf (dataWord a b)))
      | .read => .ok (.rdbyte (addrOf (dataWord a b)))
      | .none => .error .dataWriteInModeNone := rfl
  simp [present, hd, h, noInstruction]

/-- No error keeps an access from being made exactly when its check passed and it does not fail. -/
theorem accessError_none {check : Option PrgResult} {fail : Bool} :
    accessError check fail = none ↔ check = none ∧ fail = false := by
  cases check <;> cases fail <;> simp [accessError]

/-- What keeps an access from being made is its check's error or the access's own failure (R215, R232, R248). -/
theorem accessError_some {check : Option PrgResult} {fail : Bool} {e : PrgResult} (h : accessError check fail = some e) :
    check = some e ∨ (check = none ∧ fail = true ∧ e = .deviceError) := by
  cases check with
  | none => cases fail <;> simp_all [accessError]
  | some x => exact .inl h

/-- With the handle there an access meets no check. -/
theorem handleCheck_ready (h : s.env.devReady = true) : handleCheck s = none := by simp [handleCheck, h]

theorem handleCheck_lost (h : s.env.devReady = false) : handleCheck s = some .notInitialized := by simp [handleCheck, h]

/-- The preconditions hold with the handle there and an image loaded (R248). -/
theorem precondition_none : precondition s = none ↔ s.env.devReady = true ∧ s.prg.img ≠ [] := by
  unfold precondition Prg.imgSize
  cases s.env.devReady <;> simp

theorem precondition_lost (h : s.env.devReady = false) : precondition s = some .notInitialized := by simp [precondition, h]

/-- What one access of PRG can answer (R215, R232, R248, R250): an error without the access, or the access and what PRG does after
it. -/
theorem access_next {check : Option PrgResult} {fail : Bool} {r : Request} {k : State → Result} {t : State} :
    access check fail r s k = .next t ↔
      (∃ e, accessError check fail = some e ∧ t = endWith e s) ∨
      (accessError check fail = none ∧ ∃ u, present r s = .next u ∧ k (record r u) = .next t) := by
  unfold access
  cases h : accessError check fail with
  | some e => simp [raiseError, eq_comm]
  | none => cases hp : present r s <;> simp

/-! ### The small operations of PRG -/

/-- A busy poll ends the operation with `Timeout`, or changes nothing (R226, R227). -/
theorem stillBusy_cases :
    (timedOut s.params s.prg.polls = true ∧ stillBusy s = endWith (.timeout s.prg.stage s.prg.addr) s) ∨
    (timedOut s.params s.prg.polls = false ∧ stillBusy s = s) := by
  unfold stillBusy
  cases h : timedOut s.params s.prg.polls <;> simp

theorem markErase_cases :
    (s.prg.polls % eraseMarkEvery = 0 ∧ markErase s = emitPrg .progressErase s) ∨
    (s.prg.polls % eraseMarkEvery ≠ 0 ∧ markErase s = s) := by
  unfold markErase
  by_cases h : s.prg.polls % eraseMarkEvery = 0 <;> simp [h]

theorem markDownload_cases :
    (s.prg.addr % downloadMarkEvery = 0 ∧ markDownload s = emitPrg .progressDownload s) ∨
    (s.prg.addr % downloadMarkEvery ≠ 0 ∧ markDownload s = s) := by
  unfold markDownload
  by_cases h : s.prg.addr % downloadMarkEvery = 0 <;> simp [h]

/-- A comparison touches the error flag, the diagnostic and the output port (R246). -/
theorem compareByte_frame (e a : Byte) :
    (compareByte e a s).params = s.params ∧ (compareByte e a s).dec = s.dec ∧ (compareByte e a s).dev = s.dev ∧
      (compareByte e a s).env = s.env ∧ (compareByte e a s).draws = s.draws ∧
      (compareByte e a s).prg.img = s.prg.img ∧ (compareByte e a s).prg.addr = s.prg.addr ∧
      (compareByte e a s).prg.stage = s.prg.stage ∧ (compareByte e a s).prg.op = s.prg.op ∧
      (compareByte e a s).prg.lockHeld = s.prg.lockHeld ∧
      (compareByte e a s).prg.verifyErr = verifyErrAfter s.prg.verifyErr e a := by
  unfold compareByte
  dsimp only
  split <;> simp

/-- What a comparison does to the diagnostic and the output port (R246): the first mismatch is latched and emitted. -/
theorem compareByte_cases (e a : Byte) :
    (s.prg.verifyErr = false ∧ a ≠ e ∧
      (compareByte e a s).prg.mm = { valid := true, addr := BitVec.ofNat 24 s.prg.addr, expected := e, actual := a } ∧
      (compareByte e a s).prg.emitted = s.prg.emitted ++ [.diagnostic (BitVec.ofNat 24 s.prg.addr) e a]) ∨
    ((s.prg.verifyErr = true ∨ a = e) ∧ (compareByte e a s).prg.mm = s.prg.mm ∧
      (compareByte e a s).prg.emitted = s.prg.emitted) := by
  unfold compareByte
  dsimp only
  split
  · next h =>
    simp only [Bool.and_eq_true, bne_iff_ne, Bool.not_eq_true'] at h
    exact .inl ⟨h.2, h.1, rfl, rfl⟩
  · next h =>
    refine .inr ⟨?_, rfl, rfl⟩
    simp only [Bool.and_eq_true, bne_iff_ne, Bool.not_eq_true', not_and, Bool.not_eq_false] at h
    by_cases ha : a = e
    · exact .inr ha
    · exact .inl (h ha)

/-! ### HOST's other threads -/

/-- What a register access of a HOST thread can be (R72): the access, or waiting. -/
theorem hostAccess_cases (who : Nat) (e : Event) (r : Request) :
    (lockAllows who s = true ∧ hostAccess who e r s = present r s) ∨
    (lockAllows who s = false ∧ hostAccess who e r s = .next (block e s)) := by
  unfold hostAccess
  cases h : lockAllows who s <;> simp

/-! ### Which move comes next -/

/-- The move at the head of the list is consumed and run (R7, R61). -/
theorem step_cons {e : Event} {rest : List Event} (h : s.env.inputs = e :: rest) : step s = runEvent e (popped s rest) := by
  simp only [step, nextMove, h]

/-- With no move listed PRG moves by itself in an operation, and everything waits otherwise (R50, R311). -/
theorem step_nil (h : s.env.inputs = []) :
    step s = if lockingStage s.prg.stage = true then prgStep false s else .next s := by
  simp only [step, nextMove, h]
  rfl

/-! ### LOADIMG -/

/-- A file that can be read and fits is loaded, each byte reversed (R204). -/
theorem loadLoop_map_some (cap : Nat) (bs : List Byte) (i : Nat) (h : i + bs.length ≤ cap) :
    loadLoop cap i (bs.map some) = .ok (bs.map revb) := by
  induction bs generalizing i with
  | nil => rfl
  | cons b bs ih =>
    simp only [List.length_cons] at h
    rw [List.map_cons, loadLoop, if_neg (by omega), ih (i + 1) (by omega)]
    rfl

/-- What is loaded fits (R33). -/
theorem loadLoop_length {cap : Nat} {file : List (Option Byte)} {i : Nat} {bs : List Byte}
    (h : loadLoop cap i file = .ok bs) (hi : i ≤ cap) : i + bs.length ≤ cap := by
  induction file generalizing i bs with
  | nil =>
    cases h
    simpa using hi
  | cons x file ih =>
    cases x with
    | none => cases h
    | some b =>
      rw [loadLoop] at h
      split at h
      · cases h
      · split at h
        · next hb =>
          cases h
          have := ih hb (by omega)
          simp only [List.length_cons]
          omega
        · cases h

/-! ### The saved record -/

/-- What `restore` puts into the buffer (R133): the record's words from entry `i` on, the other entries as they were. -/
theorem getElem_fillBuf (ws : List Word) (i : Nat) (v : Vector Word 64) (j : Nat) (hj : j < 64) :
    (fillBuf i ws v)[j] = if h : i ≤ j ∧ j - i < ws.length then ws[j - i] else v[j] := by
  induction ws generalizing i v with
  | nil => simp [fillBuf]
  | cons w ws ih =>
    rw [fillBuf, ih]
    by_cases h : i + 1 ≤ j ∧ j - (i + 1) < ws.length
    · rw [dif_pos h, dif_pos (by simp; omega)]
      have : j - i = (j - (i + 1)) + 1 := by omega
      simp [this]
    · rw [dif_neg h]
      simp only [Vector.getElem_setIfInBounds, List.length_cons]
      by_cases hij : i = j
      · subst hij
        simp
      · rw [dif_neg (by omega)]
        simp [hij]

/-! ### SRC -/

/-- `n` words of a FIFO that holds them (R266). -/
theorem popWords_eq (n : Nat) (h : n ≤ s.env.fifo.length) :
    popWords n s = (s.env.fifo.take n, { s with env := { s.env with fifo := s.env.fifo.drop n } }) := by
  induction n generalizing s with
  | zero => simp [popWords]
  | succ n ih =>
    cases hf : s.env.fifo with
    | nil => simp [hf] at h
    | cons w rest =>
      have hp : fifoPop s = (w, { s with env := { s.env with fifo := rest } }) := by
        unfold fifoPop
        rw [hf]
      rw [popWords]
      dsimp only
      rw [hp]
      dsimp only
      rw [ih _ (by simpa [hf] using h)]
      rfl

/-- A read of the FIFO's port touches the FIFO and the draws only. -/
theorem fifoPop_frame :
    (fifoPop s).2.params = s.params ∧ (fifoPop s).2.dec = s.dec ∧ (fifoPop s).2.prg = s.prg ∧ (fifoPop s).2.dev = s.dev ∧
      (fifoPop s).2.env.inputs = s.env.inputs ∧ (fifoPop s).2.env.blocked = s.env.blocked ∧
      (fifoPop s).2.env.lockOther = s.env.lockOther ∧ (fifoPop s).2.env.devReady = s.env.devReady := by
  unfold fifoPop
  split <;> simp

theorem pioBody_frame (n : Nat) :
    (pioBody n s).2.params = s.params ∧ (pioBody n s).2.dec = s.dec ∧ (pioBody n s).2.prg = s.prg ∧
      (pioBody n s).2.dev = s.dev ∧ (pioBody n s).2.env.inputs = s.env.inputs ∧
      (pioBody n s).2.env.blocked = s.env.blocked ∧ (pioBody n s).2.env.lockOther = s.env.lockOther ∧
      (pioBody n s).2.env.devReady = s.env.devReady := by
  induction n generalizing s with
  | zero => simp [pioBody]
  | succ n ih =>
    have hp := fifoPop_frame s
    have hi := ih (fifoPop s).2
    simp only [pioBody]
    split
    · exact hp
    · simp_all

theorem popWords_frame (n : Nat) :
    (popWords n s).2.params = s.params ∧ (popWords n s).2.dec = s.dec ∧ (popWords n s).2.prg = s.prg ∧
      (popWords n s).2.dev = s.dev ∧ (popWords n s).2.env.inputs = s.env.inputs ∧
      (popWords n s).2.env.blocked = s.env.blocked ∧ (popWords n s).2.env.lockOther = s.env.lockOther ∧
      (popWords n s).2.env.devReady = s.env.devReady := by
  induction n generalizing s with
  | zero => simp [popWords]
  | succ n ih =>
    have hp := fifoPop_frame s
    have hi := ih (fifoPop s).2
    simp_all [popWords]

/-- A `readBlock` in programmed-I/O mode, whatever it reports, touches the FIFO, the moves to come, SRC's report and the draws. -/
theorem readBlockPio_frame (m : Nat) (z : Bool) (fail : Option Nat) :
    (readBlockPio m z fail s).params = s.params ∧ (readBlockPio m z fail s).dec = s.dec ∧
      (readBlockPio m z fail s).prg = s.prg ∧ (readBlockPio m z fail s).dev = s.dev ∧
      (readBlockPio m z fail s).env.blocked = s.env.blocked ∧
      (readBlockPio m z fail s).env.lockOther = s.env.lockOther ∧
      (readBlockPio m z fail s).env.devReady = s.env.devReady := by
  have hl := fifoPop_frame s
  have hb := pioBody_frame (fifoPop s).2 (m - 1)
  unfold readBlockPio
  split
  · simp
  · dsimp only
    split
    · split
      · simp_all [deliver]
      · next k _ =>
        have hp := popWords_frame s k
        split <;> simp_all [deliver]
    · simp_all

end Sys2Proof.Machine
end

