-- ==== Sys2Proof/Laws/PerInstr.lean ====
section
/-! SUPPORT. A statement made for every instruction, one lemma per constructor: its word has the bits that its row of
spec/opcode_table.json fixes. -/

namespace Sys2Proof.Laws

/-- The keys `"mask"` and `"match"` of a constructor's row. -/
def rowBits : Instr → Word × Word
  | .blkhdr _ _ _ _ => (0xF8000000, 0x80000000)
  | .blktrl _ _ => (0xF8000000, 0x88000000)
  | .evhdr _ _ _ => (0xF8000000, 0x90000000)
  | .trgtime _ => (0xF8000000, 0x98000000)
  | .undef4 _ => (0xF8000000, 0xA0000000)
  | .undef5 _ => (0xF8000000, 0xA8000000)
  | .undef6 _ => (0xF8000000, 0xB0000000)
  | .undef7 _ => (0xF8000000, 0xB8000000)
  | .dechdr _ _ => (0xF8000000, 0xC0000000)
  | .undef9 _ => (0xF8000000, 0xC8000000)
  | .undef10 _ => (0xF8000000, 0xD0000000)
  | .undef11 _ => (0xF8000000, 0xD8000000)
  | .undef12 _ => (0xF8000000, 0xE0000000)
  | .eoe _ => (0xF8000000, 0xE8000000)
  | .dnv _ _ => (0xF8000000, 0xF0000000)
  | .fill _ _ => (0xF8000000, 0xF8000000)
  | .cont _ => (0x80000000, 0)
  | .blkhdrC _ => (0x80000000, 0)
  | .blktrlC _ => (0x80000000, 0)
  | .evhdrC _ => (0x80000000, 0)
  | .trgtimeC _ _ => (0x80000000, 0)
  | .trgtimeCerr _ => (0x80000000, 0)
  | .dechdrC _ => (0x80000000, 0)
  | .eoeC _ => (0x80000000, 0)
  | .dnvC _ => (0x80000000, 0)
  | .fillC _ => (0x80000000, 0)
  | .undefC _ => (0x80000000, 0)
  | .decdata _ => (0, 0)
  | .setWren => (0xFFFFFFFF, 0x80000000)
  | .bulkErase => (0xFFFFFFFF, 0x40000000)
  | .setRd => (0xFFFFFFFF, 0x20000000)
  | .poll => (0, 0)
  | .wrbyte _ _ => (0, 0)
  | .rdbyte _ => (0x000000FF, 0)

/-- The word of an instruction has its row's fixed bits. -/
def EncodingMatchesRow.Statement (i : Instr) : Prop := encodeWord i &&& (rowBits i).1 = (rowBits i).2

/-- The five fixed bits of format TW-T, whatever the payload's 27 bits. -/
theorem typedWord_and_mask (c : Code) (p : Word) (hp : ∀ j, 27 ≤ j → p.getLsbD j = false) :
    typedWord c p &&& 0xF8000000 = BitVec.twoPow 32 31 ||| place 27 c := by
  have hm : ∀ i : Fin 32, (0xF8000000 : Word)[i.val] = decide (27 ≤ i.val) := by decide
  ext i hi
  have := hp i
  have := hm ⟨i, hi⟩
  simp [typedWord, place] at *
  grind

/-- A word with bit 31 clear has the fixed bit of format TW-C. -/
theorem and_topBit (w : Word) (h : w.getLsbD 31 = false) : w &&& 0x80000000 = 0 := by
  have hm : ∀ i : Fin 32, (0x80000000 : Word)[i.val] = decide (i.val = 31) := by decide
  ext i hi
  have := hm ⟨i, hi⟩
  simp at *
  grind

theorem contWord_and_topBit (p : BitVec 31) : contWord p &&& 0x80000000 = 0 :=
  and_topBit _ (typeDefining_contWord p)

namespace EncodingMatchesRow

theorem blkhdr (slot : Slot) (modid : BitVec 4) (blknum : BitVec 10) (nevt : BitVec 8) : Statement (.blkhdr slot modid blknum nevt) := by
  refine (typedWord_and_mask _ _ ?_).trans (by simp only [rowBits]; decide)
  intro j hj
  simp [place]
  grind

theorem blktrl (slot : Slot) (nwords : BitVec 22) : Statement (.blktrl slot nwords) := by
  refine (typedWord_and_mask _ _ ?_).trans (by simp only [rowBits]; decide)
  intro j hj
  simp [place]
  grind

theorem evhdr (slot : Slot) (trigtime : BitVec 10) (evtnum : BitVec 12) : Statement (.evhdr slot trigtime evtnum) := by
  refine (typedWord_and_mask _ _ ?_).trans (by simp only [rowBits]; decide)
  intro j hj
  simp [place]
  grind

theorem trgtime (time1 : BitVec 27) : Statement (.trgtime time1) := by
  refine (typedWord_and_mask _ _ ?_).trans (by simp only [rowBits]; decide)
  intro j hj
  simp [place]
  grind

theorem undef4 (payload : BitVec 27) : Statement (.undef4 payload) := by
  refine (typedWord_and_mask _ _ ?_).trans (by simp only [rowBits]; decide)
  intro j hj
  simp [place]
  grind

theorem undef5 (payload : BitVec 27) : Statement (.undef5 payload) := by
  refine (typedWord_and_mask _ _ ?_).trans (by simp only [rowBits]; decide)
  intro j hj
  simp [place]
  grind

theorem undef6 (payload : BitVec 27) : Statement (.undef6 payload) := by
  refine (typedWord_and_mask _ _ ?_).trans (by simp only [rowBits]; decide)
  intro j hj
  simp [place]
  grind

theorem undef7 (payload : BitVec 27) : Statement (.undef7 payload) := by
  refine (typedWord_and_mask _ _ ?_).trans (by simp only [rowBits]; decide)
  intro j hj
  simp [place]
  grind

theorem dechdr (ign : BitVec 21) (n : Count) : Statement (.dechdr ign n) := by
  refine (typedWord_and_mask _ _ ?_).trans (by simp only [rowBits]; decide)
  intro j hj
  simp [place]
  grind

theorem undef9 (payload : BitVec 27) : Statement (.undef9 payload) := by
  refine (typedWord_and_mask _ _ ?_).trans (by simp only [rowBits]; decide)
  intro j hj
  simp [place]
  grind

theorem undef10 (payload : BitVec 27) : Statement (.undef10 payload) := by
  refine (typedWord_and_mask _ _ ?_).trans (by simp only [rowBits]; decide)
  intro j hj
  simp [place]
  grind

theorem undef11 (payload : BitVec 27) : Statement (.undef11 payload) := by
  refine (typedWord_and_mask _ _ ?_).trans (by simp only [rowBits]; decide)
  intro j hj
  simp [place]
  grind

theorem undef12 (payload : BitVec 27) : Statement (.undef12 payload) := by
  refine (typedWord_and_mask _ _ ?_).trans (by simp only [rowBits]; decide)
  intro j hj
  simp [place]
  grind

theorem eoe (ign : BitVec 27) : Statement (.eoe ign) := by
  refine (typedWord_and_mask _ _ ?_).trans (by simp only [rowBits]; decide)
  intro j hj
  simp [place]
  grind

theorem dnv (slot : Slot) (ign : BitVec 22) : Statement (.dnv slot ign) := by
  refine (typedWord_and_mask _ _ ?_).trans (by simp only [rowBits]; decide)
  intro j hj
  simp [place]
  grind

theorem fill (slot : Slot) (ign : BitVec 22) : Statement (.fill slot ign) := by
  refine (typedWord_and_mask _ _ ?_).trans (by simp only [rowBits]; decide)
  intro j hj
  simp [place]
  grind

theorem cont (payload : BitVec 31) : Statement (.cont payload) := contWord_and_topBit payload

theorem blkhdrC (payload : BitVec 31) : Statement (.blkhdrC payload) := contWord_and_topBit payload

theorem blktrlC (payload : BitVec 31) : Statement (.blktrlC payload) := contWord_and_topBit payload

theorem evhdrC (payload : BitVec 31) : Statement (.evhdrC payload) := contWord_and_topBit payload

theorem trgtimeC (ign : BitVec 11) (time2 : BitVec 20) : Statement (.trgtimeC ign time2) := by
  refine and_topBit _ ?_
  simp [encodeWord, place]

theorem trgtimeCerr (payload : BitVec 31) : Statement (.trgtimeCerr payload) := contWord_and_topBit payload

theorem dechdrC (payload : BitVec 31) : Statement (.dechdrC payload) := contWord_and_topBit payload

theorem eoeC (payload : BitVec 31) : Statement (.eoeC payload) := contWord_and_topBit payload

theorem dnvC (payload : BitVec 31) : Statement (.dnvC payload) := contWord_and_topBit payload

theorem fillC (payload : BitVec 31) : Statement (.fillC payload) := contWord_and_topBit payload

theorem undefC (payload : BitVec 31) : Statement (.undefC payload) := contWord_and_topBit payload

theorem decdata (data : Word) : Statement (.decdata data) := BitVec.and_zero

theorem setWren : Statement .setWren := by unfold Statement; decide

theorem bulkErase : Statement .bulkErase := by unfold Statement; decide

theorem setRd : Statement .setRd := by unfold Statement; decide

theorem poll : Statement .poll := by unfold Statement; decide

theorem wrbyte (addr : EepAddr) (byte : Byte) : Statement (.wrbyte addr byte) := BitVec.and_zero

theorem rdbyte (addr : EepAddr) : Statement (.rdbyte addr) := by
  have hm : ∀ i : Fin 32, (0x000000FF : Word)[i.val] = decide (i.val < 8) := by decide
  unfold Statement rowBits
  ext i hi
  have := hm ⟨i, hi⟩
  simp [encodeWord, dataWord, place] at *
  grind

end EncodingMatchesRow

end Sys2Proof.Laws
end

