-- ==== Sys2Proof/Tests/Slice0.lean ====
section
/-! SUPPORT. Tests: words written out from the encoding tables, the refusals of the well-formedness check, single steps from
the vectors of spec/95_test_vectors.md, and for each statement with hypotheses a state and operands that meet them. -/

namespace Sys2Proof.Tests

open Sys2Proof.Machine

/-! ### Decoding: every constructor from a word written out from its row (R92 to R107; VB, VE, VD, VU of 95_test_vectors.md) -/

/-- A decoding context in Generic with the given type. -/
def generic (t : Code) : DecodeCtx := { resetCtx with lastType := t }

/-- The context after a continuation word under the given type. -/
def continuing (t : Code) : DecodeCtx := { resetCtx with lastType := t, isContinuation := true }

theorem test_decode_blkhdr : decode resetCtx (.stream 0b10000_10011_0101_1111111111_11111111) = .ok (.blkhdr 19 5 1023 255) := by
  decide
theorem test_decode_blktrl : decode resetCtx (.stream 0b10001_10011_0000000000000000010000) = .ok (.blktrl 19 16) := by
  decide
theorem test_decode_evhdr : decode resetCtx (.stream 0b10010_00011_1010101010_111111111111) = .ok (.evhdr 3 682 4095) := by
  decide
theorem test_decode_trgtime : decode resetCtx (.stream 0b10011_000000000000000000100100011) = .ok (.trgtime 0x123) := by decide
theorem test_decode_undef4 : decode resetCtx (.stream 0b10100_000000000000000000000000111) = .ok (.undef4 7) := by decide
theorem test_decode_undef5 : decode resetCtx (.stream 0b10101_100000000000000000000000001) = .ok (.undef5 0x4000001) := by decide
theorem test_decode_undef6 : decode resetCtx (.stream 0b10110_000000000000000000000000010) = .ok (.undef6 2) := by decide
theorem test_decode_undef7 : decode resetCtx (.stream 0b10111_011101110111011101110111011) = .ok (.undef7 0x3BBBBBB) := by decide
theorem test_decode_dechdr : decode resetCtx (.stream 0b11000_111111111111111111111_000011) = .ok (.dechdr 0x1FFFFF 3) := by decide
theorem test_decode_undef9 : decode resetCtx (.stream 0b11001_000000000000000000000001001) = .ok (.undef9 9) := by decide
theorem test_decode_undef10 : decode resetCtx (.stream 0b11010_000000000000000000000001010) = .ok (.undef10 10) := by decide
theorem test_decode_undef11 : decode resetCtx (.stream 0b11011_000000000000000000000001011) = .ok (.undef11 11) := by decide
theorem test_decode_undef12 : decode resetCtx (.stream 0b11100_000000000000000000000001100) = .ok (.undef12 12) := by decide
theorem test_decode_eoe : decode resetCtx (.stream 0b11101_000000000000000000000000000) = .ok (.eoe 0) := by decide
theorem test_decode_dnv : decode resetCtx (.stream 0b11110_00101_0000000000000000000001) = .ok (.dnv 5 1) := by decide
theorem test_decode_fill : decode resetCtx (.stream 0b11111_00011_0000000000000000000000) = .ok (.fill 3 0) := by decide
theorem test_decode_cont : decodeFormat 0 0b0_0000000000000000000101010111100 = .cont 0xABC := by decide
theorem test_decode_blkhdrC : decode (generic 0) (.stream 0x00000042) = .ok (.blkhdrC 0x42) := by decide
theorem test_decode_blktrlC : decode (generic 1) (.stream 0x7FFFFFFF) = .ok (.blktrlC 0x7FFFFFFF) := by decide
theorem test_decode_evhdrC : decode (generic 2) (.stream 0x00000ABC) = .ok (.evhdrC 0xABC) := by decide
theorem test_decode_trgtimeC : decode (generic 3) (.stream 0b0_11111111111_00010010001101000101) = .ok (.trgtimeC 0x7FF 0x12345) := by
  decide
theorem test_decode_trgtimeCerr : decode (continuing 3) (.stream 0x00000001) = .ok (.trgtimeCerr 1) := by decide
theorem test_decode_dechdrC : decode (generic 8) (.stream 0x00000005) = .ok (.dechdrC 5) := by decide
theorem test_decode_eoeC : decode (generic 13) (.stream 0x00000001) = .ok (.eoeC 1) := by decide
theorem test_decode_dnvC : decode (generic 14) (.stream 0x00000001) = .ok (.dnvC 1) := by decide
theorem test_decode_fillC : decode (generic 15) (.stream 0x00000105) = .ok (.fillC 0x105) := by decide
theorem test_decode_undefC : decode (generic 4) (.stream 0x00000002) = .ok (.undefC 2) := by decide
theorem test_decode_decdata : decode { resetCtx with remaining := 1 } (.stream 0x88000000) = .ok (.decdata 0x88000000) := by decide
theorem test_decode_setWren : decode resetCtx (.write 0x90 4 0x80000000) = .ok .setWren := by decide
theorem test_decode_bulkErase : decode resetCtx (.write 0x90 4 0x40000000) = .ok .bulkErase := by decide
theorem test_decode_setRd : decode resetCtx (.write 0x90 4 0x20000000) = .ok .setRd := by decide
theorem test_decode_poll : decode resetCtx (.read 0x90 4) = .ok .poll := by decide
theorem test_decode_wrbyte : decode { resetCtx with mode := .writeEnable } (.write 0x94 4 0x000002FF) = .ok (.wrbyte 2 0xFF) := by
  decide
theorem test_decode_rdbyte : decode { resetCtx with mode := .read } (.write 0x94 4 0xFFFFFF00) = .ok (.rdbyte 0xFFFFFF) := by decide

/-- VP10: a value that is no command. -/
theorem test_decode_unknown_command : decode resetCtx (.write 0x90 4 0x12345678) = .error (.unknownCommand 0x12345678) := by decide
/-- VP11: a CFG_DATA write in mode None. -/
theorem test_decode_data_in_mode_none : decode resetCtx (.write 0x94 4 0x00000001) = .error .dataWriteInModeNone := by decide
/-- U14: an access of 2 bytes. -/
theorem test_decode_width : decode resetCtx (.read 0x90 2) = .error (.width 2) := by decide
theorem test_decode_outside : decode resetCtx (.read 0x98 4) = .error (.outsideBlock 0x98) := by decide
theorem test_decode_otherRegister : decode resetCtx (.read 0x8C 4) = .error (.otherRegister 0x8C) := by decide

/-- VB1, VB5, VE1 and S6: encoded words. -/
theorem test_encode : encode (.blkhdr 19 5 1023 255) = .stream 0x84D7FFFF ∧ encode (.blktrl 19 16) = .stream 0x8CC00010 ∧
    encode (.evhdr 3 0x2AA 0xFFF) = .stream 0x90EAAFFF ∧ encode (.wrbyte 2 0xFF) = .write 0x94 4 0x000002FF ∧
    encode (.rdbyte 0xFFFFFF) = .write 0x94 4 0xFFFFFF00 ∧ encode .poll = .read 0x90 4 := by decide

/-- VB9 and VB10. -/
theorem test_framing : isBlockHeader 0x87FFFFFF = true ∧ isBlockHeader 0x00000105 = false ∧ isBlockHeader 0x88000000 = false ∧
    isBlockTrailer 0x8FFFFFFF = true ∧ isBlockTrailer 0x68000002 = false ∧ isBlockTrailer 0x08000002 = false := by decide

/-- The opcode table's word of BLKHDR with all fields 0, and a word of fewer bits. -/
theorem test_tableWord : decodeTableWord 32 0x80000000 = some (.blkhdr 0 0 0 0) ∧ decodeTableWord 8 0x105 = some (.fillC 5) ∧
    decodeTableWord 33 0 = none := by decide

/-! ### WellFormed: for each check an instruction that it refuses -/

/-- In a decoder run no row of the formats TW-T and TW-C applies. -/
theorem test_illFormed_in_run :
    let c : DecodeCtx := { resetCtx with remaining := 1 }
    [Instr.blkhdr 0 0 0 0, .blktrl 0 0, .evhdr 0 0 0, .trgtime 0, .undef4 0, .undef5 0, .undef6 0, .undef7 0, .dechdr 0 0,
      .undef9 0, .undef10 0, .undef11 0, .undef12 0, .eoe 0, .dnv 0 0, .fill 0 0, .cont 0].all
      (fun i => !i.wellFormedIn c) = true := by decide

/-- A continuation row needs its type: FillerWord refuses all of them but its own. -/
theorem test_illFormed_under_fill :
    [Instr.blkhdrC 0, .blktrlC 0, .evhdrC 0, .trgtimeC 0 0, .trgtimeCerr 0, .dechdrC 0, .eoeC 0, .dnvC 0, .undefC 0].all
      (fun i => !i.wellFormedIn (generic 15)) = true := by decide

theorem test_illFormed_fillC : (Instr.fillC 0).wellFormedIn (generic 14) = false := by decide
/-- The two TriggerTime rows exclude each other by `isContinuation`. -/
theorem test_illFormed_trgtime : (Instr.trgtimeC 0 0).wellFormedIn (continuing 3) = false ∧
    (Instr.trgtimeCerr 0).wellFormedIn (generic 3) = false := by decide
theorem test_illFormed_decdata : (Instr.decdata 0).wellFormedIn resetCtx = false := by decide
theorem test_illFormed_wrbyte : (Instr.wrbyte 0 0).wellFormedIn { resetCtx with mode := .read } = false := by decide
theorem test_illFormed_rdbyte : (Instr.rdbyte 0).wellFormedIn { resetCtx with mode := .writeEnable } = false := by decide
theorem test_wellFormed_commands : [Instr.setWren, .bulkErase, .setRd, .poll].all (·.wellFormedIn resetCtx) = true := by decide

/-! ### States -/

/-- The test parameters of spec/95_test_vectors.md, with `POLL_MAX` given. -/
def params (pollMax : Option Nat) : Config.Params :=
  { fwMaxSize := 4, eepSize := 8, pollMax := pollMax, erasedByte := 0xFF, dmaFillerWord := 0x00000007 }

/-- The reset state with the test parameters and the given moves to come. -/
def start (es : List Event) : State :=
  { State.reset with params := params none, env := { Env.reset with inputs := es } }

/-- `start` with DEC's control registers set. -/
def decState (t : Code) (c : Bool) (remaining decCount : Count) : State :=
  { start [] with dec := { Dec.reset with lastType := t, isContinuation := c, remaining := remaining, decCount := decCount } }

/-- `start` with PRG in a stage of an operation on the image 80 40 FF of program P3, the lock held and the handle there; DEV with the
erased array. -/
def prgState (g : Stage) (op : PrgOp) (addr : Nat) (m : Mode) (p : Pending) (es : List Event) : State :=
  { start es with
    prg := { Prg.reset with stage := g, op := op, addr := addr, lockHeld := true, img := [0x80, 0x40, 0xFF] },
    dev := { mode := m, pending := p, mem := Memory.eraseAll, rdata := 0x80 },
    env := { Env.reset with inputs := es, devReady := true } }

/-- `start` with DEV in a mode and with an operation pending. -/
def devState (m : Mode) (p : Pending) (es : List Event) : State :=
  { start es with dev := { mode := m, pending := p, mem := Memory.eraseAll, rdata := 0 } }

/-- The last DataWord a result holds. -/
def lastOut : Result → Option DataWord
  | .next t => t.dec.out.getLast?
  | _ => none

/-- A test on the next state; false on a fault or a refusal. -/
def holdsNext (p : State → Bool) : Result → Bool
  | .next t => p t
  | _ => false

/-! ### Single steps -/

/-- S1c, first word. -/
theorem test_blkhdr : lastOut (step (start [.word 0x80000105])) =
    some ⟨0x80000105, 0, true, .blockHeader, none, .blockHeader 0 0 1 5, .none⟩ := by decide
theorem test_blktrl : lastOut (step (start [.word 0x88000002])) =
    some ⟨0x88000002, 1, true, .blockTrailer, none, .blockTrailer 0 2, .none⟩ := by decide
/-- P2, word 1. -/
theorem test_evhdr : lastOut (step (start [.word 0x90C05007])) =
    some ⟨0x90C05007, 2, true, .eventHeader, none, .eventHeader 3 5 7, .none⟩ := by decide
/-- P2, word 2. -/
theorem test_trgtime : lastOut (step (start [.word 0x98ABCDEF])) =
    some ⟨0x98ABCDEF, 3, true, .triggerTime, none, .time1 0xABCDEF, .none⟩ := by decide
/-- S2. -/
theorem test_first_word : lastOut (step (start [.word 0x7FFFFFFF])) =
    some ⟨0x7FFFFFFF, 15, false, .fillerWord, none, .none, .none⟩ := by decide
/-- VC1, second word. -/
theorem test_undef4 : lastOut (step (start [.word 0xA0000007])) =
    some ⟨0xA0000007, 4, true, .undefined 4, none, .none, .none⟩ := by decide
/-- P2, word 6. -/
theorem test_fill : lastOut (step (start [.word 0xF8C00000])) = some ⟨0xF8C00000, 15, true, .fillerWord, none, .slot 3, .none⟩ := by
  decide
/-- VE7: bits 30:20 are ignored. -/
theorem test_trgtimeC : lastOut (exec (.trgtimeC 0x7FF 0) (decState 3 false 0 0)) =
    some ⟨0x7FF00000, 3, false, .triggerTime, none, .time2 0, .none⟩ := by decide
/-- VE5, third word. -/
theorem test_trgtimeCerr : holdsNext (fun t => t.dec.protoErr && t.dec.isContinuation) (exec (.trgtimeCerr 0x789) (decState 3 true 0 0)) =
    true := by decide
/-- VD1, third word: bits 26:6 are ignored. -/
theorem test_dechdr_ignored_bits : holdsNext (fun t => t.dec.remaining == 0 && t.dec.decCount == 0) (step (start [.word 0xC7FFFFC0])) =
    true := by decide
/-- VD3, second word: a captured decoder header starts no run. -/
theorem test_decdata : lastOut (exec (.decdata 0xC0000002) (decState 8 false 3 3)) =
    some ⟨0xC0000002, 8, false, .decoderData, some 0, .none, .none⟩ ∧
    holdsNext (fun t => t.dec.remaining == 2 && t.dec.decCount == 3) (exec (.decdata 0xC0000002) (decState 8 false 3 3)) = true := by
  decide
/-- VP9. -/
theorem test_cmd_while_busy : exec .setWren (devState .none .erase []) = .fault .cmdWhileBusy := rfl
/-- VP12. -/
theorem test_wrbyte_beyond : exec (.wrbyte 8 0) (devState .writeEnable .none []) = .refused (.addressBeyondEeprom 8) := rfl
theorem test_rdbyte_last : holdsNext (fun t => t.dev.pending == .read 7) (exec (.rdbyte 7) (devState .read .none [])) = true := by
  decide
/-- VP7: the byte is stored, its mark cleared. -/
theorem test_write_completes :
    holdsNext (fun t => t.dev.mem.read t.params 2 == 0x80 && !t.dev.mem.erased 2 && t.dev.mem.erased 3)
      (step (devState .writeEnable (.write 2 0x80) [.devComplete])) = true := by decide
/-- VP8. -/
theorem test_read_completes : holdsNext (fun t => t.dev.rdata == 0xFF) (step (devState .read (.read 2) [.devComplete])) = true := by
  decide
/-- A write of what an unlisted address reads as lists nothing (the canonical form). -/
theorem test_store_canonical : (Memory.eraseAll.store (params none) 2 0xFF).cells = [] ∧
    ((Memory.eraseAll.store (params none) 5 1).store (params none) 2 3).cells = [(2, 3), (5, 1)] := by decide
/-- R203 and R200: 12H gives 48H, 34H gives 2CH. -/
theorem test_revb : revb 0x12 = 0x48 ∧ revb 0x34 = 0x2C ∧ revb 0xB1 = 0x8D := by decide
/-- VL1. -/
theorem test_load : holdsNext (fun t => t.prg.img == [0x80, 0x40, 0xFF] && t.prg.result == .ok)
    (step (start [.cmd (.loadImage [some 0x01, some 0x02, some 0xFF])])) = true := by decide
/-- VL3. -/
theorem test_load_too_large : holdsNext (fun t => t.prg.img == [] && t.prg.result == .imageTooLarge)
    (step (start [.cmd (.loadImage [some 0, some 0, some 0, some 0, some 0])])) = true := by decide
/-- VL5. -/
theorem test_load_read_fails : holdsNext (fun t => t.prg.img == [] && t.prg.result == .ioError)
    (step (start [.cmd (.loadImage [some 1, some 2, none])])) = true := by decide
/-- VS3: `NotInitialized` is checked first. -/
theorem test_not_initialized : holdsNext (fun t => t.prg.result == .notInitialized) (step (start [.cmd .startSession])) = true := by
  decide
/-- S3 with `maxWords` 3: three words, the trailer not reached. -/
theorem test_pio_exhausted :
    holdsNext (fun t => t.env.srcResult == .words 3 && t.env.inputs == [.word 0x80000101, .word 0x90000001, .word 0xE8000000])
      (step { start [.srcPio 3 false none] with env := { (start [.srcPio 3 false none]).env with
        fifo := [0x80000101, 0x90000001, 0xE8000000, 0x88000004] } }) = true := by decide

/-- R265: the read of word 1 fails: nothing is delivered, word 0 is gone. -/
theorem test_pio_read_error : holdsNext (fun t => t.env.srcResult == .readError && t.env.inputs == [] && t.env.fifo == [0x90000001])
    (step { start [] with env := { Env.reset with inputs := [.srcPio 3 false (some 1)], fifo := [0x80000101, 0x90000001] } }) =
      true := by decide
/-- R215: without the handle EraseCmd writes no register. -/
theorem test_handle_lost : holdsNext (fun t => t.prg.ending == .notInitialized && t.dev.pending == .none && t.prg.trace == [])
    (step { prgState .eraseCmd .session 0 .none .none [] with env := Env.reset }) = true := by decide
/-- R249: an answer that waits for the lock is gone once HOST declines. -/
theorem test_answer_replaced : holdsNext (fun t => t.env.blocked == [] && t.prg.result == .declined)
    (step { start [] with prg := { Prg.reset with stage := .confirm, op := .session, img := [1] },
                          env := { Env.reset with inputs := [.confirm false], blocked := [.confirm true], lockOther := some 1 } }) =
      true := by decide
/-- R72: a thread that does not hold the lock waits while thread 1 holds it; thread 1 does not. -/
theorem test_access_of_holder_only :
    let s := fun (who : Nat) => { start [] with env := { Env.reset with inputs := [.hostWrite who 0x90 4 0x80000000],
                                                                        lockOther := some 1 } }
    holdsNext (fun t => t.dev.mode == .none && t.env.blocked == [.hostWrite 2 0x90 4 0x80000000]) (step (s 2)) = true ∧
    holdsNext (fun t => t.dev.mode == .writeEnable && t.env.blocked == []) (step (s 1)) = true := by decide
/-- R250, R311: with no move listed PRG takes its step by itself. -/
theorem test_moves_alone : holdsNext (fun t => t.prg.stage == .wrByte && t.dev.mode == .writeEnable)
    (step (prgState .wrMode .session 0 .none .none [])) = true := by decide

/-! ### Witnesses: for each statement with hypotheses, values that meet them -/

theorem witness_DecodeOfEncode : (Instr.blkhdr 31 15 1023 255).wellFormedIn resetCtx = true ∧
    (Instr.cont 0x7FFFFFFF).wellFormedIn resetCtx = true := by decide
theorem witness_EncodeOfDecode : decode resetCtx (.stream 0xFFFFFFFF) = .ok (.fill 31 0x3FFFFF) ∧
    decode resetCtx (.write 0x90 4 0x20000000) = .ok .setRd ∧
    decode { resetCtx with mode := .read } (.write 0x94 4 0x000001FF) = .ok (.rdbyte 1) ∧
    decode { resetCtx with mode := .writeEnable } (.write 0x94 4 0x000001FF) = .ok (.wrbyte 1 0xFF) ∧
    decode resetCtx (.read 0x90 4) = .ok .poll := by decide
theorem witness_StreamDecodingTotalAndUnique : (Instr.fillC 1).wellFormedIn resetCtx = true ∧ encode (.fillC 1) = .stream 1 := by
  decide
theorem witness_UndefinedRegisterAccessesRefused : (3 ≠ 4) ∧ (0x91 % 4 ≠ 0) ∧ (0x8C % 4 = 0 ∧ 0x8C < 0x90) ∧
    (0x98 % 4 = 0 ∧ 0x94 < 0x98) ∧ (start []).dev.pending = .none ∧
    (start []).dev.mode = .none ∧ (0x80000001 : Word) ≠ 0x80000000 := by decide
theorem witness_StepRunsStreamWord : (start [.word 0x88000002]).env.inputs = .word 0x88000002 :: [] ∧
    decode (start [.word 0x88000002]).ctx (.stream 0x88000002) = .ok (.blktrl 0 2) := ⟨rfl, rfl⟩
/-- With the lock free, and with thread 1 holding it. -/
theorem witness_StepRunsHostAccess :
    let s := fun (h : Option Nat) (e : Event) => { start [] with env := { Env.reset with inputs := [e], lockOther := h } }
    (s none (.hostWrite 1 0x90 4 0x80000000)).prg.lockHeld = false ∧
    (s none (.hostWrite 1 0x90 4 0x80000000)).env.lockOther = none ∧
    (s (some 1) (.hostRead 1 0x90 4)).env.lockOther = some 1 ∧
    (s none (.hostWrite 1 0x90 4 0x80000000)).env.inputs = .hostWrite 1 0x90 4 0x80000000 :: [] ∧
    decode (s none (.hostWrite 1 0x90 4 0x80000000)).ctx (.write 0x90 4 0x80000000) = .ok .setWren ∧
    (s (some 1) (.hostRead 1 0x90 4)).env.inputs = .hostRead 1 0x90 4 :: [] ∧
    decode (s (some 1) (.hostRead 1 0x90 4)).ctx (.read 0x90 4) = .ok .poll := ⟨rfl, rfl, rfl, rfl, rfl, rfl, rfl⟩
/-- Each stage; a move listed and none, this one without the handle too; polls that see BUSY = 0 in ErasePoll, at an inner byte and at the last byte. -/
theorem witness_PrgStepRunsItsInstruction :
    (prgState .eraseCmd .session 0 .none .none []).env.devReady = true ∧
    (prgState .eraseCmd .session 0 .none .none []).prg.img ≠ [] ∧
    lockingStage (prgState .eraseCmd .session 0 .none .none []).prg.stage = true ∧
    (let lost := { State.reset with prg := { Prg.reset with stage := .erasePoll } }
     lost.env.devReady = false ∧ lost.env.inputs = [] ∧ lockingStage lost.prg.stage = true) ∧
    (∃ t, exec .bulkErase (popped (prgState .eraseCmd .session 0 .none .none [.prg false]) []) = .next t) ∧
    (∃ t, exec .setWren (popped (prgState .wrMode .session 0 .none .none [.prg false]) []) = .next t) ∧
    ((prgState .wrByte .session 2 .writeEnable .none [.prg false]).prg.img[2]? = some 0xFF ∧
      ∃ t, exec (.wrbyte 2 0xFF) (popped (prgState .wrByte .session 2 .writeEnable .none [.prg false]) []) = .next t) ∧
    (∃ t, exec .setRd (popped (prgState .rdMode .session 3 .writeEnable .none [.prg false]) []) = .next t) ∧
    (∃ t, exec (.rdbyte 0) (popped (prgState .rdByte .session 0 .read .none [.prg false]) []) = .next t) ∧
    (∃ t, exec .poll (popped (prgState .rdPoll .session 0 .read (.read 0) [.prg false]) []) = .next t) ∧
    (prgState .erasePoll .session 0 .none .none [.prg false]).prg.op ≠ .eraseAll ∧
    (prgState .wrPoll .session 1 .writeEnable .none [.prg false]).prg.addr + 1 <
      (prgState .wrPoll .session 1 .writeEnable .none [.prg false]).prg.imgSize ∧
    (prgState .wrPoll .session 2 .writeEnable .none [.prg false]).prg.imgSize ≤
      (prgState .wrPoll .session 2 .writeEnable .none [.prg false]).prg.addr + 1 ∧
    (prgState .rdPoll .session 2 .read .none [.prg false]).prg.img[2]? = some 0xFF :=
  ⟨rfl, by decide, rfl, ⟨rfl, rfl, rfl⟩, ⟨_, rfl⟩, ⟨_, rfl⟩, ⟨rfl, _, rfl⟩, ⟨_, rfl⟩, ⟨_, rfl⟩, ⟨_, rfl⟩,
   by decide, by decide, by decide, rfl⟩
theorem witness_BlockFramingWords : (start []).dec.remaining = 0 ∧ (0x87FFFFFF : Word) &&& 0xF8000000 = 0x80000000 ∧
    (0x8FFFFFFF : Word) &&& 0xF8000000 = 0x88000000 := by decide
theorem witness_EventWords : (start []).dec.remaining = 0 ∧ (0x97FFFFFF : Word) &&& 0xF8000000 = 0x90000000 ∧
    (0x9FFFFFFF : Word) &&& 0xF8000000 = 0x98000000 ∧ (0xEFFFFFFF : Word) &&& 0xF8000000 = 0xE8000000 := by decide
theorem witness_StatusWords : (start []).dec.remaining = 0 ∧ (0xF0000000 : Word) &&& 0xF8000000 = 0xF0000000 ∧
    (0xFFFFFFFF : Word) &&& 0xF8000000 = 0xF8000000 := by decide
theorem witness_UndefinedCodeWords : (start []).dec.remaining = 0 ∧
    ([(0xA7FFFFFF, 0xA0000000), (0xAFFFFFFF, 0xA8000000), (0xB7FFFFFF, 0xB0000000), (0xBFFFFFFF, 0xB8000000),
      (0xCFFFFFFF, 0xC8000000), (0xD7FFFFFF, 0xD0000000), (0xDFFFFFFF, 0xD8000000), (0xE7FFFFFF, 0xE0000000)] :
      List (Word × Word)).all (fun p => p.1 &&& 0xF8000000 == p.2) = true := by decide
theorem witness_DecoderHeaderStartsRun : (start []).dec.remaining = 0 ∧ (0xC7FFFFFF : Word) &&& 0xF8000000 = 0xC0000000 ∧
    (0xC0000000 : Word) &&& 0xF8000000 = 0xC0000000 := by decide
theorem witness_PlainContinuationWords : (decState 0 false 0 0).dec.remaining = 0 ∧ (0x7FFFFFFF : Word).getLsbD 31 = false ∧
    ([0, 1, 2, 8, 13, 14, 15] : List Code).all (fun t => (decState t false 0 0).dec.lastType == t) = true ∧
    (decState 12 true 0 0).dec.lastType ∈ ([4, 5, 6, 7, 9, 10, 11, 12] : List Code) := by decide
theorem witness_TriggerTimeContinuations : (decState 3 false 0 0).dec.remaining = 0 ∧ (0x7FFFFFFF : Word).getLsbD 31 = false ∧
    (decState 3 false 0 0).dec.lastType = 3 ∧ (decState 3 false 0 0).dec.isContinuation = false ∧
    (decState 3 true 0 0).dec.isContinuation = true := by decide
theorem witness_GenericContinuationIsItsRow : decode (decState 3 true 0 0).ctx (encode (.cont 5)) = .ok (.trgtimeCerr 5) ∧
    decode (decState 8 false 1 1).ctx (encode (.cont 5)) = .ok (.decdata 5) := by decide
theorem witness_CapturedWord : (decState 8 false 63 63).dec.remaining ≠ 0 ∧ (decState 8 false 1 63).dec.remaining ≠ 0 := by decide
theorem witness_RunSuppressesClassification : (decState 8 false 1 1).dec.remaining ≠ 0 ∧ (Instr.blkhdr 0 0 0 0).onStream = true := by
  decide
theorem witness_RowsAreDecStep : (Instr.undefC 0).onStream = true ∧ (start [.word 0]).env.inputs = .word 0 :: [] := ⟨rfl, rfl⟩
theorem witness_DecoderRunCapturesItsWords :
    (start [.word 0xC0000002, .word 0x80000000, .word 0xFFFFFFFF]).dec.remaining = 0 ∧
    (0xC0000002 : Word) &&& 0xF8000000 = 0xC0000000 ∧
    ([0x80000000, 0xFFFFFFFF] : List Word).length = ((0xC0000002 : Word).extractLsb' 0 6).toNat ∧
    (start [.word 0xC0000002, .word 0x80000000, .word 0xFFFFFFFF]).env.inputs =
      .word 0xC0000002 :: (([0x80000000, 0xFFFFFFFF] : List Word).map Event.word ++ []) := by decide
theorem witness_FirstWordQuirk : (start [.word 0]).dec = Dec.reset ∧ (0 : Word).getLsbD 31 = false ∧
    (start [.word 0]).env.inputs = .word 0 :: [] ∧ ∃ t, step (start [.word 0]) = .next t := ⟨rfl, rfl, rfl, _, rfl⟩
theorem witness_DecResetValues : (start [.decRst]).env.inputs = .decRst :: [] := rfl
theorem witness_BufferEntryValidity :
    let s := { decState 8 false 1 3 with env := { Env.reset with inputs := [.bufRead 1] } }
    s.env.inputs = .bufRead 1 :: [] ∧ s.dec.remaining.toNat ≤ s.dec.decCount.toNat ∧
    1 < s.dec.decCount.toNat - s.dec.remaining.toNat ∧ s.dec.decCount.toNat - s.dec.remaining.toNat ≤ 2 := by decide
theorem witness_SaveRestoreResumesStream :
    (decState 8 false 1 2).dec.remaining.toNat ≤ (decState 8 false 1 2).dec.decCount.toNat ∧
    (start [.decSave]).env.inputs = .decSave :: [] ∧
    (let r : DecRecord := ⟨8, false, 1, 3, [5, 6]⟩
     (start [.decRestore r]).env.inputs = .decRestore r :: [] ∧ r.remaining.toNat ≤ r.decCount.toNat ∧
       r.buf.length = r.decCount.toNat - r.remaining.toNat ∧ 1 < r.buf.length ∧ r.buf.length ≤ 2) := by decide
theorem witness_BadRestoreRefused : (start [.decRestore ⟨8, false, 2, 1, []⟩]).env.inputs = .decRestore ⟨8, false, 2, 1, []⟩ :: [] ∧
    (⟨8, false, 2, 1, []⟩ : DecRecord).decCount.toNat < (⟨8, false, 2, 1, []⟩ : DecRecord).remaining.toNat := by decide
theorem witness_ProtoErrIsSticky :
    (∃ t, step (start [.word 0]) = .next t) ∧
    (let s := { decState 3 true 0 0 with env := { Env.reset with inputs := [.word 0] } };
      s.dec.protoErr = false ∧ ∃ t, step s = .next t ∧ t.dec.protoErr = true) ∧
    (let s := { start [.decRst] with dec := { Dec.reset with protoErr := true } };
      s.dec.protoErr = true ∧ ∃ t, step s = .next t ∧ t.dec.protoErr = false) :=
  ⟨⟨_, rfl⟩, ⟨rfl, _, rfl, rfl⟩, ⟨rfl, _, rfl, rfl⟩⟩
theorem witness_DecAndProgrammerAreSeparate : (start [.word 0]).env.inputs = .word 0 :: [] ∧ (∃ t, step (start [.word 0]) = .next t) ∧
    (start [.prg false]).env.inputs = .prg false :: [] ∧ (∃ t, step (start [.prg false]) = .next t) ∧
    (prgState .erasePoll .session 0 .none .erase []).env.inputs = [] ∧
    ∃ t, step (prgState .erasePoll .session 0 .none .erase []) = .next t := ⟨rfl, ⟨_, rfl⟩, rfl, ⟨_, rfl⟩, rfl, _, rfl⟩
theorem witness_ModeCommands : (devState .read .none []).dev.pending = .none := rfl
theorem witness_BulkEraseStarts : (devState .read .none []).dev.pending = .none := rfl
theorem witness_DataWordsStart : (devState .writeEnable .none []).dev.pending = .none ∧
    (7 : EepAddr).toNat < (devState .writeEnable .none []).params.eepSize ∧
    (devState .writeEnable .none []).dev.mode = .writeEnable ∧ (devState .read .none []).dev.mode = .read := by decide
theorem witness_ModeSelectsDataOperation : (devState .read .none []).dev.mode = .read ∧
    (devState .writeEnable .none []).dev.mode = .writeEnable := by decide
theorem witness_CommandWhileBusyFaults : (devState .read (.read 7) []).dev.pending ≠ .none := by decide
theorem witness_AddressBeyondEepromRefused : (devState .read .none []).dev.pending = .none ∧
    (devState .read .none []).params.eepSize ≤ (8 : EepAddr).toNat ∧ (devState .read .none []).dev.mode = .read ∧
    (devState .writeEnable .none []).dev.mode = .writeEnable := by decide
theorem witness_EraseCompletion : (devState .none .erase [.devComplete]).env.inputs = .devComplete :: [] ∧
    (devState .none .erase [.devComplete]).dev.pending = .erase := by decide
theorem witness_WriteCompletion :
    let s := devState .writeEnable (.write 7 0x40) [.devComplete]
    s.env.inputs = .devComplete :: [] ∧ s.dev.pending = .write 7 0x40 ∧ s.dev.mem.wf s.params = true ∧
      s.dev.mem.erased (7 : EepAddr).toNat = true := by decide
theorem witness_ReadCompletion : (devState .read (.read 7) [.devComplete]).env.inputs = .devComplete :: [] ∧
    (devState .read (.read 7) [.devComplete]).dev.pending = .read 7 := by decide
theorem witness_WrittenByteReadsBack :
    let es : List Event := [.hostWrite 1 0x94 4 ((7 : EepAddr) ++ (0x40 : Byte)), .devComplete, .hostWrite 1 0x90 4 0x20000000,
      .hostWrite 1 0x94 4 ((7 : EepAddr) ++ 0#8), .devComplete, .hostRead 1 0x90 4]
    let s := devState .writeEnable .none es
    s.dev.mem.wf s.params = true ∧ s.dev.mem.erased (7 : EepAddr).toNat = true ∧ (7 : EepAddr).toNat < s.params.eepSize ∧
      s.dev.pending = .none ∧ s.dev.mode = .writeEnable ∧ s.prg.lockHeld = false ∧ s.env.lockOther = none ∧ s.env.inputs = es ++ [] := by decide
/-- The capacity is 4: a file of 4 bytes, a read that fails at index 4, and a fifth byte. -/
theorem witness_LoadImageOutcome : (start [.cmd (.loadImage [])]).prg.stage = .idle ∧
    ([1, 2, 3, 4] : List Byte).length ≤ (start []).params.fwMaxSize ∧
    (4 ≤ (start []).params.fwMaxSize ∧ ([some 1, some 2, some 3, some 4, none] : List (Option Byte))[4]? = some none) ∧
    (start []).params.fwMaxSize < ([some 1, some 2, some 3, some 4, some 5] : List (Option Byte)).length ∧
    (start [.cmd (.loadImage [none])]).env.inputs = .cmd (.loadImage [none]) :: [] := by decide
theorem witness_PreconditionsBeforeAnyAccess : (start [.cmd .eraseAll]).prg.stage = .idle ∧
    (start [.cmd .eraseAll]).env.inputs = .cmd .eraseAll :: [] ∧ (∀ f, PrgCmd.eraseAll ≠ .loadImage f) ∧
    (start [.cmd .eraseAll]).env.devReady = false ∧
    (let s := { start [.cmd .startSession] with env := { Env.reset with inputs := [.cmd .startSession], devReady := true } };
      s.env.devReady = true ∧ s.prg.img = []) ∧
    (let s := prgState .wrMode .session 0 .none .none [.prg true]
     s.prg.stage ∈ [Stage.eraseCmd, .wrMode, .rdMode] ∧ s.env.inputs = .prg true :: [] ∧ s.env.devReady = true ∧
       { s.prg with img := [] }.img = [] ∧ { s.env with devReady := false }.devReady = false) :=
  ⟨rfl, rfl, by simp, rfl, ⟨rfl, rfl⟩, by decide, rfl, rfl, rfl, rfl⟩
theorem witness_ConfirmationGate :
    let s := fun (b : Bool) (other : Option Nat) => { start [] with
      prg := { Prg.reset with stage := .confirm, op := .session, img := [1] },
      env := { Env.reset with inputs := [.confirm b], lockOther := other } }
    (s false none).prg.stage = .confirm ∧ (s false none).env.inputs = .confirm false :: [] ∧
    (s true none).env.inputs = .confirm true :: [] ∧ (s true none).prg.lockHeld = false ∧ (s true none).env.lockOther = none ∧
    (s true (some 1)).prg.lockHeld = false ∧ (s true (some 1)).env.lockOther ≠ none ∧
    (let u := { start [] with prg := { Prg.reset with img := [1] },
                              env := { Env.reset with inputs := [.cmd .startSession], devReady := true } }
     u.prg.stage = .idle ∧ u.env.inputs = .cmd .startSession :: [] ∧ u.env.devReady = true ∧ u.prg.img ≠ []) := by decide
theorem witness_BusyProgrammerAcceptsNothing : (prgState .erasePoll .session 0 .none .erase [.prgRst]).prg.stage ≠ .idle ∧
    (prgState .erasePoll .session 0 .none .erase [.prgRst]).env.inputs = .prgRst :: [] ∧
    (prgState .finish .session 0 .none .none [.cmd .verify]).env.inputs = .cmd .verify :: [] := by decide
theorem witness_PrgResetValues : (start [.prgRst]).prg.stage = .idle ∧ (start [.prgRst]).env.inputs = .prgRst :: [] := by decide
theorem witness_FailedAccessEndsOperation :
    let s := prgState .wrByte .session 2 .writeEnable .none [.prg true]
    let u := { prgState .rdMode .session 2 .writeEnable .none [] with env := { Env.reset with inputs := [.prg false] } }
    s.env.inputs = .prg true :: [] ∧ lockingStage s.prg.stage = true ∧ s.prg.stage ≠ .finish ∧ s.prg.addr < s.prg.imgSize ∧
      s.env.devReady = true ∧ s.prg.img ≠ [] ∧ u.env.inputs = .prg false :: [] ∧ u.env.devReady = false := by
  decide
/-- With `POLL_MAX` 3: the third busy poll, the second, and no bound. -/
theorem witness_BusyPollCountsAndTimesOut :
    let s := fun (m : Option Nat) (n : Nat) =>
      let s := prgState .wrPoll .session 1 .writeEnable (.write 1 0x40) [.prg false]
      { s with params := params m, prg := { s.prg with polls := n } }
    (s none 0).env.inputs = .prg false :: [] ∧ (s none 0).dev.pending ≠ .none ∧ (s none 0).prg.stage = .wrPoll ∧
    (s none 0).env.devReady = true ∧ { (s none 0).env with inputs := [] }.inputs = [] ∧
    (s none 0).params.pollMax = none ∧ (s (some 3) 2).params.pollMax = some 3 ∧ 3 ≤ (s (some 3) 2).prg.polls + 1 ∧
    (s (some 3) 1).prg.polls + 1 < 3 := by decide
theorem witness_ProgressMarkers :
    let s := prgState .erasePoll .session 0 .none .erase [.prg false]
    let s' := { s with prg := { s.prg with polls := 99 } }
    s'.env.inputs = .prg false :: [] ∧ s'.prg.stage = .erasePoll ∧ s'.dev.pending ≠ .none ∧ (s'.prg.polls + 1) % 100 = 0 ∧
      (99999 + 1) % 100000 = 0 ∧ s'.env.devReady = true ∧
      (prgState .rdPoll .session 0 .read (.read 0) [.prg false]).prg.stage = .rdPoll ∧
      (prgState .wrMode .session 0 .read .none [.prg true]).env.inputs = .prg true :: [] := by decide
theorem witness_VerificationComparesEveryByte :
    let s := fun (a : Nat) (e : Bool) =>
      let s := prgState .rdPoll .session a .read .none [.prg false]
      { s with prg := { s.prg with verifyErr := e, mm := { s.prg.mm with valid := e } } }
    (s 1 false).env.inputs = .prg false :: [] ∧ (s 1 false).prg.stage = .rdPoll ∧ (s 1 false).env.devReady = true ∧
    (s 1 false).dev.pending = .none ∧
    (s 1 false).prg.img[1]? = some 0x40 ∧ (s 1 false).prg.verifyErr = false ∧ (s 1 false).dev.rdata ≠ 0x40 ∧
    (s 1 false).prg.addr + 1 < (s 1 false).prg.imgSize ∧ (s 2 true).prg.verifyErr = true ∧ (s 2 true).prg.img[2]? = some 0xFF ∧
    (s 2 true).prg.imgSize ≤ (s 2 true).prg.addr + 1 := by decide
theorem witness_StandAloneOperations :
    let s := { start [.cmd .verify] with
      prg := { Prg.reset with img := [1] }, env := { Env.reset with inputs := [.cmd .verify], devReady := true } }
    let u := { prgState .wrPoll .download 2 .writeEnable .none [.prg false] with draws := 1 }
    (PrgCmd.verify, PrgOp.verify, Stage.rdMode) ∈ [(PrgCmd.eraseAll, PrgOp.eraseAll, Stage.eraseCmd),
      (.download, .download, .wrMode), (.verify, .verify, .rdMode)] ∧
    s.prg.stage = .idle ∧ s.env.devReady = true ∧ s.prg.img ≠ [] ∧ s.prg.lockHeld = false ∧ s.env.lockOther = none ∧
    { s.env with lockOther := some 1 }.lockOther ≠ none ∧
    u.env.inputs = .prg false :: [] ∧ u.prg.op = .download ∧ u.env.devReady = true ∧ u.dev.pending = .none ∧ u.prg.stage = .wrPoll ∧
    u.prg.imgSize ≤ u.prg.addr + 1 ∧ (prgState .erasePoll .eraseAll 0 .none .none [.prg false]).prg.op = .eraseAll := by decide
theorem witness_FinishReleasesLock : (prgState .finish .session 3 .read .none [.prg false]).env.inputs = .prg false :: [] ∧
    (prgState .finish .session 3 .read .none [.prg false]).prg.stage = .finish ∧
    (prgState .finish .verify 3 .read .none [.prg false]).prg.op ≠ .session := by decide
/-- PRG holds the lock, thread 1 holds it, and nobody does. -/
theorem witness_LockHoldsOthersBack :
    let s := fun (e : Event) => prgState .erasePoll .session 0 .none .erase [e]
    let u := fun (h : Option Nat) (e : Event) =>
      { start [] with env := { Env.reset with inputs := [e], lockOther := h, blocked := h.toList.map Event.otherAcquire } }
    (s (.hostRead 2 0x90 4)).prg.lockHeld = true ∧ (s (.hostRead 2 0x90 4)).env.inputs = .hostRead 2 0x90 4 :: [] ∧
    (u (some 1) (.hostRead 2 0x90 4)).env.lockOther = some 1 ∧ 2 ≠ 1 ∧
    (u (some 1) (.hostRead 2 0x90 4)).env.inputs = .hostRead 2 0x90 4 :: [] ∧
    (u (some 1) (.hostWrite 2 0x90 4 0)).env.inputs = .hostWrite 2 0x90 4 0 :: [] ∧
    (u (some 1) (.srcPio 4 false none)).env.inputs = .srcPio 4 false none :: [] ∧
    (u (some 1) (.otherAcquire 1)).env.inputs = .otherAcquire 1 :: [] ∧
    (u none (.otherAcquire 2)).env.inputs = .otherAcquire 2 :: [] ∧ (u none (.otherAcquire 2)).prg.lockHeld = false ∧
    (u none (.otherAcquire 2)).env.lockOther = none ∧ (u (some 2) (.otherRelease 2)).env.lockOther = some 2 ∧
    (u (some 1) (.otherRelease 2)).env.lockOther ≠ some 2 ∧ (u (some 1) (.otherRelease 2)).env.inputs = .otherRelease 2 :: [] := by
  decide
/-- A delivery that ends with a trailer, one that fills the buffer, a lead word that is no header, and reads that fail; and
the spec's S3: `maxWords` 16, and a FIFO that holds the block alone, down to its trailer. -/
theorem witness_ProgrammedDelivery :
    let s := fun (m : Nat) (f : List Word) => { start [] with env := { Env.reset with inputs := [.srcPio m false none], fifo := f } }
    let bad := fun (k : Nat) (f : List Word) =>
      { start [] with env := { Env.reset with inputs := [.srcPio 3 false (some k)], fifo := f } }
    let f : List Word := [0x80000101, 0x90000001, 0x88000004]
    let t : List Word := [0x80000101, 0x90000001, 0xE8000000, 0x88000004]
    (s 3 f).prg.lockHeld = false ∧ (s 3 f).env.lockOther = none ∧ (s 3 f).env.inputs = .srcPio 3 false none :: [] ∧
    (bad 0 f).env.inputs = .srcPio 3 false (some 0) :: [] ∧ (bad 2 f).env.inputs = .srcPio 3 false (some (1 + 1)) :: [] ∧
    3 ≤ (s 3 f).env.fifo.length ∧ 2 ≤ (s 2 f).env.fifo.length ∧ (0x80000101 : Word) &&& 0xF8000000 = 0x80000000 ∧
    (0x00000007 : Word) &&& 0xF8000000 ≠ 0x80000000 ∧ 1 ≤ (s 1 [7]).env.fifo.length ∧
    (s 16 t).env.inputs = .srcPio 16 false none :: [] ∧ (s 16 t).env.fifo[3]? = some 0x88000004 ∧
    (0x88000004 : Word) &&& 0xF8000000 = 0x88000000 := by decide
theorem witness_DmaDelivery :
    let s := fun (filler fail : Bool) =>
      { start [] with env := { Env.reset with inputs := [.srcDma 2 filler fail], fifo := [1, 2] } }
    (s true false).prg.lockHeld = false ∧ (s true false).env.lockOther = none ∧ 2 ≤ (s true false).env.fifo.length ∧
    (s true false).env.inputs = .srcDma 2 true false :: [] ∧ (s false false).env.inputs = .srcDma 2 false false :: [] ∧
    (s false true).env.inputs = .srcDma 2 false true :: [] ∧ (s true true).env.inputs = .srcDma 2 true true :: [] := by decide

/-- States that meet the invariant: PRG in the middle of a verification with a read pending. -/
theorem witness_StepKeepsInvariant : StateInv (prgState .rdPoll .session 1 .read (.read 1) [.devComplete]) ∧
    ∃ t, step (prgState .rdPoll .session 1 .read (.read 1) [.devComplete]) = .next t :=
  ⟨{ params_wf := by decide, run_le := by decide, mem_wf := by decide, pending_range := by decide, img_le := by decide,
     addr_le := by decide, lock_stage := by decide, lock_one := by decide, blocked_held := by decide, answer_waits := by decide,
     op_stage := by decide, img_loaded := by decide, addr_lt := by decide, mm_flag := by decide, dev_stage := by decide }, _, rfl⟩
theorem witness_ProgrammerNeverStops : StateInv (prgState .eraseCmd .session 0 .none .none [.prg false]) ∧
    (prgState .eraseCmd .session 0 .none .none [.prg false]).env.inputs = .prg false :: [] ∧
    (prgState .eraseCmd .session 0 .none .none [.prg false]).dev.pending = .none ∧
    (let s := { prgState .eraseCmd .session 0 .none .none [] with params := params (some 3) }
     s.env.inputs = [] ∧ s.env.devReady = true ∧ lockingStage s.prg.stage = true ∧ s.params.pollMax = some 3) :=
  ⟨{ params_wf := by decide, run_le := by decide, mem_wf := by decide, pending_range := by decide, img_le := by decide,
     addr_le := by decide, lock_stage := by decide, lock_one := by decide, blocked_held := by decide, answer_waits := by decide,
     op_stage := by decide, img_loaded := by decide, addr_lt := by decide, mm_flag := by decide, dev_stage := by decide },
    rfl, rfl, rfl, rfl, rfl, rfl⟩
theorem witness_SessionBegins :
    let s := { start [] with prg := { Prg.reset with stage := .confirm, op := .session, img := [1] },
                             env := { Env.reset with inputs := [.confirm true], devReady := true } }
    StateInv s ∧ s.prg.stage = .confirm ∧ s.env.inputs = .confirm true :: [] ∧ s.env.lockOther = none ∧ LaunchPremises s :=
  ⟨{ params_wf := by decide, run_le := by decide, mem_wf := by decide, pending_range := by decide, img_le := by decide,
     addr_le := by decide, lock_stage := by decide, lock_one := by decide, blocked_held := by decide, answer_waits := by decide,
     op_stage := by decide, img_loaded := by decide, addr_lt := by decide, mm_flag := by decide, dev_stage := by decide }, rfl, rfl, rfl,
    { p1 := rfl, p2 := rfl, p3 := by decide, p5 := by decide, p6 := by decide }⟩
/-- A SESSION with nothing written yet, about to write byte 0. -/
theorem witness_SessionProgramsTheImage :
    SessionInv [0x80, 0x40, 0xFF] (prgState .wrByte .session 0 .writeEnable .none [.prg false]) ∧
    ∃ t, step (prgState .wrByte .session 0 .writeEnable .none [.prg false]) = .next t ∧ t.env.devReady = true :=
  ⟨{ inv := { params_wf := by decide, run_le := by decide, mem_wf := by decide, pending_range := by decide, img_le := by decide,
              addr_le := by decide, lock_stage := by decide, lock_one := by decide, blocked_held := by decide,
              answer_waits := by decide, op_stage := by decide, img_loaded := by decide, addr_lt := by decide, mm_flag := by decide,
              dev_stage := by decide },
     ready := rfl, session := rfl, image := rfl,
     goal := ⟨fun _ h => absurd h (Nat.not_lt_zero _), fun _ _ => ⟨rfl, rfl⟩⟩ }, _, rfl, rfl⟩

end Sys2Proof.Tests
end

