-- ==== Sys2Proof/Proofs/StepInvariant.lean ====
section
/-! PROOF. Every step keeps `StateInv`. One lemma for each operation of the model, in the order of the model's files: the clauses the
operation touches are written out, and `{ h with ... }` takes over those that speak only of what it leaves alone. The moves of
the agents are put together from these. -/

namespace Sys2Proof.Machine

variable {s t : State}

/-! ### What the invariant says of the stage -/

theorem lockingStage_iff {g : Stage} : lockingStage g = true ↔ g ≠ .idle ∧ g ≠ .confirm := by
  simp [lockingStage]

/-- The stages of an operation belong to some operation (R250, R251). -/
theorem op_ne_none_of_stageOp {g : Stage} {op : PrgOp} (h : stageOp g op = true) (hg : g ≠ .idle) : op ≠ .none := by
  rintro rfl
  cases g <;> simp_all [stageOp]

/-- Outside the stages of an operation nothing is asked of DEV. -/
theorem devAtStage_of_not_locking (h : lockingStage s.prg.stage = false) : devAtStage s = true := by
  unfold devAtStage
  cases hg : s.prg.stage <;> simp_all [lockingStage]

theorem StateInv.devAtStage_of_unlocked (h : StateInv s) (hl : s.prg.lockHeld = false) (d : Dev) :
    devAtStage { s with dev := d } = true :=
  devAtStage_of_not_locking (h.lock_stage.symm.trans hl)

/-- A state that differs only in what SRC writes (the FIFO, the moves to come, SRC's report, the draws) meets the same
invariant. -/
theorem StateInv.of_frame (h : StateInv s) (hparams : t.params = s.params) (hdec : t.dec = s.dec) (hprg : t.prg = s.prg)
    (hdev : t.dev = s.dev) (hblocked : t.env.blocked = s.env.blocked) (hlock : t.env.lockOther = s.env.lockOther) :
    StateInv t := by
  obtain ⟨params, dec, prg, dev, env, draws⟩ := t
  subst hparams hdec hprg hdev
  dsimp only at hblocked hlock
  exact
    { h with
      lock_one := fun hl => hlock.trans (h.lock_one hl)
      blocked_held := fun hf => hblocked.trans (h.blocked_held (by simpa only [lockFree, hlock] using hf))
      answer_waits := fun he => h.answer_waits (by simpa only [hblocked] using he) }

/-! ### DEC -/

theorem StateInv.typed (h : StateInv s) (code : Code) (w : Word) (f : Fields) : StateInv (typed code w f s) :=
  { h with }

theorem StateInv.continued (h : StateInv s) (code : Code) (w : Word) (f : Fields) (e : DecErr) :
    StateInv (continued code w f e s) :=
  { h with }

theorem StateInv.loadCount (h : StateInv s) (n : Count) : StateInv (loadCount n s) :=
  { h with run_le := Nat.le_refl _ }

/-- A captured word takes one from `remaining`, which is not 0 in a decoder run (R132, R168). -/
theorem StateInv.capture (h : StateInv s) (hr : s.dec.remaining ≠ 0) (w : Word) : StateInv (capture w s) :=
  { h with
    run_le := by
      have hle := h.run_le
      rw [capture_dec_remaining, capture_dec_decCount]
      bv_omega }

theorem StateInv.continuation (h : StateInv s) (w : Word) : StateInv (continuation w s) := by
  obtain ⟨f, e, hc, -⟩ := continuation_eq s w
  rw [hc]
  exact h.continued _ w f e

theorem StateInv.decStep (h : StateInv s) (w : Word) : StateInv (decStep w s) := by
  obtain ⟨hr, hd⟩ | ⟨-, -, hd⟩ | ⟨-, -, hd⟩ := decStep_cases s w <;> rw [hd]
  · exact h.capture hr w
  · obtain ⟨-, hc⟩ | ⟨-, hc⟩ := classifyTyped_cases s w <;> rw [hc]
    · exact (h.typed _ w _).loadCount _
    · exact h.typed _ w _
  · exact h.continuation w

theorem StateInv.inGeneric (h : StateInv s) (w : Word) {row : State} (hrow : StateInv row) :
    StateInv (inGeneric w s row) := by
  by_cases hr : s.dec.remaining = 0
  · rwa [inGeneric_of_generic s hr]
  · rw [inGeneric_of_run s hr]
    exact h.capture hr w

theorem StateInv.onContinuation (h : StateInv s) (w : Word) (here : Bool) {row : State} (hrow : StateInv row) :
    StateInv (onContinuation w here s row) := by
  refine h.inGeneric w ?_
  cases here
  · exact h.continuation w
  · exact hrow

/-- A row of the stream port is an emission under some type, a loaded count, or a capture. -/
theorem StateInv.exec_of_onStream (h : StateInv s) {i : Instr} (hi : i.onStream = true) (ht : exec i s = .next t) :
    StateInv t := by
  cases i
  case setWren | bulkErase | setRd | poll | wrbyte | rdbyte => cases hi
  case dechdr ign n =>
    cases ht
    exact h.inGeneric _ ((h.typed _ _ _).loadCount n)
  case cont p =>
    cases ht
    exact h.inGeneric _ (h.continuation _)
  case decdata w =>
    cases ht
    exact h.inGeneric w (h.decStep w)
  case blkhdrC | blktrlC | evhdrC | trgtimeC | trgtimeCerr | dechdrC | eoeC | dnvC | fillC | undefC =>
    cases ht
    exact h.onContinuation _ _ (h.continued _ _ _ _)
  all_goals
    cases ht
    exact h.inGeneric _ (h.typed _ _ _)

/-! ### DEV and the register block -/

theorem StateInv.setMode (h : StateInv s) (m : Mode) (hd : devAtStage (setMode m s) = true) : StateInv (setMode m s) :=
  { h with dev_stage := hd }

theorem StateInv.startOp (h : StateInv s) {p : Pending} (hp : pendingInRange s.params.eepSize p = true)
    (hd : devAtStage (startOp p s) = true) : StateInv (startOp p s) :=
  { h with pending_range := hp, dev_stage := hd }

theorem StateInv.drawn (h : StateInv s) : StateInv (drawn s) := { h with }

theorem StateInv.readCsr (h : StateInv s) : StateInv (readCsr s) := { h with }

theorem StateInv.readData (h : StateInv s) : StateInv (readData s) := { h with }

/-- Whatever a stage allows DEV to have pending, it allows nothing to be pending. -/
theorem devAtStage_of_completed {d : Dev} (h : devAtStage s = true) (hm : d.mode = s.dev.mode) (hp : d.pending = .none) :
    devAtStage { s with dev := d } = true := by
  unfold devAtStage at h ⊢
  cases hg : s.prg.stage <;> simp_all

theorem StateInv.devCompletes (h : StateInv s) {d : Dev} (hmem : d.mem.wf s.params = true) (hm : d.mode = s.dev.mode)
    (hp : d.pending = .none) : StateInv { s with dev := d } :=
  { h with
    mem_wf := hmem
    pending_range := by rw [hp]; rfl
    dev_stage := devAtStage_of_completed h.dev_stage hm hp }

theorem StateInv.devComplete (h : StateInv s) : StateInv (devComplete s) := by
  unfold Machine.devComplete
  split
  · exact h
  · exact h.devCompletes (wf_eraseAll _) rfl rfl
  · unfold completeWrite
    split
    · exact h.devCompletes (wf_store _ _ h.mem_wf _ _) rfl rfl
    · exact StateInv.drawn (h.devCompletes (wf_store _ _ h.mem_wf _ _) rfl rfl)
  · exact h.devCompletes h.mem_wf rfl rfl

/-- A write of CFG_DATA by another thread, which finds PRG without the lock (R72, R220, R224). -/
theorem StateInv.acceptData (h : StateInv s) (hl : s.prg.lockHeld = false) {a : EepAddr} {b : Byte}
    (ht : acceptData a b s = .next t) : StateInv t := by
  obtain ⟨-, ha, ⟨-, rfl⟩ | ⟨-, rfl⟩⟩ := acceptData_next s ht
  · exact h.startOp (p := .write a b) (decide_eq_true ha) (h.devAtStage_of_unlocked hl _)
  · exact h.startOp (p := .read a) (decide_eq_true ha) (h.devAtStage_of_unlocked hl _)

/-- While PRG is without the lock any instruction may run. -/
theorem StateInv.exec_of_unlocked (h : StateInv s) (hl : s.prg.lockHeld = false) {i : Instr} (ht : exec i s = .next t) :
    StateInv t := by
  have hdev := h.devAtStage_of_unlocked hl
  cases i
  case setWren | setRd =>
    obtain ⟨-, hk⟩ := (whenNotBusy_next s).1 ht
    cases hk
    exact h.setMode _ (hdev _)
  case bulkErase =>
    obtain ⟨-, hk⟩ := (whenNotBusy_next s).1 ht
    cases hk
    exact h.startOp rfl (hdev _)
  case poll =>
    cases ht
    exact h.readCsr
  case wrbyte | rdbyte => exact h.acceptData hl ht
  all_goals exact h.exec_of_onStream rfl ht

/-- An access that is no instruction answers a next state only as the read of CFG_DATA (R42). -/
theorem noInstruction_next {e : DecodeError} (ht : noInstruction e s = .next t) : t = readData s := by
  cases e
  case dataRead =>
    cases ht
    rfl
  case unknownCommand | dataWriteInModeNone =>
    obtain ⟨-, hk⟩ := (whenNotBusy_next s).1 ht
    cases hk
  all_goals cases ht

theorem StateInv.present_of_unlocked (h : StateInv s) (hl : s.prg.lockHeld = false) {r : Request}
    (ht : present r s = .next t) : StateInv t := by
  unfold present at ht
  split at ht
  · exact h.exec_of_unlocked hl ht
  · rw [noInstruction_next ht]
    exact h.readData

theorem onStream_decodeStream (c : DecodeCtx) (w : Word) : (decodeStream c w).onStream = true := by
  unfold decodeStream
  split_ifs
  · rfl
  · simp only [decodeTyped, apply_ite Instr.onStream]
    simp only [Instr.onStream, ite_self]
  · simp only [decodeContinuation, apply_ite Instr.onStream]
    simp only [Instr.onStream, ite_self]

/-- A word for DEC, whoever holds the lock: it reaches neither DEV nor PRG (R120). -/
theorem StateInv.present_stream (h : StateInv s) {w : Word} (ht : present (.stream w) s = .next t) : StateInv t :=
  h.exec_of_onStream (onStream_decodeStream s.ctx w) ht

/-! ### HOST: DEC's port, the lock, and the moves that wait for it -/

/-- A record that `restore` accepts has `remaining <= decCount` (R132). -/
theorem StateInv.decRestore (h : StateInv s) {r : DecRecord} (ht : decRestore r s = .next t) : StateInv t := by
  unfold Machine.decRestore at ht
  split at ht
  · next hw =>
    simp only [DecRecord.wf, Bool.and_eq_true, decide_eq_true_eq] at hw
    cases ht
    exact { h with run_le := hw.1 }
  · cases ht

theorem StateInv.bufRead (h : StateInv s) {i : Nat} (ht : bufRead i s = .next t) : StateInv t := by
  unfold Machine.bufRead at ht
  split at ht <;> cases ht
  exact { h with }

/-- A move may wait while an agent holds the lock; an answer, in Confirm only (R72, R249). -/
theorem StateInv.block (h : StateInv s) (hl : lockFree s = false) {e : Event}
    (he : isAnswer e = true → s.prg.stage = .confirm) : StateInv (block e s) :=
  { h with
    blocked_held := fun hf => absurd (hl.symm.trans hf) Bool.false_ne_true
    answer_waits := by
      rintro ⟨x, hx, hxa⟩
      rw [block_env_blocked, List.mem_append, List.mem_singleton] at hx
      obtain hx | rfl := hx
      · exact h.answer_waits ⟨x, hx, hxa⟩
      · exact he hxa }

theorem StateInv.otherAcquire (h : StateInv s) (who : Nat) : StateInv (otherAcquire who s) := by
  unfold Machine.otherAcquire
  split
  · next hf =>
    obtain ⟨hl, -⟩ := (lockFree_iff s).1 hf
    exact
      { h with
        lock_one := fun hp => absurd (hl.symm.trans hp) Bool.false_ne_true
        blocked_held := fun _ => h.blocked_held hf }
  · next hf => exact h.block (by simpa using hf) nofun

/-- The release wakes every move that waits (R72). -/
theorem StateInv.otherRelease (h : StateInv s) (who : Nat) : StateInv (otherRelease who s) := by
  unfold Machine.otherRelease
  split
  · exact { h with lock_one := fun _ => rfl, blocked_held := fun _ => rfl, answer_waits := nofun }
  · exact h

theorem StateInv.hostAccess (h : StateInv s) {who : Nat} {e : Event} {r : Request} (he : isAnswer e = false)
    (ht : hostAccess who e r s = .next t) : StateInv t := by
  obtain ⟨hl, ha⟩ | ⟨hl, ha⟩ := hostAccess_cases s who e r <;> rw [ha] at ht
  · exact h.present_of_unlocked ((lockAllows_iff s).1 hl).1 ht
  · cases ht
    exact h.block (lockFree_of_not_allows s hl) (by simp [he])

/-! ### SRC -/

theorem StateInv.readBlockPio (h : StateInv s) (m : Nat) (z : Bool) (fail : Option Nat) :
    StateInv (readBlockPio m z fail s) := by
  obtain ⟨hparams, hdec, hprg, hdev, hblocked, hlock, -⟩ := readBlockPio_frame s m z fail
  exact h.of_frame hparams hdec hprg hdev hblocked hlock

theorem StateInv.deliver (h : StateInv s) (ws : List Word) : StateInv (deliver ws s) := { h with }

theorem StateInv.readBlockDma (h : StateInv s) (n : Nat) (filler fail : Bool) :
    StateInv (readBlockDma n filler fail s) := by
  unfold Machine.readBlockDma
  split
  · exact { h with }
  · obtain ⟨hparams, hdec, hprg, hdev, -, hblocked, hlock, -⟩ := popWords_frame s n
    exact (h.of_frame hparams hdec hprg hdev hblocked hlock).deliver _

theorem StateInv.srcMove (h : StateInv s) {e : Event} {f : State → State} (he : isAnswer e = false)
    (hf : StateInv (f s)) (ht : srcMove e f s = .next t) : StateInv t := by
  unfold Machine.srcMove at ht
  split at ht <;> cases ht
  · exact hf
  · next hl => exact h.block (by simpa using hl) (by simp [he])

/-! ### PRG outside an operation: commands, the prompt, reset -/

/-- In Idle the image may be exchanged for any that fits (R33). -/
theorem StateInv.setImage (h : StateInv s) (hg : s.prg.stage = .idle) {img : List Byte}
    (himg : img.length ≤ s.params.fwMaxSize) (r : PrgResult) :
    StateInv { s with prg := { s.prg with img := img, result := r } } :=
  { h with
    img_le := himg
    img_loaded := fun hne => absurd hg hne
    addr_lt := fun hb => by
      rw [show byteStage s.prg.stage = false by rw [hg]; rfl] at hb
      cases hb
    dev_stage := devAtStage_of_not_locking (by rw [hg]; rfl) }

theorem StateInv.loadImage (h : StateInv s) (hg : s.prg.stage = .idle) (file : List (Option Byte)) :
    StateInv (loadImage file s) := by
  unfold Machine.loadImage
  split
  · next bs hbs => exact h.setImage hg (by simpa using loadLoop_length hbs (Nat.zero_le _)) .ok
  · exact h.setImage hg (Nat.zero_le _) _

/-- An operation that ends without having had the lock, with no answer waiting any more, whatever image is left (R248, R249). -/
theorem StateInv.endIdle (h : StateInv s) (hl : s.prg.lockHeld = false) (ha : ∀ e ∈ s.env.blocked, isAnswer e = false)
    (r : PrgResult) {img : List Byte} (himg : img.length ≤ s.params.fwMaxSize) :
    StateInv (endIdle r { s with prg := { s.prg with img := img } }) :=
  { h with
    img_le := himg
    lock_stage := hl
    answer_waits := fun ⟨e, he, hea⟩ => absurd ((ha e he).symm.trans hea) Bool.false_ne_true
    op_stage := rfl
    img_loaded := fun hne => absurd rfl hne
    addr_lt := nofun
    dev_stage := rfl }

/-- PRG takes the free lock and begins an operation with an image loaded (R249, R251). -/
theorem StateInv.takeLock (h : StateInv s) (hf : lockFree s = true) (himg : 0 < s.prg.imgSize) {op : PrgOp} {g : Stage}
    (hg : lockingStage g = true) (hb : byteStage g = false) (hop : stageOp g op = true)
    (hd : devAtStage (takeLock op g s) = true) : StateInv (takeLock op g s) :=
  { h with
    lock_stage := hg.symm
    lock_one := fun _ => ((lockFree_iff s).1 hf).2
    blocked_held := fun _ => h.blocked_held hf
    answer_waits := fun ⟨e, he, _⟩ => by
      rw [takeLock_env, h.blocked_held hf] at he
      cases he
    op_stage := hop
    img_loaded := fun _ => himg
    addr_lt := fun hbt => absurd (hb.symm.trans hbt) Bool.false_ne_true
    dev_stage := hd }

theorem StateInv.no_answer (h : StateInv s) (hg : s.prg.stage ≠ .confirm) : ∀ e ∈ s.env.blocked, isAnswer e = false :=
  fun e he => Bool.eq_false_iff.2 fun hea => hg (h.answer_waits ⟨e, he, hea⟩)

theorem imgSize_pos_of_precondition (hp : precondition s = none) : 0 < s.prg.imgSize :=
  List.length_pos_iff.2 ((precondition_none s).1 hp).2

theorem StateInv.unlocked_of_idle (h : StateInv s) (hg : s.prg.stage = .idle) : s.prg.lockHeld = false := by
  rw [h.lock_stage, hg]
  rfl

theorem StateInv.endIdle_of_idle (h : StateInv s) (hg : s.prg.stage = .idle) (r : PrgResult) : StateInv (Machine.endIdle r s) :=
  h.endIdle (h.unlocked_of_idle hg) (h.no_answer (by simp [hg])) r h.img_le

theorem StateInv.standAlone (h : StateInv s) (hg : s.prg.stage = .idle) (c : PrgCmd) {op : PrgOp} {g : Stage}
    (hlock : lockingStage g = true) (hb : byteStage g = false) (hop : stageOp g op = true)
    (hd : devAtStage (Machine.takeLock op g s) = true) : StateInv (standAlone c op g s) := by
  unfold Machine.standAlone
  split
  · exact h.endIdle_of_idle hg _
  · next hp =>
    split
    · next hf => exact h.takeLock hf (imgSize_pos_of_precondition hp) hlock hb hop hd
    · next hf => exact h.block (by simpa using hf) nofun

theorem StateInv.startSession (h : StateInv s) (hg : s.prg.stage = .idle) : StateInv (startSession s) := by
  unfold Machine.startSession
  split
  · exact h.endIdle_of_idle hg _
  · next hp =>
    exact
      { h with
        lock_stage := h.unlocked_of_idle hg
        answer_waits := fun _ => rfl
        op_stage := rfl
        img_loaded := fun _ => imgSize_pos_of_precondition hp
        addr_lt := nofun
        dev_stage := rfl }

theorem StateInv.command (h : StateInv s) {c : PrgCmd} (ht : command c s = .next t) : StateInv t := by
  unfold Machine.command at ht
  split at ht
  · cases ht
  · next hg =>
    have hg := not_not.1 hg
    cases c <;> cases ht
    case loadImage file => exact h.loadImage hg file
    case startSession => exact h.startSession hg
    all_goals exact h.standAlone hg _ rfl rfl rfl rfl

theorem StateInv.dropAnswers (h : StateInv s) : StateInv (dropAnswers s) :=
  { h with
    blocked_held := fun hf => by
      rw [dropAnswers_env_blocked, h.blocked_held hf]
      rfl
    answer_waits := fun ⟨e, he, hea⟩ => h.answer_waits ⟨e, (List.mem_filter.1 he).1, hea⟩ }

/-- A declined prompt ends the SESSION without its image; an accepted one takes the lock or waits for it (R249, R250). -/
theorem StateInv.answer (h : StateInv s) (b : Bool) : StateInv (answer b s) := by
  unfold Machine.answer
  split
  · exact h
  · next hg =>
    have hg : (Machine.dropAnswers s).prg.stage = .confirm := not_not.1 hg
    have hd := h.dropAnswers
    dsimp only
    split
    · exact hd.endIdle (hd.lock_stage.trans (by rw [hg]; rfl)) (fun e he => by simpa using (List.mem_filter.1 he).2) _
        (Nat.zero_le _)
    · split
      · next hf => exact hd.takeLock hf (hd.img_loaded (by rw [hg]; nofun)) rfl rfl rfl rfl
      · next hf => exact hd.block (by simpa using hf) (fun _ => hg)

theorem StateInv.prgRst (h : StateInv s) (ht : prgRst s = .next t) : StateInv t := by
  unfold Machine.prgRst at ht
  split at ht
  · cases ht
  · next hg =>
    have hg := not_not.1 hg
    have hl := h.unlocked_of_idle hg
    cases ht
    exact
      { h with
        img_le := Nat.zero_le _
        addr_le := Nat.zero_le _
        lock_stage := rfl
        lock_one := nofun
        blocked_held := fun hf => h.blocked_held (by simpa [lockFree, hl, Prg.reset] using hf)
        answer_waits := fun he => hg.symm.trans (h.answer_waits he)
        op_stage := rfl
        img_loaded := fun hne => absurd rfl hne
        addr_lt := nofun
        mm_flag := rfl
        dev_stage := rfl }

/-! ### PRG in an operation -/

/-- In a stage of an operation PRG always has a step, and the operation is one of that stage. -/
theorem StateInv.at_stage (h : StateInv s) {g : Stage} (hg : s.prg.stage = g) (hl : lockingStage g = true) :
    lockingStage s.prg.stage = true ∧ stageOp g s.prg.op = true :=
  ⟨hg ▸ hl, hg ▸ h.op_stage⟩

/-- PRG goes from one stage of an operation to another, with the address and DEV's mode and pending operation as its access left
them. The lock, the waiting moves and the image are as they were, so what is left to show is that the operation, the address
and DEV fit the new stage (R250). -/
theorem StateInv.enter (h : StateInv s) (hs : lockingStage s.prg.stage = true) {g : Stage} {a : Nat} {m : Mode} {p : Pending}
    (hg : lockingStage g = true) (hop : stageOp g s.prg.op = true) (ha : a ≤ s.params.fwMaxSize)
    (hb : byteStage g = true → a < s.prg.imgSize) (hp : pendingInRange s.params.eepSize p = true)
    (hd : devAtStage { s with dev := { s.dev with mode := m, pending := p },
                              prg := { s.prg with addr := a, stage := g } } = true) :
    StateInv { s with dev := { s.dev with mode := m, pending := p }, prg := { s.prg with addr := a, stage := g } } :=
  have hne := lockingStage_iff.1 hs
  { h with
    pending_range := hp
    addr_le := ha
    lock_stage := h.lock_stage.trans (hs.trans hg.symm)
    answer_waits := fun he => absurd (h.answer_waits he) hne.2
    op_stage := hop
    img_loaded := fun _ => h.img_loaded hne.1
    addr_lt := hb
    dev_stage := hd }

/-- The end of an operation asks nothing of the address but its bound, nor of DEV. -/
theorem StateInv.endWith_at (h : StateInv s) (hs : lockingStage s.prg.stage = true) (r : PrgResult) {a : Nat}
    (ha : a ≤ s.params.fwMaxSize) : StateInv (endWith r { s with prg := { s.prg with addr := a } }) :=
  have hop := op_ne_none_of_stageOp h.op_stage (lockingStage_iff.1 hs).1
  { h.enter hs (g := .finish) rfl (by simpa [stageOp] using hop) ha nofun h.pending_range rfl with }

theorem StateInv.endWith (h : StateInv s) (hs : lockingStage s.prg.stage = true) (r : PrgResult) :
    StateInv (endWith r s) :=
  h.endWith_at hs r h.addr_le

theorem StateInv.finish (h : StateInv s) : StateInv (finish s) :=
  { h with
    img_le := by
      rw [Prg.imgSize, finish_prg_img]
      split
      · exact Nat.zero_le _
      · exact h.img_le
    lock_stage := rfl
    lock_one := nofun
    blocked_held := fun _ => rfl
    answer_waits := nofun
    op_stage := rfl
    img_loaded := fun hne => absurd rfl hne
    addr_lt := nofun
    dev_stage := rfl }

theorem StateInv.markErase (h : StateInv s) : StateInv (markErase s) := by
  obtain ⟨-, hm⟩ | ⟨-, hm⟩ := markErase_cases s <;> rw [hm]
  · exact { h with }
  · exact h

theorem markErase_stage (s : State) : (markErase s).prg.stage = s.prg.stage := by
  obtain ⟨-, hm⟩ | ⟨-, hm⟩ := markErase_cases s <;> rw [hm]
  rfl

/-- The download's marker touches PRG's output port only (R287). -/
theorem markDownload_eq (s : State) : ∃ l, markDownload s = { s with prg := { s.prg with emitted := l } } := by
  obtain ⟨-, hm⟩ | ⟨-, hm⟩ := markDownload_cases s
  · exact ⟨_, hm⟩
  · exact ⟨_, hm⟩

theorem StateInv.stillBusy (h : StateInv s) (hs : lockingStage s.prg.stage = true) : StateInv (stillBusy s) := by
  obtain ⟨-, hb⟩ | ⟨-, hb⟩ := stillBusy_cases s <;> rw [hb]
  · exact h.endWith hs _
  · exact h

/-- The diagnostic is latched with the first mismatch that sets the error flag (R246). -/
theorem StateInv.compareByte (h : StateInv s) (expected actual : Byte) : StateInv (compareByte expected actual s) := by
  have hmm := h.mm_flag
  unfold Machine.compareByte
  dsimp only
  split
  · next hc =>
    simp only [Bool.and_eq_true] at hc
    exact { h with mm_flag := by simp [verifyErrAfter, hc.1] }
  · next hc =>
    refine { h with mm_flag := ?_ }
    cases hv : s.prg.verifyErr <;> simp_all [verifyErrAfter]

/-- A step of PRG that makes an access: an error ends the operation, else what PRG does after the access has to keep the
invariant (R215, R232, R250). -/
theorem StateInv.access (h : StateInv s) (hs : lockingStage s.prg.stage = true) {check : Option PrgResult} {fail : Bool}
    {r : Request} {k : State → Result} (ht : access check fail r s k = .next t)
    (hk : ∀ u, present r s = .next u → k (record r u) = .next t → StateInv t) : StateInv t := by
  obtain ⟨e, -, rfl⟩ | ⟨-, u, hu, ht⟩ := (access_next s).1 ht
  · exact h.endWith hs e
  · exact hk u hu ht

/-- A step of PRG that polls: the poll counts, changes nothing the invariant speaks of, and shows BUSY as it is (R226). -/
theorem StateInv.poll (h : StateInv s) (hs : lockingStage s.prg.stage = true) {check : Option PrgResult} {fail : Bool}
    {k : State → Result} (ht : Machine.access check fail (.read cfgCsrOff 4) s k = .next t)
    (hk : ∀ u, StateInv (countPoll u) → (countPoll u).prg.stage = s.prg.stage →
      csrBusy (countPoll u).env.busData = busyFlag (countPoll u).dev.pending → k u = .next t → StateInv t) :
    StateInv t := by
  refine h.access hs ht fun u hu ht => ?_
  rw [present_poll] at hu
  cases hu
  exact hk (record (.read cfgCsrOff 4) (Machine.readCsr s)) { h with } rfl (csrValue_fields s).1 ht

theorem StateInv.stepEraseCmd (h : StateInv s) (hg : s.prg.stage = .eraseCmd) {fail : Bool}
    (ht : stepEraseCmd fail s = .next t) : StateInv t := by
  obtain ⟨hs, hop⟩ := h.at_stage hg rfl
  refine h.access hs ht fun u hu ht => ?_
  obtain ⟨-, hu⟩ := (whenNotBusy_next s).1 hu
  cases hu
  cases ht
  exact { h.enter hs (g := .erasePoll) (p := .erase) rfl hop h.addr_le nofun rfl rfl with }

theorem StateInv.stepErasePoll (h : StateInv s) (hg : s.prg.stage = .erasePoll) {fail : Bool}
    (ht : stepErasePoll fail s = .next t) : StateInv t := by
  refine h.poll (h.at_stage hg rfl).1 ht fun u hu hst hbusy ht => ?_
  dsimp only at ht
  generalize countPoll u = v at *
  cases ht
  obtain ⟨hs, hop⟩ := hu.at_stage (hst.trans hg) rfl
  split
  · exact hu.markErase.stillBusy (by rwa [markErase_stage])
  · next hb =>
    have hp : v.dev.pending = .none := by simpa [hbusy] using hb
    split
    · exact hu.endWith hs _
    · next hne =>
      have hses : v.prg.op = .session := by simpa [stageOp, hne] using hop
      exact hu.enter hs rfl (by simp [stageOp, hses]) hu.addr_le nofun hu.pending_range (by simp [devAtStage, hp])

/-- PRG has set the mode of a loop and enters it at byte 0, which the image has (R242, R245). -/
theorem StateInv.enterLoop (h : StateInv s) (hs : lockingStage s.prg.stage = true) (m : Mode) {g : Stage}
    (hg : lockingStage g = true) (hop : stageOp g s.prg.op = true) (hd : devAtStage (startLoop g (Machine.setMode m s)) = true) :
    StateInv (startLoop g (Machine.setMode m s)) :=
  h.enter hs hg hop (Nat.zero_le _) (fun _ => h.img_loaded (lockingStage_iff.1 hs).1) h.pending_range hd

theorem StateInv.stepWrMode (h : StateInv s) (hg : s.prg.stage = .wrMode) {fail : Bool}
    (ht : stepWrMode fail s = .next t) : StateInv t := by
  obtain ⟨hs, hop⟩ := h.at_stage hg rfl
  refine h.access hs ht fun u hu ht => ?_
  obtain ⟨hp, hu⟩ := (whenNotBusy_next s).1 hu
  cases hu
  cases ht
  exact { h.enterLoop hs .writeEnable (g := .wrByte) rfl hop (by simp [devAtStage, hp]) with }

theorem StateInv.stepWrByte (h : StateInv s) (hg : s.prg.stage = .wrByte) {fail : Bool}
    (ht : stepWrByte fail s = .next t) : StateInv t := by
  obtain ⟨hs, hop⟩ := h.at_stage hg rfl
  obtain ⟨hm, -⟩ : s.dev.mode = .writeEnable ∧ s.dev.pending = .none := by simpa [devAtStage, hg] using h.dev_stage
  unfold Machine.stepWrByte at ht
  split at ht
  · cases ht
  · next b hb =>
    refine h.access hs ht fun u hu ht => ?_
    rw [present_data s _ _ hm] at hu
    obtain ⟨-, ha, ⟨-, rfl⟩ | ⟨hm', -⟩⟩ := acceptData_next s hu
    · cases ht
      exact { h.enter hs (g := .wrPoll) (p := .write (BitVec.ofNat 24 s.prg.addr) b) rfl hop h.addr_le
                (fun _ => h.addr_lt (by rw [hg]; rfl)) (decide_eq_true ha) (by simp [devAtStage, hm, hb]) with }
    · cases hm.symm.trans hm'

theorem StateInv.stepWrPoll (h : StateInv s) (hg : s.prg.stage = .wrPoll) {fail : Bool}
    (ht : stepWrPoll fail s = .next t) : StateInv t := by
  refine h.poll (h.at_stage hg rfl).1 ht fun u hu hst hbusy ht => ?_
  dsimp only at ht
  generalize countPoll u = v at *
  cases ht
  have hst := hst.trans hg
  obtain ⟨hs, hop⟩ := hu.at_stage hst rfl
  have hlt := hu.addr_lt (by rw [hst]; rfl)
  have hnext : v.prg.addr + 1 ≤ v.params.fwMaxSize := Nat.le_trans hlt hu.img_le
  split
  · exact hu.stillBusy hs
  · next hb =>
    have hp : v.dev.pending = .none := by simpa [hbusy] using hb
    have hm : v.dev.mode = .writeEnable := by simpa [devAtStage, hst, hp] using hu.dev_stage
    obtain ⟨l, hl⟩ := markDownload_eq (nextAddr v)
    rw [hl]
    split
    · next hin =>
      exact { hu.enter hs (g := .wrByte) rfl hop hnext (fun _ => hin) hu.pending_range (by simp [devAtStage, hm, hp]) with }
    · split
      · exact { hu.endWith_at hs .ok hnext with }
      · next hne =>
        have hses : v.prg.op = .session := by simpa [stageOp, show v.prg.op ≠ .download from hne] using hop
        exact { hu.enter hs (g := .rdMode) rfl (by simp [stageOp, hses]) hnext nofun hu.pending_range
                  (by simp [devAtStage, hp]) with }

theorem StateInv.stepRdMode (h : StateInv s) (hg : s.prg.stage = .rdMode) {fail : Bool}
    (ht : stepRdMode fail s = .next t) : StateInv t := by
  obtain ⟨hs, hop⟩ := h.at_stage hg rfl
  refine h.access hs ht fun u hu ht => ?_
  obtain ⟨hp, hu⟩ := (whenNotBusy_next s).1 hu
  cases hu
  cases ht
  exact { h.enterLoop hs .read (g := .rdByte) rfl hop (by simp [devAtStage, hp]) with mm_flag := rfl }

theorem StateInv.stepRdByte (h : StateInv s) (hg : s.prg.stage = .rdByte) {fail : Bool}
    (ht : stepRdByte fail s = .next t) : StateInv t := by
  obtain ⟨hs, hop⟩ := h.at_stage hg rfl
  obtain ⟨hm, -⟩ : s.dev.mode = .read ∧ s.dev.pending = .none := by simpa [devAtStage, hg] using h.dev_stage
  refine h.access hs ht fun u hu ht => ?_
  rw [present_dataRead s _ _ hm] at hu
  obtain ⟨-, ha, ⟨hm', -⟩ | ⟨-, rfl⟩⟩ := acceptData_next s hu
  · cases hm.symm.trans hm'
  · cases ht
    exact { h.enter hs (g := .rdPoll) (p := .read (BitVec.ofNat 24 s.prg.addr)) rfl hop h.addr_le
              (fun _ => h.addr_lt (by rw [hg]; rfl)) (decide_eq_true ha) (by simp [devAtStage, hm]) with }

theorem StateInv.stepRdPoll (h : StateInv s) (hg : s.prg.stage = .rdPoll) {fail : Bool}
    (ht : stepRdPoll fail s = .next t) : StateInv t := by
  refine h.poll (h.at_stage hg rfl).1 ht fun u hu hst hbusy ht => ?_
  dsimp only at ht
  generalize countPoll u = v at *
  have hst := hst.trans hg
  split at ht
  · cases ht
    exact hu.stillBusy (hu.at_stage hst rfl).1
  · next hb =>
    have hp : v.dev.pending = .none := by simpa [hbusy] using hb
    split at ht
    · cases ht
    · next b _ =>
      have hc := hu.compareByte b (csrRData v.env.busData)
      obtain ⟨-, -, hdev, -, -, -, -, hstage, -⟩ := compareByte_frame v b (csrRData v.env.busData)
      generalize Machine.compareByte b (csrRData v.env.busData) v = c at *
      cases ht
      rw [← hdev] at hp
      have hst := hstage.trans hst
      obtain ⟨hs, hop⟩ := hc.at_stage hst rfl
      have hm : c.dev.mode = .read := by simpa [devAtStage, hst, hp] using hc.dev_stage
      have hlt := hc.addr_lt (by rw [hst]; rfl)
      have hnext : c.prg.addr + 1 ≤ c.params.fwMaxSize := Nat.le_trans hlt hc.img_le
      split
      · next hin =>
        exact hc.enter hs (g := .rdByte) rfl hop hnext (fun _ => hin) hc.pending_range (by simp [devAtStage, hm, hp])
      · exact hc.endWith_at hs _ hnext

/-! ### Every move, and the step -/

/-- The next step of PRG, one lemma per stage (R250). -/
theorem StateInv.prgStep (h : StateInv s) {fail : Bool} (ht : prgStep fail s = .next t) : StateInv t := by
  cases hg : s.prg.stage <;> simp only [Machine.prgStep, hg] at ht
  case idle | confirm =>
    cases ht
    exact h
  case eraseCmd => exact h.stepEraseCmd hg ht
  case erasePoll => exact h.stepErasePoll hg ht
  case wrMode => exact h.stepWrMode hg ht
  case wrByte => exact h.stepWrByte hg ht
  case wrPoll => exact h.stepWrPoll hg ht
  case rdMode => exact h.stepRdMode hg ht
  case rdByte => exact h.stepRdByte hg ht
  case rdPoll => exact h.stepRdPoll hg ht
  case finish =>
    cases ht
    exact h.finish

/-- Every move of every agent keeps the invariant (R7). -/
theorem StateInv.runEvent (h : StateInv s) {e : Event} (ht : runEvent e s = .next t) : StateInv t := by
  cases e
  case word w => exact h.present_stream ht
  case decRst =>
    cases ht
    exact { h with run_le := Nat.le_refl _ }
  case decSave | devReady b | fifoFill ws =>
    cases ht
    exact { h with }
  case decRestore r => exact h.decRestore ht
  case bufRead i => exact h.bufRead ht
  case cmd c => exact h.command ht
  case confirm b =>
    cases ht
    exact h.answer b
  case prgRst => exact h.prgRst ht
  case prg fail => exact h.prgStep ht
  case devComplete =>
    cases ht
    exact h.devComplete
  case otherAcquire who =>
    cases ht
    exact h.otherAcquire who
  case otherRelease who =>
    cases ht
    exact h.otherRelease who
  case hostWrite | hostRead => exact h.hostAccess rfl ht
  case srcPio m z fail => exact h.srcMove rfl (h.readBlockPio m z fail) ht
  case srcDma n filler fail => exact h.srcMove rfl (h.readBlockDma n filler fail) ht

theorem StateInv.popped (h : StateInv s) (rest : List Event) : StateInv (popped s rest) := { h with }

/-- Settles O57: the step runs the move at the head of the list, or with none listed PRG's own. -/
theorem stepKeepsInvariant : Obligations.StepKeepsInvariant := by
  intro s t h ht
  cases hin : s.env.inputs with
  | nil =>
    rw [step_nil s hin] at ht
    split at ht
    · exact h.prgStep ht
    · cases ht
      exact h
  | cons e rest =>
    rw [step_cons s hin] at ht
    exact (h.popped rest).runEvent ht

end Sys2Proof.Machine
end

