-- ==== Sys2Proof/Proofs/SavedRecord.lean ====
section
/-! PROOF. The hidden state of DEC (R48, R133). The record that `save` puts out holds everything a later DataWord depends on: two
states with the same record give the same DataWords for every sequence of words, and `restore` makes a state with the record it
was given. -/

namespace Sys2Proof.Machine

variable {s t : State}

/-! ### The record of a state -/

/-- The valid part of the buffer lies inside its 64 entries. -/
theorem validCount_lt (d : Dec) : d.validCount < 64 := by
  have := d.decCount.isLt
  unfold Dec.validCount
  omega

@[simp] theorem savedRecord_buf_length (d : Dec) : (savedRecord d).buf.length = d.validCount := by
  have := validCount_lt d
  simp only [savedRecord, List.length_take, Vector.length_toList]
  omega

theorem decRecord_wf_iff {r : DecRecord} :
    r.wf = true ↔ r.remaining.toNat ≤ r.decCount.toNat ∧ r.buf.length = r.decCount.toNat - r.remaining.toNat := by
  simp [DecRecord.wf]

/-- What `save` puts out may be loaded again (R132). -/
theorem savedRecord_wf {d : Dec} (h : d.remaining.toNat ≤ d.decCount.toNat) : (savedRecord d).wf = true :=
  decRecord_wf_iff.2 ⟨h, savedRecord_buf_length d⟩

/-! ### Restore -/

/-- The state after a `restore` that is accepted (R133). -/
def restored (r : DecRecord) (s : State) : State :=
  { s with dec := { s.dec with lastType := r.lastType, isContinuation := r.isContinuation, remaining := r.remaining,
                               decCount := r.decCount, decBuf := fillBuf 0 r.buf s.dec.decBuf } }

theorem decRestore_of_wf {r : DecRecord} (h : r.wf = true) (s : State) : decRestore r s = .next (restored r s) :=
  if_pos h

theorem decRestore_next {r : DecRecord} (h : decRestore r s = .next t) : t = restored r s := by
  unfold decRestore at h
  split at h <;> cases h
  rfl

/-- The entries that `restore` loads are the record's words. -/
theorem getElem_fillBuf_zero (ws : List Word) (v : Vector Word 64) {i : Nat} (hi : i < ws.length) (h64 : i < 64) :
    (fillBuf 0 ws v)[i] = ws[i] := by
  rw [getElem_fillBuf, dif_pos ⟨Nat.zero_le i, hi⟩]
  rfl

theorem take_fillBuf (ws : List Word) (v : Vector Word 64) (h : ws.length ≤ 64) :
    (fillBuf 0 ws v).toList.take ws.length = ws := by
  refine List.ext_getElem (by simpa using h) fun i _ hi => ?_
  rw [List.getElem_take, Vector.getElem_toList, getElem_fillBuf_zero ws v hi]

theorem restored_validCount {r : DecRecord} (h : r.wf = true) (s : State) :
    (restored r s).dec.validCount = r.buf.length :=
  (decRecord_wf_iff.1 h).2.symm

/-- A state into which a record was loaded has that record. -/
theorem savedRecord_restored {r : DecRecord} (h : r.wf = true) (s : State) : savedRecord (restored r s).dec = r := by
  have hn := restored_validCount h s
  have hbuf : (restored r s).dec.decBuf.toList.take (restored r s).dec.validCount = r.buf := by
    rw [hn]
    exact take_fillBuf _ _ (hn ▸ (validCount_lt _).le)
  rw [savedRecord, hbuf]
  rfl

/-! ### A read of the buffer -/

theorem bufRead_of_lt {i : Nat} (h : i < s.dec.validCount) :
    bufRead i s =
      .next { s with env := { s.env with bufData := s.dec.decBuf[i]'(h.trans (validCount_lt s.dec)) } } := by
  simp [bufRead, h, h.trans (validCount_lt s.dec)]

/-- An entry that is not valid holds no value (R25, U2). -/
theorem bufRead_of_le {i : Nat} (h : s.dec.validCount ≤ i) : bufRead i s = .fault (.bufferEntryNotValid i) :=
  if_neg (Nat.not_lt.2 h)

/-! ### The record after one DEC step -/

@[simp] theorem savedRecord_typed (code : Code) (w : Word) (f : Fields) :
    savedRecord (typed code w f s).dec = { savedRecord s.dec with lastType := code, isContinuation := false } := rfl

@[simp] theorem savedRecord_continued (code : Code) (w : Word) (f : Fields) (e : DecErr) :
    savedRecord (continued code w f e s).dec = { savedRecord s.dec with isContinuation := true } := rfl

/-- A decoder header leaves no entry of the buffer valid (R165). -/
@[simp] theorem savedRecord_loadCount (n : Count) :
    savedRecord (loadCount n s).dec = { savedRecord s.dec with remaining := n, decCount := n, buf := [] } := by
  simp [savedRecord, Dec.validCount]

/-- A captured word is written behind the valid entries and becomes the last of them (R168). -/
theorem savedRecord_capture (hle : s.dec.remaining.toNat ≤ s.dec.decCount.toNat) (hr : s.dec.remaining ≠ 0) (w : Word) :
    savedRecord (capture w s).dec =
      { savedRecord s.dec with remaining := s.dec.remaining - 1, buf := (savedRecord s.dec).buf ++ [w] } := by
  have hidx : (s.dec.decCount - s.dec.remaining).toNat = s.dec.validCount := BitVec.toNat_sub_of_le hle
  have hcount : (capture w s).dec.validCount = s.dec.validCount + 1 := by
    simp only [Dec.validCount, capture_dec_remaining, capture_dec_decCount]
    bv_omega
  have h64 := validCount_lt s.dec
  have hbuf : (capture w s).dec.decBuf.toList.take (capture w s).dec.validCount = (savedRecord s.dec).buf ++ [w] := by
    rw [hcount, capture_dec_decBuf, hidx, savedRecord, Vector.toList_setIfInBounds,
      List.take_succ_eq_append_getElem (by simpa using h64), List.take_set_of_le (Nat.le_refl _), List.getElem_set_self]
  rw [savedRecord, hbuf]
  rfl

/-- Two states with the same type and the same last word take a continuation word with the same fields and error (R126). -/
theorem continuation_congr (ht : t.dec.lastType = s.dec.lastType) (hc : t.dec.isContinuation = s.dec.isContinuation)
    (w : Word) :
    ∃ f e, continuation w s = continued s.dec.lastType w f e s ∧ continuation w t = continued s.dec.lastType w f e t := by
  unfold continuation prevNew
  rw [ht, hc]
  split
  · next h =>
    rw [h]
    split
    · exact ⟨_, _, rfl, rfl⟩
    · exact ⟨_, _, rfl, rfl⟩
  · exact ⟨_, _, rfl, rfl⟩

/-- One step keeps `remaining <= decCount` (R132). -/
theorem decStep_run_le (hle : s.dec.remaining.toNat ≤ s.dec.decCount.toNat) (w : Word) :
    (decStep w s).dec.remaining.toNat ≤ (decStep w s).dec.decCount.toNat := by
  obtain ⟨hr, hd⟩ | ⟨-, -, hd⟩ | ⟨-, -, hd⟩ := decStep_cases s w <;> rw [hd]
  · rw [capture_dec_remaining, capture_dec_decCount]
    bv_omega
  · obtain ⟨-, hc⟩ | ⟨-, hc⟩ := classifyTyped_cases s w <;> rw [hc]
    · exact Nat.le_refl _
    · exact hle
  · obtain ⟨f, e, hc, -⟩ := continuation_eq s w
    rw [hc]
    exact hle

/-- One step from two states with the same record: the same DataWord, and the same record after it. -/
theorem decStep_congr (hle : s.dec.remaining.toNat ≤ s.dec.decCount.toNat) (h : savedRecord s.dec = savedRecord t.dec)
    (w : Word) :
    (∃ dw, (decStep w s).dec.out = s.dec.out ++ [dw] ∧ (decStep w t).dec.out = t.dec.out ++ [dw]) ∧
      savedRecord (decStep w s).dec = savedRecord (decStep w t).dec := by
  have htype : t.dec.lastType = s.dec.lastType := (congrArg DecRecord.lastType h).symm
  have hcont : t.dec.isContinuation = s.dec.isContinuation := (congrArg DecRecord.isContinuation h).symm
  have hrem : t.dec.remaining = s.dec.remaining := (congrArg DecRecord.remaining h).symm
  have hcount : t.dec.decCount = s.dec.decCount := (congrArg DecRecord.decCount h).symm
  unfold decStep
  rw [hrem]
  split
  · next hr =>
    refine ⟨⟨_, capture_dec_out s w, by rw [capture_dec_out, hrem, hcount]⟩, ?_⟩
    rw [savedRecord_capture hle hr, savedRecord_capture (by rwa [hrem, hcount]) (by rwa [hrem]), h, hrem]
  · split
    · unfold classifyTyped
      dsimp only
      split
      · exact ⟨⟨_, rfl, rfl⟩, by simp [h]⟩
      · exact ⟨⟨_, rfl, rfl⟩, by simp [h]⟩
    · obtain ⟨f, e, hs, ht⟩ := continuation_congr htype hcont w
      rw [hs, ht]
      exact ⟨⟨_, rfl, rfl⟩, by simp [h]⟩

/-- Every sequence of words gives the same DataWords from two states with the same record, and leaves the same record. -/
theorem decSteps_congr (ws : List Word) (hle : s.dec.remaining.toNat ≤ s.dec.decCount.toNat)
    (h : savedRecord s.dec = savedRecord t.dec) :
    ∃ dws : List DataWord,
      (ws.foldl (fun x w => decStep w x) s).dec.out = s.dec.out ++ dws ∧
      (ws.foldl (fun x w => decStep w x) t).dec.out = t.dec.out ++ dws ∧
      savedRecord (ws.foldl (fun x w => decStep w x) s).dec = savedRecord (ws.foldl (fun x w => decStep w x) t).dec := by
  induction ws generalizing s t with
  | nil => exact ⟨[], by simp, by simp, h⟩
  | cons w ws ih =>
    obtain ⟨⟨dw, hs, ht⟩, hw⟩ := decStep_congr hle h w
    obtain ⟨dws, hss, hts, hws⟩ := ih (decStep_run_le hle w) hw
    refine ⟨dw :: dws, ?_, ?_, hws⟩
    · simpa [hs] using hss
    · simpa [ht] using hts

/-! ### The moves -/

/-- A read of a restored buffer: the record's words, and a fault behind them (R25, R133). -/
theorem bufRead_restored {r : DecRecord} (h : r.wf = true) (s : State) :
    (∀ i (hi : i < r.buf.length), bufRead i (restored r s) =
      .next { restored r s with env := { (restored r s).env with bufData := r.buf[i] } }) ∧
    (∀ i, r.buf.length ≤ i → bufRead i (restored r s) = .fault (.bufferEntryNotValid i)) := by
  have hn := restored_validCount h s
  refine ⟨fun i hi => ?_, fun i hi => bufRead_of_le (hn.trans_le hi)⟩
  have hlt := hi.trans_eq hn.symm
  rw [bufRead_of_lt hlt]
  simp only [restored, getElem_fillBuf_zero r.buf s.dec.decBuf hi]

/-- Settles O26: the restored state has the saved record, and the record decides every later DataWord. -/
theorem saveRestoreResumesStream : Obligations.SaveRestoreResumesStream := by
  refine ⟨fun s t hle => ?_, fun s rest hin => step_cons s hin, fun s r rest hin hle hlen => ?_⟩
  · have hwf := savedRecord_wf hle
    refine ⟨_, decRestore_of_wf hwf t, rfl, fun ws => decSteps_congr ws hle ?_⟩
    rw [savedRecord_restored hwf]
  · have hwf := decRecord_wf_iff.2 ⟨hle, hlen⟩
    exact ⟨_, (step_cons s hin).trans (decRestore_of_wf hwf _), rfl, bufRead_restored hwf (popped s rest)⟩

end Sys2Proof.Machine
end

