-- ==== Sys2Proof/Proofs/StreamPort.lean ====
section
/-! PROOF. DEC's input port and what is apart from it. A word presented to DEC is one `DEC.step` of that word (R28, R120), whatever
row it decodes to; no other move but `rst` and `restore` of DEC touches DEC (R76, R77). What sets and clears `protoErr` (R26)
follows from the two. -/

namespace Sys2Proof

/-! ### The word of a decoded row -/

theorem place_blkhdr_fields (w : Word) :
    place 22 (slotOf w) ||| place 18 (modidOf w) ||| place 8 (blknumOf w) ||| place 0 (nevtOf w) = place 0 (payloadOf w) := by
  ext i hi
  simp [place, slotOf, modidOf, blknumOf, nevtOf, payloadOf]
  grind

theorem place_slot_low22 (w : Word) : place 22 (slotOf w) ||| place 0 (low22Of w) = place 0 (payloadOf w) := by
  ext i hi
  simp [place, slotOf, low22Of, payloadOf]
  grind

theorem place_evhdr_fields (w : Word) :
    place 22 (slotOf w) ||| place 12 (trigtimeOf w) ||| place 0 (evtnumOf w) = place 0 (payloadOf w) := by
  ext i hi
  simp [place, slotOf, trigtimeOf, evtnumOf, payloadOf]
  grind

theorem place_dechdr_fields (w : Word) : place 6 (countIgnoredOf w) ||| place 0 (countOf w) = place 0 (payloadOf w) := by
  ext i hi
  simp [place, countIgnoredOf, countOf, payloadOf]
  grind

/-- The sixteen type codes, in the order of R92. -/
theorem code_cases (c : Code) : c = codeBlkHdr ∨ c = codeBlkTrl ∨ c = codeEvHdr ∨ c = codeTrgTime ∨ c = 4 ∨ c = 5 ∨ c = 6 ∨
    c = 7 ∨ c = codeDecHdr ∨ c = 9 ∨ c = 10 ∨ c = 11 ∨ c = 12 ∨ c = codeEoe ∨ c = codeDnv ∨ c = codeFill := by
  revert c
  decide

end Sys2Proof

namespace Sys2Proof.Machine

variable {s t : State}

/-! ### A word on DEC's port is one `DEC.step` -/

/-- A type-defining row in Generic whose payload is that of the word presented does what `DEC.step` does with that word (R126). -/
theorem typedRow_eq {c : Code} {p w : Word} {f : Fields} (hr : s.dec.remaining = 0) (hw : typeDefining w = true)
    (hc : codeOf w = c) (hne : c ≠ codeDecHdr) (hp : p = place 0 (payloadOf w)) (hf : fieldsOf w = f) :
    inGeneric (typedWord c p) s (typed c (typedWord c p) f s) = classifyTyped w s := by
  subst hc hp hf
  rw [inGeneric_of_generic s hr, typedWord_of_typeDefining w hw, classifyTyped]
  exact (if_neg hne).symm

/-- The row of a decoder header, the one that loads a count (R165). -/
theorem dechdrRow_eq {p w : Word} (hr : s.dec.remaining = 0) (hw : typeDefining w = true) (hc : codeOf w = codeDecHdr)
    (hp : p = place 0 (payloadOf w)) :
    inGeneric (typedWord codeDecHdr p) s
      (loadCount (countOf w) (typed codeDecHdr (typedWord codeDecHdr p) (.count (countOf w)) s)) = classifyTyped w s := by
  have hword := typedWord_of_typeDefining w hw
  rw [hc] at hword
  rw [inGeneric_of_generic s hr, hp, hword, classifyTyped, fieldsOf, hc]
  rfl

theorem exec_decodeTyped (hr : s.dec.remaining = 0) {w : Word} (hw : typeDefining w = true) :
    exec (decodeTyped w) s = .next (classifyTyped w s) := by
  unfold decodeTyped
  obtain h | h | h | h | h | h | h | h | h | h | h | h | h | h | h | h := code_cases (codeOf w) <;> rw [h]
  · exact congrArg _ (typedRow_eq hr hw h (by decide) (place_blkhdr_fields w) (by rw [fieldsOf, h]; rfl))
  · exact congrArg _ (typedRow_eq hr hw h (by decide) (place_slot_low22 w) (by rw [fieldsOf, h]; rfl))
  · exact congrArg _ (typedRow_eq hr hw h (by decide) (place_evhdr_fields w) (by rw [fieldsOf, h]; rfl))
  · exact congrArg _ (typedRow_eq hr hw h (by decide) rfl (by rw [fieldsOf, h]; rfl))
  · exact congrArg _ (typedRow_eq hr hw h (by decide) rfl (by rw [fieldsOf, h]; rfl))
  · exact congrArg _ (typedRow_eq hr hw h (by decide) rfl (by rw [fieldsOf, h]; rfl))
  · exact congrArg _ (typedRow_eq hr hw h (by decide) rfl (by rw [fieldsOf, h]; rfl))
  · exact congrArg _ (typedRow_eq hr hw h (by decide) rfl (by rw [fieldsOf, h]; rfl))
  · exact congrArg _ (dechdrRow_eq hr hw h (place_dechdr_fields w))
  · exact congrArg _ (typedRow_eq hr hw h (by decide) rfl (by rw [fieldsOf, h]; rfl))
  · exact congrArg _ (typedRow_eq hr hw h (by decide) rfl (by rw [fieldsOf, h]; rfl))
  · exact congrArg _ (typedRow_eq hr hw h (by decide) rfl (by rw [fieldsOf, h]; rfl))
  · exact congrArg _ (typedRow_eq hr hw h (by decide) rfl (by rw [fieldsOf, h]; rfl))
  · exact congrArg _ (typedRow_eq hr hw h (by decide) rfl (by rw [fieldsOf, h]; rfl))
  · exact congrArg _ (typedRow_eq hr hw h (by decide) (place_slot_low22 w) (by rw [fieldsOf, h]; rfl))
  · exact congrArg _ (typedRow_eq hr hw h (by decide) (place_slot_low22 w) (by rw [fieldsOf, h]; rfl))

/-- A continuation row in Generic is a continuation word, when its own condition selects what that word does (R126). -/
theorem onContinuation_of_generic {here : Bool} {w : Word} {row : State} (hr : s.dec.remaining = 0)
    (h : here = true → row = continuation w s) : onContinuation w here s row = continuation w s := by
  rw [onContinuation, inGeneric_of_generic s hr]
  split
  · next hh => exact h hh
  · rfl

/-- The generic continuation rule (R127) under a type other than TriggerTime. -/
theorem continuation_plain {c : Code} (ht : s.dec.lastType = c) (hne : c ≠ codeTrgTime) (w : Word) :
    continuation w s = continuedPlain c w s := by
  subst ht
  exact if_neg hne

theorem continuation_in_sequence (ht : s.dec.lastType = codeTrgTime) (hc : s.dec.isContinuation = false) (w : Word) :
    continuation w s = continued codeTrgTime w (.time2 (time2Of w)) .none s := by
  simp [continuation, prevNew, ht, hc]

theorem continuation_out_of_sequence (ht : s.dec.lastType = codeTrgTime) (hc : s.dec.isContinuation = true) (w : Word) :
    continuation w s = continued codeTrgTime w .none .trigTimeSeq s := by
  simp [continuation, prevNew, ht, hc]

/-- The nine rows of the generic rule. -/
theorem continuationRow_eq {c : Code} {here : Bool} {w' w : Word} (hr : s.dec.remaining = 0) (hw : w' = w)
    (hne : c ≠ codeTrgTime) (hhere : here = true → s.dec.lastType = c) :
    onContinuation w' here s (continuedPlain c w' s) = continuation w s := by
  subst hw
  exact onContinuation_of_generic hr fun h => (continuation_plain (hhere h) hne w').symm

theorem exec_decodeContinuation (hr : s.dec.remaining = 0) {w : Word} (hw : typeDefining w = false) :
    exec (decodeContinuation s.ctx w) s = .next (continuation w s) := by
  have hword := contWord_of_not_typeDefining w hw
  unfold decodeContinuation
  dsimp only
  split
  · exact congrArg _ (continuationRow_eq hr hword (by decide) eq_of_beq)
  split
  · exact congrArg _ (continuationRow_eq hr hword (by decide) eq_of_beq)
  split
  · exact congrArg _ (continuationRow_eq hr hword (by decide) eq_of_beq)
  split
  · next ht =>
    split
    · next hc =>
      refine congrArg _ ((onContinuation_of_generic hr fun _ => ?_).trans (congrArg (continuation · s) hword))
      exact (continuation_out_of_sequence ht hc _).symm
    · next hc =>
      have hfields : encodeWord (.trgtimeC (contIgnoredOf w) (time2Of w)) = w := contWord_of_trgtime_fields w hw
      simp only [exec, execTrgtimeC, hfields]
      exact congrArg _ (onContinuation_of_generic hr fun _ =>
        (continuation_in_sequence ht (Bool.eq_false_iff.2 hc) w).symm)
  · next hne =>
    split
    · exact congrArg _ (continuationRow_eq hr hword (by decide) eq_of_beq)
    split
    · exact congrArg _ (continuationRow_eq hr hword (by decide) eq_of_beq)
    split
    · exact congrArg _ (continuationRow_eq hr hword (by decide) eq_of_beq)
    split
    · exact congrArg _ (continuationRow_eq hr hword (by decide) eq_of_beq)
    · exact congrArg _ (continuationRow_eq hr hword hne fun _ => rfl)

/-- A word presented to DEC is one `DEC.step` of that word, whatever row it decodes to (R28, R120). -/
theorem present_stream (w : Word) (s : State) : present (.stream w) s = .next (decStep w s) := by
  change exec (decodeStream s.ctx w) s = _
  unfold decodeStream decStep
  rw [ctx_remaining]
  by_cases hr : s.dec.remaining = 0
  · rw [if_neg (not_not_intro hr), if_neg (not_not_intro hr)]
    cases hw : typeDefining w
    · exact exec_decodeContinuation hr hw
    · exact exec_decodeTyped hr hw
  · rw [if_pos hr, if_pos hr]
    exact congrArg _ (if_pos hr)

/-- Settles O7: the step consumes the word and presents it. -/
theorem stepRunsStreamWord : Obligations.StepRunsStreamWord := by
  intro s w rest i hin hi
  rw [step_cons s hin, runEvent, present]
  change decode (popped s rest).ctx (.stream w) = .ok i at hi
  rw [hi]
  rfl

/-! ### What leaves DEC alone -/

@[simp] theorem stillBusy_dec (s : State) : (stillBusy s).dec = s.dec := by
  obtain ⟨-, h⟩ | ⟨-, h⟩ := stillBusy_cases s <;> rw [h]
  rfl

@[simp] theorem markErase_dec (s : State) : (markErase s).dec = s.dec := by
  obtain ⟨-, h⟩ | ⟨-, h⟩ := markErase_cases s <;> rw [h]
  rfl

@[simp] theorem markDownload_dec (s : State) : (markDownload s).dec = s.dec := by
  obtain ⟨-, h⟩ | ⟨-, h⟩ := markDownload_cases s <;> rw [h]
  rfl

@[simp] theorem compareByte_dec (e a : Byte) (s : State) : (compareByte e a s).dec = s.dec :=
  (compareByte_frame s e a).2.1

/-- A step of PRG leaves DEC alone when what it does around its access does (R76). -/
theorem access_dec {check : Option PrgResult} {fail : Bool} {r : Request} {k : State → Result} (hr : ∀ w, r ≠ .stream w)
    (hk : ∀ u v, k u = .next v → v.dec = u.dec) (ht : access check fail r s k = .next t) : t.dec = s.dec := by
  obtain ⟨e, -, rfl⟩ | ⟨-, u, hu, ht⟩ := (access_next s).1 ht
  · rfl
  · obtain ⟨-, hdec, -⟩ := present_frame s hr hu
    rw [hk _ _ ht, record_dec, hdec]

theorem stepErasePoll_dec {fail : Bool} (ht : stepErasePoll fail s = .next t) : t.dec = s.dec := by
  refine access_dec (by simp) (fun u v hv => ?_) ht
  cases hv
  split
  · simp
  · split <;> rfl

theorem stepWrByte_dec {fail : Bool} (ht : stepWrByte fail s = .next t) : t.dec = s.dec := by
  unfold stepWrByte at ht
  split at ht
  · cases ht
  · refine access_dec (by simp) (fun u v hv => ?_) ht
    cases hv
    rfl

theorem stepWrPoll_dec {fail : Bool} (ht : stepWrPoll fail s = .next t) : t.dec = s.dec := by
  refine access_dec (by simp) (fun u v hv => ?_) ht
  cases hv
  dsimp only
  split
  · simp
  · split
    · simp
    · split <;> simp

theorem stepRdPoll_dec {fail : Bool} (ht : stepRdPoll fail s = .next t) : t.dec = s.dec := by
  refine access_dec (by simp) (fun u v hv => ?_) ht
  dsimp only at hv
  split at hv
  · cases hv
    simp
  · split at hv
    · cases hv
    · cases hv
      split <;> simp

/-- No stage of PRG touches DEC (R76, R250). -/
theorem prgStep_dec {fail : Bool} (ht : prgStep fail s = .next t) : t.dec = s.dec := by
  cases hg : s.prg.stage <;> simp only [prgStep, hg] at ht
  case idle | confirm | finish =>
    cases ht
    rfl
  case erasePoll => exact stepErasePoll_dec ht
  case wrByte => exact stepWrByte_dec ht
  case wrPoll => exact stepWrPoll_dec ht
  case rdPoll => exact stepRdPoll_dec ht
  case eraseCmd | wrMode | rdMode | rdByte =>
    refine access_dec (by simp) (fun u v hv => ?_) ht
    cases hv
    rfl

@[simp] theorem loadImage_dec (file : List (Option Byte)) (s : State) : (loadImage file s).dec = s.dec := by
  unfold loadImage
  split <;> rfl

@[simp] theorem startSession_dec (s : State) : (startSession s).dec = s.dec := by
  unfold startSession
  split <;> rfl

@[simp] theorem standAlone_dec (c : PrgCmd) (op : PrgOp) (g : Stage) (s : State) : (standAlone c op g s).dec = s.dec := by
  unfold standAlone
  split
  · rfl
  · split <;> rfl

theorem command_dec {c : PrgCmd} (ht : command c s = .next t) : t.dec = s.dec := by
  unfold command at ht
  split at ht
  · cases ht
  · cases c <;> cases ht <;> simp

@[simp] theorem answer_dec (b : Bool) (s : State) : (answer b s).dec = s.dec := by
  unfold answer
  dsimp only
  split_ifs <;> rfl

theorem prgRst_dec (ht : prgRst s = .next t) : t.dec = s.dec := by
  unfold prgRst at ht
  split at ht <;> cases ht
  rfl

theorem bufRead_dec {i : Nat} (ht : bufRead i s = .next t) : t.dec = s.dec := by
  unfold bufRead at ht
  split at ht <;> cases ht
  rfl

@[simp] theorem otherAcquire_dec (who : Nat) (s : State) : (otherAcquire who s).dec = s.dec := by
  unfold otherAcquire
  split <;> rfl

@[simp] theorem otherRelease_dec (who : Nat) (s : State) : (otherRelease who s).dec = s.dec := by
  unfold otherRelease
  split <;> rfl

theorem hostAccess_dec {who : Nat} {e : Event} {r : Request} (hr : ∀ w, r ≠ .stream w)
    (ht : hostAccess who e r s = .next t) : t.dec = s.dec := by
  obtain ⟨-, h⟩ | ⟨-, h⟩ := hostAccess_cases s who e r <;> rw [h] at ht
  · exact (present_frame s hr ht).2.1
  · cases ht
    rfl

theorem readBlockDma_dec (n : Nat) (filler fail : Bool) (s : State) : (readBlockDma n filler fail s).dec = s.dec := by
  unfold readBlockDma
  split
  · rfl
  · exact (popWords_frame s n).2.1

theorem srcMove_dec {e : Event} {f : State → State} (hf : (f s).dec = s.dec) (ht : srcMove e f s = .next t) :
    t.dec = s.dec := by
  unfold srcMove at ht
  split at ht <;> cases ht
  · exact hf
  · rfl

/-- What a move can do to DEC: a word is one `DEC.step`, `rst` and `restore` load its registers, any other move leaves it alone
(R31, R76, R77). -/
theorem runEvent_dec_cases {e : Event} (ht : runEvent e s = .next t) :
    (∃ w, e = .word w ∧ t = decStep w s) ∨ (e = .decRst ∧ t = decRst s) ∨ (∃ r, e = .decRestore r ∧ t = restored r s) ∨
      t.dec = s.dec := by
  cases e
  case word w =>
    rw [runEvent, present_stream] at ht
    cases ht
    exact .inl ⟨w, rfl, rfl⟩
  case decRst =>
    cases ht
    exact .inr (.inl ⟨rfl, rfl⟩)
  case decRestore r =>
    exact .inr (.inr (.inl ⟨r, rfl, decRestore_next ht⟩))
  all_goals refine .inr (.inr (.inr ?_))
  case decSave | devReady | fifoFill =>
    cases ht
    rfl
  case bufRead => exact bufRead_dec ht
  case cmd => exact command_dec ht
  case prgRst => exact prgRst_dec ht
  case prg => exact prgStep_dec ht
  case devComplete =>
    cases ht
    exact (devComplete_frame s).2.1
  case confirm | otherAcquire | otherRelease =>
    cases ht
    simp
  case hostWrite | hostRead => exact hostAccess_dec (by simp) ht
  case srcPio m z fail => exact srcMove_dec (readBlockPio_frame s m z fail).2.1 ht
  case srcDma n filler fail => exact srcMove_dec (readBlockDma_dec n filler fail s) ht

/-- With no move listed nothing reaches DEC. -/
theorem step_nil_dec (hin : s.env.inputs = []) (ht : step s = .next t) : t.dec = s.dec := by
  rw [step_nil s hin] at ht
  split at ht
  · exact prgStep_dec ht
  · cases ht
    rfl

/-- Settles O29: what a move can do to DEC, and the frame of `DEC.step`. -/
theorem decAndProgrammerAreSeparate : Obligations.DecAndProgrammerAreSeparate := by
  refine fun s t ht => ⟨fun e rest hin => ?_, fun hin => step_nil_dec hin ht⟩
  rw [step_cons s hin] at ht
  refine ⟨?_, fun hword hrst hrestore => ?_⟩
  · rintro w rfl
    rw [runEvent, present_stream] at ht
    cases ht
    obtain ⟨hparams, hprg, hdev, henv, hdraws⟩ := decStep_frame (popped s rest) w
    exact ⟨hprg, hdev, hparams, hdraws, henv⟩
  · obtain ⟨w, he, -⟩ | ⟨he, -⟩ | ⟨r, he, -⟩ | hdec := runEvent_dec_cases ht
    · exact absurd he (hword w)
    · exact absurd he hrst
    · exact absurd he (hrestore r)
    · exact hdec

/-! ### The protocol error -/

/-- `DEC.step` keeps a set `protoErr`, and sets it for a TriggerTime continuation out of sequence only (R26, R156). -/
theorem decStep_protoErr_iff (w : Word) (s : State) :
    (decStep w s).dec.protoErr = true ↔ s.dec.protoErr = true ∨
      (s.dec.remaining = 0 ∧ typeDefining w = false ∧ s.dec.lastType = codeTrgTime ∧ s.dec.isContinuation = true) := by
  obtain ⟨hr, hd⟩ | ⟨-, hw, hd⟩ | ⟨hr, hw, hd⟩ := decStep_cases s w <;> rw [hd]
  · exact ⟨.inl, fun h => h.resolve_right fun ⟨hr', _⟩ => hr hr'⟩
  · obtain ⟨-, hc⟩ | ⟨-, hc⟩ := classifyTyped_cases s w <;> rw [hc] <;> simp [hw]
  · obtain ⟨f, e, hc, he⟩ := continuation_eq s w
    rw [hc, continued_dec_protoErr]
    cases e
    case none =>
      rw [protoErrAfter_none]
      exact ⟨.inl, fun h => h.resolve_right fun ⟨_, _, hseq⟩ => nomatch he.2 hseq⟩
    case trigTimeSeq => exact ⟨fun _ => .inr ⟨hr, hw, he.1 rfl⟩, fun _ => protoErrAfter_trigTimeSeq _⟩

/-- A flag that keeps its value goes neither from 1 to 0 nor from 0 to 1. -/
theorem flips_of_eq {old new : Bool} {cleared set : Prop} (h : new = old) :
    (old = true → new = false → cleared) ∧ (old = false → new = true → set) := by
  subst h
  cases new <;> simp

/-- Settles O28: `rst` alone clears the flag, a word alone can set it. -/
theorem protoErrIsSticky : Obligations.ProtoErrIsSticky := by
  intro s t ht
  cases hin : s.env.inputs with
  | nil =>
    exact flips_of_eq (congrArg Dec.protoErr (step_nil_dec hin ht))
  | cons e rest =>
    rw [step_cons s hin] at ht
    obtain ⟨w, rfl, rfl⟩ | ⟨rfl, rfl⟩ | ⟨r, -, rfl⟩ | hdec := runEvent_dec_cases ht
    · have hiff := decStep_protoErr_iff w (popped s rest)
      refine ⟨fun h h' => ?_, fun h h' => ?_⟩
      · exact absurd (h'.symm.trans (hiff.2 (.inl h))) Bool.false_ne_true
      · obtain hp | ⟨hr, hw, htype, hcont⟩ := hiff.1 h'
        · exact absurd (h.symm.trans hp) Bool.false_ne_true
        · exact ⟨w, rest, rfl, hr, hw, htype, hcont⟩
    · exact ⟨fun _ _ => ⟨rest, rfl⟩, fun _ h' => nomatch h'⟩
    · exact flips_of_eq rfl
    · exact flips_of_eq (congrArg Dec.protoErr hdec)

end Sys2Proof.Machine
end

