-- ==== Sys2Proof/Proofs/ResetAndReads.lean ====
section
/-! PROOF. The states that reset gives (R50, R300, R301, R302) and the reads that HOST makes: the buffer of DEC (R25), CFG_CSR and
CFG_DATA (R41, R42), and what a write of CFG_DATA is (R220, R224). -/

namespace Sys2Proof.Machine

variable {s : State}

/-! ### Reset -/

/-- After reset no entry of the buffer is valid (R50), so every read of it faults. -/
theorem bufRead_of_reset (h : s.dec = Dec.reset) (i : Nat) : bufRead i s = .fault (.bufferEntryNotValid i) :=
  bufRead_of_le (by simp [h, Dec.reset, Dec.validCount])

/-- Settles O23: every register by evaluation, the buffer by `bufRead_of_reset`. -/
theorem resetState : Obligations.ResetState :=
  ⟨rfl, rfl, rfl, rfl, rfl, bufRead_of_reset rfl, rfl, rfl, rfl, rfl, rfl, rfl, rfl, rfl, rfl, rfl, rfl⟩

/-- Settles O24: the step on `rst` puts DEC into its reset state, whatever it was. -/
theorem decResetValues : Obligations.DecResetValues := fun s rest hin =>
  ⟨decRst (popped s rest), step_cons s hin, rfl, rfl, rfl, rfl, rfl, bufRead_of_reset rfl, rfl, rfl, rfl, rfl⟩

/-- In Idle PRG accepts `rst` and keeps its output ports only (R301). -/
theorem prgRst_of_idle (h : s.prg.stage = .idle) :
    prgRst s = .next { s with prg := { Prg.reset with emitted := s.prg.emitted, trace := s.prg.trace } } :=
  if_neg (not_not_intro h)

/-- Settles O46: the step on `rst` of PRG in Idle puts PRG into its reset state. -/
theorem prgResetValues : Obligations.PrgResetValues := fun s rest hidle hin =>
  ⟨_, (step_cons s hin).trans (prgRst_of_idle (s := popped s rest) hidle), rfl, rfl, rfl, rfl, rfl, rfl, rfl, rfl, rfl, rfl⟩

/-- Whatever R8 leaves OPEN, the machine starts with sizes inside R8's bounds. -/
theorem wf_normalise (p : Config.Params) : p.normalise.wf = true := by
  simp [Config.Params.wf, Config.Params.normalise]

/-- Settles O56: at reset every agent is idle, the lock is free and the lists are empty. -/
theorem resetMeetsInvariant : Obligations.ResetMeetsInvariant where
  params_wf := wf_normalise Config.openParams
  run_le := Nat.le_refl _
  mem_wf := wf_reset _
  pending_range := rfl
  img_le := Nat.zero_le _
  addr_le := Nat.zero_le _
  lock_stage := rfl
  lock_one := nofun
  blocked_held := fun _ => rfl
  answer_waits := nofun
  op_stage := rfl
  img_loaded := fun h => absurd rfl h
  addr_lt := nofun
  mm_flag := rfl
  dev_stage := rfl

/-! ### Reads of the buffer -/

/-- Settles O25: the two sides of the bound `validCount`. -/
theorem bufferEntryValidity : Obligations.BufferEntryValidity := by
  intro s i rest hin _
  rw [step_cons s hin]
  exact ⟨fun hi => ⟨hi.trans (validCount_lt s.dec), bufRead_of_lt (s := popped s rest) hi⟩,
    fun hi => bufRead_of_le (s := popped s rest) hi⟩

/-! ### CFG_CSR and CFG_DATA -/

theorem busyFlag_eq_decide (p : Pending) : busyFlag p = decide (p ≠ .none) := by
  by_cases h : p = .none <;> simp [h]

/-- A read of CFG_DATA is no instruction: it returns a draw (R42, U9). -/
theorem present_readData (s : State) : present (.read cfgDataOff 4) s = .next (readData s) := rfl

/-- Settles O34: POLL reads `csrValue`, whose BUSY and RDATA are the device's. -/
theorem pollReadsBusyAndData : Obligations.PollReadsBusyAndData := by
  intro s
  obtain ⟨hbusy, hrdata⟩ := csrValue_fields s
  rw [busyFlag_eq_decide] at hbusy
  exact ⟨⟨readCsr s, rfl, rfl, hbusy, hrdata⟩, readData s, present_readData s, rfl⟩

/-- In mode Read a write of CFG_DATA starts a read, whatever its low byte (R224). -/
theorem acceptData_of_read (h : s.dev.mode = .read) (a : EepAddr) (b : Byte) :
    acceptData a b s = whenNotBusy s (acceptRead a s) := by
  rw [acceptData, h]

/-- Settles O33: both rows are the same write of CFG_DATA, and in mode Read its low byte is ignored. -/
theorem modeSelectsDataOperation : Obligations.ModeSelectsDataOperation := fun _ a b =>
  ⟨fun h => (acceptData_of_read h a b).trans (acceptData_of_read h a 0).symm, fun _ => rfl⟩

end Sys2Proof.Machine
end

