-- ==== Sys2Proof/Proofs/RegisterBlock.lean ====
section
/-! PROOF. The register block as HOST's threads see it (R60, R66, R72): which instruction an access runs, which accesses no rule
defines, and a byte of the EEPROM written and read back through the two registers (R74, R75). -/

namespace Sys2Proof

/-! ### The words and the checks of an access -/

/-- A CFG_DATA word is the address in front of the byte (R107). -/
theorem append_eq_dataWord (a : EepAddr) (b : Byte) : a ++ b = dataWord a b := by
  ext i hi
  simp [dataWord, place]
  grind

theorem checkAccess_of_width {off width : Nat} (h : width ≠ 4) : checkAccess off width = some (.width width) :=
  if_pos h

theorem checkAccess_of_misaligned {off : Nat} (h : off % 4 ≠ 0) : checkAccess off 4 = some (.misaligned off) :=
  if_pos h

theorem checkAccess_of_below {off : Nat} (hal : off % 4 = 0) (h : off < cfgCsrOff) :
    checkAccess off 4 = some (.otherRegister off) := by
  have hdata : off < cfgDataOff := h.trans (by decide)
  rw [checkAccess, if_neg (by omega), if_neg (by omega), if_neg hdata.le.not_gt, if_pos ⟨h.ne, hdata.ne⟩]

theorem checkAccess_of_above {off : Nat} (hal : off % 4 = 0) (h : cfgDataOff < off) :
    checkAccess off 4 = some (.outsideBlock off) := by
  rw [checkAccess, if_neg (by omega), if_neg (by omega), if_pos h]

end Sys2Proof

namespace Sys2Proof.Machine

variable {s : State}

/-! ### What a presented access runs -/

theorem present_of_decode {r : Request} {i : Instr} (h : decode s.ctx r = .ok i) : present r s = exec i s := by
  rw [present, h]

theorem present_of_decodeError {r : Request} {e : DecodeError} (h : decode s.ctx r = .error e) :
    present r s = noInstruction e s := by
  rw [present, h]

/-- An access that fails its check is no instruction, be it a write or a read (R66). -/
theorem present_of_checkAccess {off width : Nat} {e : DecodeError} (h : checkAccess off width = some e) (v : Word) :
    present (.write off width v) s = noInstruction e s ∧ present (.read off width) s = noInstruction e s :=
  ⟨present_of_decodeError (by rw [decode, h]), present_of_decodeError (by rw [decode, h])⟩

/-- A write to CFG_CSR of a value that is none of the three commands (R41, R110). -/
theorem present_unknownCommand {v : Word} (hwren : v ≠ cmdWren) (herase : v ≠ cmdBulkErase) (hread : v ≠ cmdRead) :
    present (.write cfgCsrOff 4 v) s = whenNotBusy s (.refused (.unknownCommand v)) := by
  refine present_of_decodeError (e := .unknownCommand v) ?_
  change (if v = cmdWren then _ else if v = cmdBulkErase then _ else if v = cmdRead then _ else _) = _
  rw [if_neg hwren, if_neg herase, if_neg hread]

/-- Settles O5: the clauses follow the order in which the decoder checks an access. -/
theorem undefinedRegisterAccessesRefused : Obligations.UndefinedRegisterAccessesRefused := by
  refine fun s off width v => ⟨fun hw => ?width, fun hal => ?alignment, fun hal hlt => ?below, fun hal hlt => ?above,
    fun hp hwren herase hread => ?command, fun hp hm => ?modeNone⟩
  case width => exact present_of_checkAccess (checkAccess_of_width hw) v
  case alignment => exact present_of_checkAccess (checkAccess_of_misaligned hal) v
  case below => exact present_of_checkAccess (checkAccess_of_below hal hlt) v
  case above => exact present_of_checkAccess (checkAccess_of_above hal hlt) v
  case command => exact (present_unknownCommand hwren herase hread).trans (whenNotBusy_of_none s hp)
  case modeNone =>
    have hdata := present_dataNone s (addrOf v) (byteOf v) hm
    rw [dataWord_of_fields] at hdata
    exact hdata.trans (whenNotBusy_of_none s hp)

/-! ### The accesses of a HOST thread -/

theorem hostAccess_of_allows {who : Nat} (h : lockAllows who s = true) (e : Event) (r : Request) :
    hostAccess who e r s = present r s :=
  if_pos h

/-- A write by a thread that the lock lets through is presented to the register block (R60, R72). -/
theorem step_hostWrite {who off width : Nat} {v : Word} {rest : List Event} (h : lockAllows who s = true)
    (hin : s.env.inputs = .hostWrite who off width v :: rest) : step s = present (.write off width v) (popped s rest) :=
  (step_cons s hin).trans (hostAccess_of_allows (s := popped s rest) h _ _)

theorem step_hostRead {who off width : Nat} {rest : List Event} (h : lockAllows who s = true)
    (hin : s.env.inputs = .hostRead who off width :: rest) : step s = present (.read off width) (popped s rest) :=
  (step_cons s hin).trans (hostAccess_of_allows (s := popped s rest) h _ _)

/-- Settles O8: the lock lets the access through, and what is presented runs what it decodes to. -/
theorem stepRunsHostAccess : Obligations.StepRunsHostAccess := by
  intro s rest i who hprg hother
  have hallows := (lockAllows_iff s).2 ⟨hprg, hother⟩
  exact ⟨fun off width v hin hi => (step_hostWrite hallows hin).trans (present_of_decode hi),
    fun off width hin hi => (step_hostRead hallows hin).trans (present_of_decode hi)⟩

/-! ### Several moves -/

section Runs

variable (M : Host.Core) {u v : M.State}

theorem run_succ {k : Nat} (h : M.step u = .next v) : M.run (k + 1) u = M.run k v := by
  rw [Host.Core.run, h]

/-- A run that does not stop in its first moves goes on from where they lead. -/
theorem run_add {k : Nat} (n : Nat) (h : M.run k u = .next v) : M.run (k + n) u = M.run n v := by
  induction k generalizing u with
  | zero =>
    cases h
    rw [Nat.zero_add]
  | succ k ih =>
    rw [Nat.succ_add]
    cases hs : M.step u with
    | next w =>
      rw [run_succ M hs] at h ⊢
      exact ih h
    | fault r => simp [Host.Core.run, hs] at h
    | refused r => simp [Host.Core.run, hs] at h

end Runs

theorem run_of_step {k : Nat} {t : State} (h : step s = .next t) : core.run (k + 1) s = core.run k t :=
  run_succ core h

/-! ### A byte written and a byte read -/

theorem acceptData_of_writeEnable (hp : s.dev.pending = .none) (hm : s.dev.mode = .writeEnable) {a : EepAddr}
    (ha : a.toNat < s.params.eepSize) (b : Byte) : acceptData a b s = .next (startOp (.write a b) s) := by
  rw [acceptData, whenNotBusy_of_none s hp, hm]
  exact if_pos ha

theorem acceptData_zero_of_read (hp : s.dev.pending = .none) (hm : s.dev.mode = .read) {a : EepAddr}
    (ha : a.toNat < s.params.eepSize) : acceptData a 0 s = .next (startOp (.read a) s) := by
  rw [acceptData_of_read hm, whenNotBusy_of_none s hp]
  exact if_pos ha

/-- The state after a write of an erased byte has completed (R221). -/
def byteWritten (a : EepAddr) (b : Byte) (s : State) : State :=
  { s with dev := { s.dev with mem := s.dev.mem.store s.params a.toNat b, pending := .none } }

/-- The state after a read of a byte has completed (R225). -/
def byteRead (a : EepAddr) (s : State) : State :=
  { s with dev := { s.dev with rdata := s.dev.mem.read s.params a.toNat, pending := .none } }

theorem devComplete_write {a : EepAddr} (he : s.dev.mem.erased a.toNat = true) (b : Byte) :
    devComplete (startOp (.write a b) s) = byteWritten a b s :=
  if_pos he

theorem devComplete_read (a : EepAddr) : devComplete (startOp (.read a) s) = byteRead a s := rfl

theorem step_devComplete {rest : List Event} (hin : s.env.inputs = .devComplete :: rest) :
    step s = .next (devComplete (popped s rest)) :=
  step_cons s hin

/-- An accepted access to CFG_DATA, and the completion of the operation it starts (R220, R224, R228). -/
theorem run_dataAccess {who : Nat} {v : Word} {p : Pending} {rest : List Event} (hlock : lockAllows who s = true)
    (hin : s.env.inputs = .hostWrite who cfgDataOff 4 v :: .devComplete :: rest)
    (hacc : present (.write cfgDataOff 4 v) (popped s (.devComplete :: rest)) =
      .next (startOp p (popped s (.devComplete :: rest)))) :
    core.run 2 s = .next (devComplete (startOp p (popped s rest))) :=
  (run_of_step ((step_hostWrite hlock hin).trans hacc)).trans (run_of_step (step_devComplete rfl))

/-- WRBYTE and its completion, at an erased address inside the array. -/
theorem run_writeByte {who : Nat} {a : EepAddr} {b : Byte} {rest : List Event} (hlock : lockAllows who s = true)
    (hp : s.dev.pending = .none) (hm : s.dev.mode = .writeEnable) (ha : a.toNat < s.params.eepSize)
    (he : s.dev.mem.erased a.toNat = true)
    (hin : s.env.inputs = .hostWrite who cfgDataOff 4 (dataWord a b) :: .devComplete :: rest) :
    core.run 2 s = .next (byteWritten a b (popped s rest)) := by
  rw [← devComplete_write (s := popped s rest) he b]
  have hacc := acceptData_of_writeEnable (s := popped s (.devComplete :: rest)) hp hm ha b
  exact run_dataAccess hlock hin ((present_data (popped s (.devComplete :: rest)) a b hm).trans hacc)

/-- RDBYTE and its completion, at an address inside the array. -/
theorem run_readByte {who : Nat} {a : EepAddr} {b : Byte} {rest : List Event} (hlock : lockAllows who s = true)
    (hp : s.dev.pending = .none) (hm : s.dev.mode = .read) (ha : a.toNat < s.params.eepSize)
    (hin : s.env.inputs = .hostWrite who cfgDataOff 4 (dataWord a b) :: .devComplete :: rest) :
    core.run 2 s = .next (byteRead a (popped s rest)) := by
  rw [← devComplete_read]
  have hacc := acceptData_zero_of_read (s := popped s (.devComplete :: rest)) hp hm ha
  exact run_dataAccess hlock hin ((present_dataRead (popped s (.devComplete :: rest)) a b hm).trans hacc)

/-- SET_RD with nothing pending (R222). -/
theorem step_setRd {who : Nat} {rest : List Event} (hlock : lockAllows who s = true) (hp : s.dev.pending = .none)
    (hin : s.env.inputs = .hostWrite who cfgCsrOff 4 cmdRead :: rest) : step s = .next (setMode .read (popped s rest)) :=
  (step_hostWrite hlock hin).trans (whenNotBusy_of_none (popped s rest) hp)

theorem step_poll {who : Nat} {rest : List Event} (hlock : lockAllows who s = true)
    (hin : s.env.inputs = .hostRead who cfgCsrOff 4 :: rest) : step s = .next (readCsr (popped s rest)) :=
  step_hostRead hlock hin

/-- The six moves of O40 end with a poll of a state in which the byte stands in the array and in `RDATA` (R74). -/
theorem run_writeThenRead {who : Nat} {a : EepAddr} {b c : Byte} {rest : List Event} (hlock : lockAllows who s = true)
    (hp : s.dev.pending = .none) (hm : s.dev.mode = .writeEnable) (ha : a.toNat < s.params.eepSize)
    (he : s.dev.mem.erased a.toNat = true)
    (hin : s.env.inputs = .hostWrite who cfgDataOff 4 (dataWord a b) :: .devComplete :: .hostWrite who cfgCsrOff 4 cmdRead ::
      .hostWrite who cfgDataOff 4 (dataWord a c) :: .devComplete :: .hostRead who cfgCsrOff 4 :: rest) :
    ∃ u, core.run 6 s = .next (readCsr u) ∧ u.env.inputs = rest ∧ u.params = s.params ∧ u.dev.pending = .none ∧
      u.dev.mem = s.dev.mem.store s.params a.toNat b ∧ u.dev.rdata = u.dev.mem.read s.params a.toNat :=
  ⟨popped (byteRead a _) rest, calc
    core.run 6 s = core.run 4 (byteWritten a b (popped s _)) := run_add core 4 (run_writeByte hlock hp hm ha he hin)
    _ = core.run 3 (setMode .read (popped _ _)) := run_of_step (step_setRd hlock rfl rfl)
    _ = core.run 1 (byteRead a (popped _ _)) := run_add core 1 (run_readByte hlock rfl rfl ha rfl)
    _ = .next _ := run_of_step (step_poll hlock rfl),
    rfl, rfl, rfl, rfl, rfl⟩

/-- Settles O40: the write leaves the byte in the array, the read brings it to `RDATA`, and the poll returns it. -/
theorem writtenByteReadsBack : Obligations.WrittenByteReadsBack := by
  intro s a b who rest hwf he ha hp hm hprg hother hin
  rw [append_eq_dataWord, append_eq_dataWord] at hin
  obtain ⟨u, hrun, hrest, hparams, hpending, hmem, hrdata⟩ :=
    run_writeThenRead ((lockAllows_iff s).2 ⟨hprg, hother⟩) hp hm ha he hin
  obtain ⟨hbusy, hbyte⟩ := csrValue_fields u
  refine ⟨readCsr u, hrun, hrest, ?busy, ?byte, fun x hx => ?others⟩
  case busy => exact hbusy.trans (by rw [hpending, busyFlag_none])
  case byte => exact hbyte.trans (by rw [hrdata, hmem, read_store_self _ _ hwf])
  case others => rw [readCsr_params, readCsr_dev, hparams, hmem, read_store_of_ne _ _ _ hx]

end Sys2Proof.Machine
end

