-- ==== Sys2Proof/Proofs/LockAndPrompt.lean ====
section
/-! PROOF. The lock of the register block (R72): who waits for it, who takes it and who releases it; PRG's own wait for it, in the
confirmation prompt (R249) and in the operations that HOST starts on their own (R251). -/

namespace Sys2Proof.Machine

variable {s : State}

/-! ### Moves that wait for the lock -/

theorem lockFree_of_lockHeld (h : s.prg.lockHeld = true) : lockFree s = false := by
  simp [lockFree, h]

theorem lockFree_of_lockOther (h : s.env.lockOther ≠ none) : lockFree s = false := by
  simp [lockFree, Option.ne_none_iff_isSome.1 h]

theorem lockAllows_of_lockHeld (h : s.prg.lockHeld = true) (who : Nat) : lockAllows who s = false := by
  simp [lockAllows, h]

/-- The lock of another thread keeps a thread out (R72). -/
theorem lockAllows_of_other {who holder : Nat} (h : s.env.lockOther = some holder) (hne : who ≠ holder) :
    lockAllows who s = false := by
  simp [lockAllows, h, Ne.symm hne]

theorem hostAccess_of_not_allows {who : Nat} (h : lockAllows who s = false) (e : Event) (r : Request) :
    hostAccess who e r s = .next (block e s) := by
  simp [hostAccess, h]

theorem srcMove_of_not_free (h : lockFree s = false) (e : Event) (f : State → State) :
    srcMove e f s = .next (block e s) := by
  simp [srcMove, h]

theorem otherAcquire_of_not_free (h : lockFree s = false) (who : Nat) :
    otherAcquire who s = block (.otherAcquire who) s := by
  simp [otherAcquire, h]

theorem otherAcquire_of_free (h : lockFree s = true) (who : Nat) :
    otherAcquire who s = { s with env := { s.env with lockOther := some who } } :=
  if_pos h

/-- While the lock is held, a register access of a thread it keeps out, a block read and an acquisition do nothing but wait
(R72, R79, R290). -/
theorem step_waits {e : Event} {rest : List Event} {who : Nat} (hfree : lockFree s = false) (hin : s.env.inputs = e :: rest)
    (he : (lockAllows who s = false ∧ ∃ off width v, e = .hostWrite who off width v) ∨
      (lockAllows who s = false ∧ ∃ off width, e = .hostRead who off width) ∨
      (∃ m z f, e = .srcPio m z f) ∨ (∃ n d f, e = .srcDma n d f) ∨ e = .otherAcquire who) :
    step s = .next (block e (popped s rest)) := by
  rw [step_cons s hin]
  obtain ⟨ha, off, width, v, rfl⟩ | ⟨ha, off, width, rfl⟩ | ⟨m, z, f, rfl⟩ | ⟨n, d, f, rfl⟩ | rfl := he
  · exact hostAccess_of_not_allows (s := popped s rest) ha _ _
  · exact hostAccess_of_not_allows (s := popped s rest) ha _ _
  · exact srcMove_of_not_free (s := popped s rest) hfree _ _
  · exact srcMove_of_not_free (s := popped s rest) hfree _ _
  · exact congrArg _ (otherAcquire_of_not_free (s := popped s rest) hfree who)

/-- Settles O53: the two holders that moves wait for, then the acquisition and the release. -/
theorem lockHoldsOthersBack : Obligations.LockHoldsOthersBack := by
  refine fun s rest who => ⟨fun e hheld hin he => ?prgHolds, fun e holder hother hin he => ?threadHolds,
    fun hin hheld hother => ?acquire, fun hin => ⟨fun hmine => ?release, fun hnot => ?releaseNothing⟩⟩
  case prgHolds =>
    have hout := lockAllows_of_lockHeld hheld who
    exact step_waits (lockFree_of_lockHeld hheld) hin (he.imp (⟨hout, ·⟩) (Or.imp_left (⟨hout, ·⟩)))
  case threadHolds =>
    have hout := lockAllows_of_other (who := who) hother
    exact step_waits (lockFree_of_lockOther (by simp [hother])) hin
      (he.imp (And.imp_left hout) (Or.imp_left (And.imp_left hout)))
  case acquire =>
    have hfree : lockFree (popped s rest) = true := (lockFree_iff s).2 ⟨hheld, hother⟩
    exact (step_cons s hin).trans (congrArg _ (otherAcquire_of_free hfree who))
  case release => exact (step_cons s hin).trans (congrArg _ (if_pos hmine))
  case releaseNothing => exact (step_cons s hin).trans (congrArg _ (if_neg hnot))

/-! ### Commands in Idle -/

theorem command_startSession (h : s.prg.stage = .idle) : command .startSession s = .next (startSession s) :=
  if_neg (not_not_intro h)

/-- The three commands that are operations of their own, each with the stage it begins with (R251). -/
theorem command_standAlone (h : s.prg.stage = .idle) {c : PrgCmd} {op : PrgOp} {g : Stage}
    (hc : (c, op, g) ∈ [(PrgCmd.eraseAll, PrgOp.eraseAll, Stage.eraseCmd), (.download, .download, .wrMode),
      (.verify, .verify, .rdMode)]) : command c s = .next (standAlone c op g s) := by
  simp only [List.mem_cons, Prod.mk.injEq, List.not_mem_nil, or_false] at hc
  obtain ⟨rfl, rfl, rfl⟩ | ⟨rfl, rfl, rfl⟩ | ⟨rfl, rfl, rfl⟩ := hc <;> exact if_neg (not_not_intro h)

theorem startSession_of_precondition (h : precondition s = none) :
    startSession s = { s with prg := { s.prg with stage := .confirm, op := .session } } := by
  rw [startSession, h]

theorem standAlone_of_free (h : precondition s = none) (hfree : lockFree s = true) (c : PrgCmd) (op : PrgOp) (g : Stage) :
    standAlone c op g s = takeLock op g s := by
  rw [standAlone, h]
  exact if_pos hfree

theorem standAlone_of_not_free (h : precondition s = none) (hfree : lockFree s = false) (c : PrgCmd) (op : PrgOp)
    (g : Stage) : standAlone c op g s = block (.cmd c) s := by
  rw [standAlone, h]
  exact if_neg (by simp [hfree])

/-! ### The confirmation prompt -/

theorem answer_declined (h : s.prg.stage = .confirm) :
    answer false s = endIdle .declined { dropAnswers s with prg := { s.prg with img := [] } } :=
  if_neg (not_not_intro h)

theorem answer_accepted_of_free (h : s.prg.stage = .confirm) (hfree : lockFree s = true) :
    answer true s = takeLock .session .eraseCmd (dropAnswers s) :=
  (if_neg (not_not_intro h)).trans (if_pos hfree)

theorem answer_accepted_of_not_free (h : s.prg.stage = .confirm) (hfree : lockFree s = false) :
    answer true s = block (.confirm true) (dropAnswers s) :=
  (if_neg (not_not_intro h)).trans (if_neg (Bool.eq_false_iff.1 hfree))

/-- Settles O44: the command in Idle, and the three rows of Confirm. -/
theorem confirmationGate : Obligations.ConfirmationGate := by
  refine fun s rest => ⟨fun hidle hin hready himg => ?start, fun hconfirm => ⟨fun hin => ?declined,
    fun hin hheld hother => ?taken, fun hin hheld hother => ?waits⟩⟩
  case start =>
    have hpre : precondition (popped s rest) = none := (precondition_none s).2 ⟨hready, himg⟩
    exact (step_cons s hin).trans ((command_startSession (s := popped s rest) hidle).trans
      (congrArg _ (startSession_of_precondition hpre)))
  case declined => exact (step_cons s hin).trans (congrArg _ (answer_declined (s := popped s rest) hconfirm))
  case taken =>
    have hfree : lockFree (popped s rest) = true := (lockFree_iff s).2 ⟨hheld, hother⟩
    exact (step_cons s hin).trans (congrArg _ (answer_accepted_of_free (s := popped s rest) hconfirm hfree))
  case waits =>
    have hfree : lockFree (popped s rest) = false := lockFree_of_lockOther (s := s) hother
    exact (step_cons s hin).trans (congrArg _ (answer_accepted_of_not_free (s := popped s rest) hconfirm hfree))

/-! ### The end of an operation of its own -/

/-- The state in which a poll of PRG leaves it, with the poll counted and recorded (R226). -/
def polled (s : State) : State := countPoll (record (.read cfgCsrOff 4) (readCsr s))

/-- With the handle there a poll that does not fail is made, and its BUSY is DEV's (R215, R226). -/
theorem access_poll (h : s.env.devReady = true) (k : State → Result) :
    access (handleCheck s) false (.read cfgCsrOff 4) s k = k (record (.read cfgCsrOff 4) (readCsr s)) := by
  rw [handleCheck_ready s h]
  rfl

theorem csrBusy_polled (h : s.dev.pending = .none) : csrBusy (polled s).env.busData = false :=
  (csrValue_fields s).1.trans (busyFlag_eq_false.2 h)

/-- The download's marker leaves DEV, the image, the address, the operation and the lock alone (R287). -/
theorem markDownload_frame (s : State) :
    (markDownload s).dev = s.dev ∧ (markDownload s).prg.img = s.prg.img ∧
      (markDownload s).prg.imgSize = s.prg.imgSize ∧ (markDownload s).prg.addr = s.prg.addr ∧
      (markDownload s).prg.op = s.prg.op ∧ (markDownload s).prg.lockHeld = s.prg.lockHeld := by
  obtain ⟨l, hl⟩ := markDownload_eq s
  rw [hl]
  exact ⟨rfl, rfl, rfl, rfl, rfl, rfl⟩

/-- ERASEALL on its own ends when the erase has completed (R251). -/
theorem stepErasePoll_ends (hready : s.env.devReady = true) (hp : s.dev.pending = .none) (hop : s.prg.op = .eraseAll) :
    stepErasePoll false s = .next (endWith .ok (polled s)) := by
  have hop' : (polled s).prg.op = .eraseAll := hop
  rw [stepErasePoll, access_poll hready]
  dsimp only
  rw [← polled, if_neg (Bool.eq_false_iff.1 (csrBusy_polled hp)), if_pos hop']

/-- DOWNLOAD on its own ends when the last byte has been written (R251). -/
theorem stepWrPoll_ends (hready : s.env.devReady = true) (hp : s.dev.pending = .none) (hop : s.prg.op = .download)
    (hlast : s.prg.imgSize ≤ s.prg.addr + 1) :
    stepWrPoll false s = .next (endWith .ok (markDownload (nextAddr (polled s)))) := by
  obtain ⟨-, -, hsize, haddr, hop', -⟩ := markDownload_frame (nextAddr (polled s))
  have hdone : ¬(nextAddr (polled s)).prg.addr < (nextAddr (polled s)).prg.imgSize := Nat.not_lt.2 hlast
  have hop : (nextAddr (polled s)).prg.op = .download := hop
  rw [stepWrPoll, access_poll hready]
  dsimp only
  rw [← polled, if_neg (Bool.eq_false_iff.1 (csrBusy_polled hp)), haddr, hsize, if_neg hdone, if_pos (hop'.trans hop)]

/-- Settles O51: the command takes the lock or waits for it, and the poll that sees the last access done ends the operation. -/
theorem standAloneOperations : Obligations.StandAloneOperations := by
  refine fun s c op g rest hc => ⟨fun hidle hin hready himg hheld => ?begins, fun hin hop hready hp hlast => ?ends⟩
  case begins =>
    have hpre : precondition (popped s rest) = none := (precondition_none s).2 ⟨hready, himg⟩
    have hcmd := (step_cons s hin).trans (command_standAlone (s := popped s rest) hidle hc)
    refine ⟨fun hother => ?_, fun hother => ?_⟩
    · have hfree : lockFree (popped s rest) = true := (lockFree_iff s).2 ⟨hheld, hother⟩
      exact hcmd.trans (congrArg _ (standAlone_of_free hpre hfree c op g))
    · have hfree : lockFree (popped s rest) = false := lockFree_of_lockOther (s := s) hother
      exact hcmd.trans (congrArg _ (standAlone_of_not_free hpre hfree c op g))
  case ends =>
    have hstep : step s = prgStep false (popped s rest) := step_cons s hin
    obtain ⟨hg, rfl⟩ | ⟨hg, rfl, hlast⟩ := hlast
    · rw [prgStep, popped_prg, hg] at hstep
      exact ⟨_, hstep.trans (stepErasePoll_ends (s := popped s rest) hready hp hop), rfl, rfl, rfl, rfl, rfl⟩
    · rw [prgStep, popped_prg, hg] at hstep
      obtain ⟨hdev, himg, -, -, -, hheld⟩ := markDownload_frame (nextAddr (polled (popped s rest)))
      exact ⟨_, hstep.trans (stepWrPoll_ends (s := popped s rest) hready hp hop hlast), rfl, rfl, hdev, himg, hheld⟩

end Sys2Proof.Machine
end

