-- ==== Sys2Proof/Proofs/Encoding.lean ====
section
/-! PROOF. The decoder and the encoder are inverse to each other (R90 to R110): first what the fields of an assembled word are, then
the encoding of what the decoder answers, then the decoding of what the encoder writes. -/

namespace Sys2Proof

/-! ### The fields of an assembled word -/

/-- A field is read back from its own place. -/
theorem extractLsb'_place_self (lo : Nat) {n : Nat} (v : BitVec n) (h : lo + n ≤ 32) : (place lo v).extractLsb' lo n = v := by
  ext i hi
  simp [place]
  grind

/-- A field placed above another leaves that one's bits 0. -/
theorem extractLsb'_place_above {lo hi m : Nat} (n : Nat) (v : BitVec m) (h : lo + n ≤ hi) :
    (place hi v).extractLsb' lo n = 0 := by
  ext i hi
  simp [place]
  grind

/-- A field placed below another ends before that one begins. -/
theorem extractLsb'_place_below {lo hi m : Nat} (n : Nat) (v : BitVec m) (h : lo + m ≤ hi) :
    (place lo v).extractLsb' hi n = 0 := by
  ext i hi
  simp [place]
  grind

/-- The code of a type-defining word whose payload stays below the code (R91). -/
theorem codeOf_typedWord_of_payload (t : Code) {p : Word} (h : p.extractLsb' 27 4 = 0) : codeOf (typedWord t p) = t := by
  have htop : (BitVec.twoPow 32 31).extractLsb' 27 4 = 0 := by decide
  rw [codeOf, typedWord, BitVec.extractLsb'_or, BitVec.extractLsb'_or, extractLsb'_place_self 27 t (by decide), htop, h]
  simp

/-! ### What the decoder answers on the stream port -/

theorem DecodeCtx.generic_iff {c : DecodeCtx} : c.generic = true ↔ c.remaining = 0 := beq_iff_eq

/-- In a decoder run every word is the captured word (R121). -/
theorem decodeStream_of_run {c : DecodeCtx} (h : c.generic = false) (w : Word) : decodeStream c w = .decdata w :=
  if_pos fun hr => Bool.eq_false_iff.1 h (DecodeCtx.generic_iff.2 hr)

/-- In Generic, bit 31 tells the two kinds of rows apart (R95). -/
theorem decodeStream_of_generic {c : DecodeCtx} (h : c.generic = true) (w : Word) :
    decodeStream c w = if typeDefining w then decodeTyped w else decodeContinuation c w :=
  if_neg (not_not_intro (DecodeCtx.generic_iff.1 h))

/-- The three kinds of stream words (R90, R95). -/
theorem decodeStream_cases (c : DecodeCtx) (w : Word) :
    (c.generic = false ∧ decodeStream c w = .decdata w) ∨
    (c.generic = true ∧ typeDefining w = true ∧ decodeStream c w = decodeTyped w) ∨
    (c.generic = true ∧ typeDefining w = false ∧ decodeStream c w = decodeContinuation c w) := by
  cases hg : c.generic
  · exact .inl ⟨rfl, decodeStream_of_run hg w⟩
  · rw [decodeStream_of_generic hg]
    cases hw : typeDefining w <;> simp

theorem wellFormedIn_decodeTyped {c : DecodeCtx} (h : c.generic = true) (w : Word) :
    (decodeTyped w).wellFormedIn c = true := by
  simp only [decodeTyped, apply_ite (Instr.wellFormedIn c)]
  simp only [Instr.wellFormedIn, ite_self, h]

/-- The undefined codes are those R92 gives no name (R8). -/
theorem undefinedCode_iff (t : Code) : undefinedCode t = true ↔ t ≠ codeBlkHdr ∧ t ≠ codeBlkTrl ∧ t ≠ codeEvHdr ∧
    t ≠ codeTrgTime ∧ t ≠ codeDecHdr ∧ t ≠ codeEoe ∧ t ≠ codeDnv ∧ t ≠ codeFill := by
  revert t
  decide

/-- A row's condition on `lastType` (R126). -/
theorem continuationRow_selected {c : DecodeCtx} {t : Code} (h : c.generic = true) (ht : c.lastType = t) :
    (c.generic && c.lastType == t) = true := by
  simp [h, ht]

/-- The continuation row decoded is the one that `lastType` and `isContinuation` select (R126, R155, R156). -/
theorem wellFormedIn_decodeContinuation {c : DecodeCtx} (h : c.generic = true) (w : Word) :
    (decodeContinuation c w).wellFormedIn c = true := by
  unfold decodeContinuation
  dsimp only
  split_ifs with hblkhdr hblktrl hevhdr htrgtime hcont hdechdr heoe hdnv hfill
  · exact continuationRow_selected h hblkhdr
  · exact continuationRow_selected h hblktrl
  · exact continuationRow_selected h hevhdr
  · exact Bool.and_eq_true_iff.2 ⟨continuationRow_selected h htrgtime, hcont⟩
  · exact Bool.and_eq_true_iff.2 ⟨continuationRow_selected h htrgtime, by simpa using hcont⟩
  · exact continuationRow_selected h hdechdr
  · exact continuationRow_selected h heoe
  · exact continuationRow_selected h hdnv
  · exact continuationRow_selected h hfill
  · exact Bool.and_eq_true_iff.2
      ⟨h, (undefinedCode_iff _).2 ⟨hblkhdr, hblktrl, hevhdr, htrgtime, hdechdr, heoe, hdnv, hfill⟩⟩

/-- What is decoded from a stream word is well formed: the state selects its row (R95, R115). -/
theorem wellFormedIn_decodeStream (c : DecodeCtx) (w : Word) : (decodeStream c w).wellFormedIn c = true := by
  obtain ⟨hg, hd⟩ | ⟨hg, -, hd⟩ | ⟨hg, -, hd⟩ := decodeStream_cases c w <;> rw [hd]
  · simp [Instr.wellFormedIn, hg]
  · exact wellFormedIn_decodeTyped hg w
  · exact wellFormedIn_decodeContinuation hg w

/-! ### Encoding what was decoded from the stream -/

theorem encode_of_onStream {i : Instr} (h : i.onStream = true) : encode i = .stream (encodeWord i) := by
  cases i
  case setWren | bulkErase | setRd | poll | wrbyte | rdbyte => cases h
  all_goals rfl

/-- A type-defining word is its code over the fields its payload is made of (R91). -/
theorem typedWord_of_fields {w p : Word} {t : Code} (hw : typeDefining w = true) (ht : codeOf w = t)
    (hp : p = place 0 (payloadOf w)) : typedWord t p = w := by
  subst ht hp
  exact typedWord_of_typeDefining w hw

theorem encodeWord_decodeTyped {w : Word} (hw : typeDefining w = true) : encodeWord (decodeTyped w) = w := by
  unfold decodeTyped
  obtain h | h | h | h | h | h | h | h | h | h | h | h | h | h | h | h := code_cases (codeOf w) <;> rw [h]
  · exact typedWord_of_fields hw h (place_blkhdr_fields w)
  · exact typedWord_of_fields hw h (place_slot_low22 w)
  · exact typedWord_of_fields hw h (place_evhdr_fields w)
  · exact typedWord_of_fields hw h rfl
  · exact typedWord_of_fields hw h rfl
  · exact typedWord_of_fields hw h rfl
  · exact typedWord_of_fields hw h rfl
  · exact typedWord_of_fields hw h rfl
  · exact typedWord_of_fields hw h (place_dechdr_fields w)
  · exact typedWord_of_fields hw h rfl
  · exact typedWord_of_fields hw h rfl
  · exact typedWord_of_fields hw h rfl
  · exact typedWord_of_fields hw h rfl
  · exact typedWord_of_fields hw h rfl
  · exact typedWord_of_fields hw h (place_slot_low22 w)
  · exact typedWord_of_fields hw h (place_slot_low22 w)

/-- Every continuation row keeps the 31 bits below bit 31, one of them as two fields (R93, R101). -/
theorem encodeWord_decodeContinuation (c : DecodeCtx) {w : Word} (hw : typeDefining w = false) :
    encodeWord (decodeContinuation c w) = w := by
  have hplain := contWord_of_not_typeDefining w hw
  have htime := contWord_of_trgtime_fields w hw
  simp only [decodeContinuation, apply_ite encodeWord]
  simp only [encodeWord, hplain, htime, ite_self]

theorem encode_decodeStream (c : DecodeCtx) (w : Word) : encode (decodeStream c w) = .stream w := by
  rw [encode_of_onStream (Machine.onStream_decodeStream c w)]
  obtain ⟨-, hd⟩ | ⟨-, hw, hd⟩ | ⟨-, hw, hd⟩ := decodeStream_cases c w <;> rw [hd]
  · rfl
  · rw [encodeWord_decodeTyped hw]
  · rw [encodeWord_decodeContinuation c hw]

/-- The generic row is never answered: `lastType` refines it (R126). -/
theorem decodeStream_ne_cont (c : DecodeCtx) (w : Word) (p : BitVec 31) : decodeStream c w ≠ .cont p := by
  obtain ⟨-, hd⟩ | ⟨-, hw, hd⟩ | ⟨-, -, hd⟩ := decodeStream_cases c w <;> rw [hd]
  · nofun
  · intro h
    have hword : w = contWord p := (encodeWord_decodeTyped hw).symm.trans (congrArg encodeWord h)
    rw [hword, typeDefining_contWord] at hw
    cases hw
  · unfold decodeContinuation
    dsimp only
    split_ifs <;> nofun

/-! ### Accesses to the register block -/

/-- Only the two EEPROM registers pass the checks, at width 4 (R47, R66, R70). -/
theorem checkAccess_eq_none {off width : Nat} :
    checkAccess off width = none ↔ width = 4 ∧ (off = cfgCsrOff ∨ off = cfgDataOff) := by
  unfold checkAccess cfgCsrOff cfgDataOff
  split_ifs <;> simp <;> omega

theorem decode_writeCsr (c : DecodeCtx) (v : Word) : decode c (.write cfgCsrOff 4 v) =
    if v = cmdWren then .ok .setWren else if v = cmdBulkErase then .ok .bulkErase
    else if v = cmdRead then .ok .setRd else .error (.unknownCommand v) := rfl

/-- An access that decodes has passed the checks. -/
theorem checkAccess_of_decode_write {c : DecodeCtx} {off width : Nat} {v : Word} {i : Instr}
    (h : decode c (.write off width v) = .ok i) : checkAccess off width = none := by
  unfold decode at h
  cases hc : checkAccess off width <;> simp_all

theorem checkAccess_of_decode_read {c : DecodeCtx} {off width : Nat} {i : Instr}
    (h : decode c (.read off width) = .ok i) : checkAccess off width = none := by
  unfold decode at h
  cases hc : checkAccess off width <;> simp_all

/-- A command register write that decodes is one of the three commands (R105, R110). -/
theorem decode_writeCsr_ok {c : DecodeCtx} {v : Word} {i : Instr} (h : decode c (.write cfgCsrOff 4 v) = .ok i) :
    (v = cmdWren ∧ i = .setWren) ∨ (v = cmdBulkErase ∧ i = .bulkErase) ∨ (v = cmdRead ∧ i = .setRd) := by
  rw [decode_writeCsr] at h
  split_ifs at h with hwren herase hread <;> cases h
  · exact .inl ⟨hwren, rfl⟩
  · exact .inr (.inl ⟨herase, rfl⟩)
  · exact .inr (.inr ⟨hread, rfl⟩)

/-- A data register write that decodes is the row of the mode (R42, R107). -/
theorem decode_writeData_ok {c : DecodeCtx} {v : Word} {i : Instr} (h : decode c (.write cfgDataOff 4 v) = .ok i) :
    (c.mode = .writeEnable ∧ i = .wrbyte (addrOf v) (byteOf v)) ∨ (c.mode = .read ∧ i = .rdbyte (addrOf v)) := by
  obtain ⟨remaining, lastType, isContinuation, mode⟩ := c
  cases mode <;> cases h
  · exact .inl ⟨rfl, rfl⟩
  · exact .inr ⟨rfl, rfl⟩

/-- The address of a CFG_DATA word over a low byte 0 is the word without its low byte (R107, R224). -/
theorem dataWord_zero (v : Word) : dataWord (addrOf v) 0 = v &&& 0xFFFFFF00 := by
  have hm : ∀ i : Fin 32, (0xFFFFFF00 : Word)[i.val] = decide (8 ≤ i.val) := by decide
  ext i hi
  have := hm ⟨i, hi⟩
  simp [dataWord, addrOf, place] at *
  grind

/-- Settles O2: the register a write goes to, and for CFG_DATA the mode, says which rows it can be. -/
theorem encodeOfDecode : Obligations.EncodeOfDecode := by
  refine fun c i => ⟨fun w h => ?stream, fun off width v h => ?write, fun off width h => ?read⟩
  case stream =>
    cases h
    exact ⟨wellFormedIn_decodeStream c w, encode_decodeStream c w⟩
  case write =>
    obtain ⟨rfl, rfl | rfl⟩ := checkAccess_eq_none.1 (checkAccess_of_decode_write h)
    · obtain ⟨rfl, rfl⟩ | ⟨rfl, rfl⟩ | ⟨rfl, rfl⟩ := decode_writeCsr_ok h <;>
        exact ⟨rfl, rfl, .inl rfl, fun _ => rfl, nofun⟩
    · obtain ⟨hm, rfl⟩ | ⟨hm, rfl⟩ := decode_writeData_ok h
      · refine ⟨beq_iff_eq.2 hm, rfl, .inr rfl, fun _ => ?_, fun _ hr => ?_⟩
        · exact congrArg (Request.write cfgDataOff 4) (dataWord_of_fields v)
        · cases hm.symm.trans hr
      · refine ⟨beq_iff_eq.2 hm, rfl, .inr rfl, fun hr => ?_, fun _ _ => ?_⟩
        · exact absurd hm (hr.resolve_left nofun)
        · exact congrArg (Request.write cfgDataOff 4) (dataWord_zero v)
  case read =>
    obtain ⟨rfl, rfl | rfl⟩ := checkAccess_eq_none.1 (checkAccess_of_decode_read h)
    · cases h
      exact ⟨rfl, rfl, rfl⟩
    · cases h

/-! ### Decoding what was encoded -/

/-- A type-defining word in Generic is decoded by its code (R92, R95). -/
theorem decode_typedWord {c : DecodeCtx} {t : Code} {p : Word} {i : Instr} (hg : c.generic = true)
    (h : decodeTyped (typedWord t p) = i) : decode c (.stream (typedWord t p)) = .ok i := by
  rw [decode, decodeStream_of_generic hg, typeDefining_typedWord, if_pos rfl, h]

/-- A continuation word in Generic is decoded by `lastType` (R95, R126). -/
theorem decode_contWord {c : DecodeCtx} {p : BitVec 31} {i : Instr} (hg : c.generic = true)
    (h : decodeContinuation c (contWord p) = i) : decode c (.stream (contWord p)) = .ok i := by
  rw [decode, decodeStream_of_generic hg, typeDefining_contWord, if_neg nofun, h]

/-- The two fields of a TriggerTime continuation word are its payload (R101). -/
theorem place_trgtimeC_fields (ign : BitVec 11) (time2 : BitVec 20) :
    place 20 ign ||| place 0 time2 = contWord (ign ++ time2) := by
  ext i hi
  simp [contWord, place]
  grind

theorem decodeContinuation_trgtimeC {c : DecodeCtx} (ht : c.lastType = codeTrgTime) (hc : c.isContinuation = false)
    (ign : BitVec 11) (time2 : BitVec 20) : decodeContinuation c (contWord (ign ++ time2)) = .trgtimeC ign time2 := by
  have hign : contIgnoredOf (contWord (ign ++ time2)) = ign := by
    simp [← place_trgtimeC_fields, contIgnoredOf, BitVec.extractLsb'_or, extractLsb'_place_self, extractLsb'_place_below]
  have htime : time2Of (contWord (ign ++ time2)) = time2 := by
    simp [← place_trgtimeC_fields, time2Of, BitVec.extractLsb'_or, extractLsb'_place_self, extractLsb'_place_above]
  unfold decodeContinuation
  rw [ht, hc, hign, htime]
  rfl

theorem decode_writeData_of_writeEnable {c : DecodeCtx} (h : c.mode = .writeEnable) (v : Word) :
    decode c (.write cfgDataOff 4 v) = .ok (.wrbyte (addrOf v) (byteOf v)) := by
  obtain ⟨remaining, lastType, isContinuation, mode⟩ := c
  cases h
  rfl

theorem decode_writeData_of_read {c : DecodeCtx} (h : c.mode = .read) (v : Word) :
    decode c (.write cfgDataOff 4 v) = .ok (.rdbyte (addrOf v)) := by
  obtain ⟨remaining, lastType, isContinuation, mode⟩ := c
  cases h
  rfl

/-- Every row decodes its own word: a type-defining one by its code, a continuation by `lastType`, a register access by its
register, its value and the mode. The generic row alone is refined. -/
theorem decode_encode {c : DecodeCtx} {i : Instr} (h : i.wellFormedIn c = true) (hne : ∀ p, i ≠ .cont p) :
    decode c (encode i) = .ok i := by
  cases i
  case blkhdr | blktrl | evhdr | dechdr | dnv | fill =>
    refine decode_typedWord h ?_
    simp [decodeTyped, codeOf_typedWord_of_payload, codeBlkHdr, codeBlkTrl, codeEvHdr, codeTrgTime, codeDecHdr, codeEoe,
      codeDnv, codeFill, extractLsb'_typedWord, slotOf, modidOf, blknumOf, nevtOf, low22Of, trigtimeOf, evtnumOf,
      countIgnoredOf, countOf, BitVec.extractLsb'_or, extractLsb'_place_self, extractLsb'_place_above,
      extractLsb'_place_below]
  case trgtime | undef4 | undef5 | undef6 | undef7 | undef9 | undef10 | undef11 | undef12 | eoe =>
    refine decode_typedWord h ?_
    unfold decodeTyped
    rw [codeOf_typedWord, payloadOf_typedWord]
    rfl
  case cont p => exact absurd rfl (hne p)
  case blkhdrC | blktrlC | evhdrC | dechdrC | eoeC | dnvC | fillC =>
    obtain ⟨hg, ht⟩ := Bool.and_eq_true_iff.1 h
    refine decode_contWord hg ?_
    unfold decodeContinuation
    rw [eq_of_beq ht, contPayloadOf_contWord]
    rfl
  case trgtimeC ign time2 =>
    obtain ⟨hrow, hc⟩ := Bool.and_eq_true_iff.1 h
    obtain ⟨hg, ht⟩ := Bool.and_eq_true_iff.1 hrow
    rw [encode_of_onStream rfl, encodeWord, place_trgtimeC_fields]
    exact decode_contWord hg (decodeContinuation_trgtimeC (eq_of_beq ht) (by simpa using hc) ign time2)
  case trgtimeCerr p =>
    obtain ⟨hrow, hc⟩ := Bool.and_eq_true_iff.1 h
    obtain ⟨hg, ht⟩ := Bool.and_eq_true_iff.1 hrow
    refine decode_contWord hg ?_
    unfold decodeContinuation
    rw [eq_of_beq ht, hc, contPayloadOf_contWord]
    rfl
  case undefC p =>
    obtain ⟨hg, ht⟩ := Bool.and_eq_true_iff.1 h
    refine decode_contWord hg ?_
    simp [decodeContinuation, (undefinedCode_iff _).1 ht]
  case decdata w => exact congrArg _ (decodeStream_of_run (by simpa [Instr.wellFormedIn] using h) w)
  case setWren | bulkErase | setRd | poll => rfl
  case wrbyte a b => simp [encode, encodeWord, decode_writeData_of_writeEnable (eq_of_beq h)]
  case rdbyte a => simp [encode, encodeWord, decode_writeData_of_read (eq_of_beq h)]

/-- Settles O1: CONT comes back as what its word decodes to on the stream port, any other row as itself. -/
theorem decodeOfEncode : Obligations.DecodeOfEncode := by
  refine fun c i h => ⟨decode_encode h, ?_⟩
  rintro p rfl
  exact ⟨decodeStream c (contWord p), rfl, wellFormedIn_decodeStream c _, decodeStream_ne_cont c _,
    encode_decodeStream c _⟩

/-- Settles O3: two rows with one word are both what that word decodes to. -/
theorem streamDecodingTotalAndUnique : Obligations.StreamDecodingTotalAndUnique := by
  refine fun c w => ⟨⟨decodeStream c w, rfl⟩, fun i j hi hj hni hnj hwi hwj => ?_⟩
  have hdi := decode_encode hi hni
  have hdj := decode_encode hj hnj
  rw [hwi] at hdi
  rw [hwj] at hdj
  exact Except.ok.inj (hdi.symm.trans hdj)

/-! ### Fixed words and masks -/

/-- Settles O4: nine closed words, so the decoder's own evaluation is the proof. -/
theorem sampleWordsDecode : Obligations.SampleWordsDecode := by
  unfold Obligations.SampleWordsDecode
  decide

/-- Settles O6: a framing predicate compares bit 31 and the four bits of the code (R114). -/
theorem framingPredicatesAreMasks : Obligations.FramingPredicatesAreMasks := by
  intro w
  have hheader : (0x80000000 : Word) = BitVec.twoPow 32 31 ||| place 27 codeBlkHdr := by decide
  have htrailer : (0x88000000 : Word) = BitVec.twoPow 32 31 ||| place 27 codeBlkTrl := by decide
  rw [hheader, htrailer, and_typeMask_eq_iff, and_typeMask_eq_iff]
  simp [isBlockHeader, isBlockTrailer]

end Sys2Proof
end

