-- ==== Sys2Proof/Proofs/ProgrammerProgress.lean ====
section
/-! PROOF. PRG in an operation never stops (R110, R230, R280), and left to itself it ends the operation under a finite `POLL_MAX`
(R311). One lemma for each stage shows both: the stage's step answers a next state (`Advances`), and there the number of
steps that are left is smaller. -/

namespace Sys2Proof.Machine

variable {s t u : State}

/-! ### What a step of PRG keeps and what it brings down -/

/-- PRG issues a command only with nothing pending (R229): launch premise P1 of R310 where an operation begins with the command, and
what the last poll saw where a loop of the SESSION goes before it. -/
def quietAtCommand (s : State) : Prop :=
  s.prg.stage = .eraseCmd ∨ s.prg.stage = .wrMode ∨ s.prg.stage = .rdMode → s.dev.pending = .none

/-- A bound on the steps PRG takes to Idle when DEV completes nothing more, `POLL_MAX` being `m`: what PRG starts stays pending, so
the polls of the next wait are its last. -/
def stepsLeft (m : Nat) (s : State) : Nat :=
  match s.prg.stage with
  | .idle | .confirm => 0
  | .finish => 1
  | .eraseCmd | .wrByte | .rdByte => m + 3
  | .wrMode | .rdMode => m + 4
  | .erasePoll | .wrPoll | .rdPoll => if s.dev.pending = .none then m + 5 else m - s.prg.polls + 2

/-- What holds of a step of PRG from `s` to `t`: before Idle (where the moves that wait are woken) the list of moves is as it was, a
command is come to with nothing pending, and under a finite `POLL_MAX` fewer steps are left. -/
structure Advances (s t : State) : Prop where
  params : t.params = s.params
  inputs : t.prg.stage ≠ .idle → t.env.inputs = s.env.inputs
  stage  : t.prg.stage ≠ .confirm
  quiet  : quietAtCommand t
  left   : ∀ m, s.params.pollMax = some m → stepsLeft m t < stepsLeft m s

/-- The stages whose step is a register access of PRG (R250). -/
def accessStage (g : Stage) : Bool := lockingStage g && g != .finish

/-- The stages of a busy wait (R226, R250). -/
def pollStage (g : Stage) : Bool := g == .erasePoll || g == .wrPoll || g == .rdPoll

theorem pollStage_iff {g : Stage} : pollStage g = true ↔ g = .erasePoll ∨ g = .wrPoll ∨ g = .rdPoll := by
  simp [pollStage, or_assoc]

theorem accessStage_of_poll {g : Stage} (h : pollStage g = true) : accessStage g = true := by
  obtain rfl | rfl | rfl := pollStage_iff.1 h <;> rfl

theorem stepsLeft_of_poll (m : Nat) (h : pollStage s.prg.stage = true) :
    stepsLeft m s = if s.dev.pending = .none then m + 5 else m - s.prg.polls + 2 := by
  obtain hg | hg | hg := pollStage_iff.1 h <;> rw [stepsLeft, hg]

/-- Before stage Finish at least the step into it and the step out of it are left. -/
theorem one_lt_stepsLeft (m : Nat) (h : accessStage s.prg.stage = true) : 1 < stepsLeft m s := by
  unfold stepsLeft
  cases hg : s.prg.stage <;> rw [hg] at h <;> dsimp only
  case idle | confirm | finish => cases h
  case erasePoll | wrPoll | rdPoll => split <;> omega
  all_goals omega

/-- An operation that ends goes on to Finish (R250). -/
theorem advances_endWith (hs : accessStage s.prg.stage = true) (hparams : u.params = s.params)
    (hinputs : u.env.inputs = s.env.inputs) (e : PrgResult) : Advances s (endWith e u) where
  params := hparams
  inputs := fun _ => hinputs
  stage := nofun
  quiet := nofun
  left := fun m _ => one_lt_stepsLeft m hs

/-- Stage Finish is one step from Idle (R250). -/
theorem advances_finish (hg : s.prg.stage = .finish) : Advances s (finish s) where
  params := rfl
  inputs := fun h => absurd rfl h
  stage := nofun
  quiet := nofun
  left := fun m _ => by simp [stepsLeft, hg]

/-! ### Accesses that are made -/

/-- An access that DEV accepts is made, or its error ends the operation (R215, R232). -/
theorem access_advances (hs : accessStage s.prg.stage = true) {r : Request} (hu : present r s = .next u)
    (check : Option PrgResult) (fail : Bool) {k : State → Result} (hk : ∃ t, k (record r u) = .next t ∧ Advances s t) :
    ∃ t, access check fail r s k = .next t ∧ Advances s t := by
  cases he : accessError check fail with
  | some e => exact ⟨endWith e s, (access_next s).2 (.inl ⟨e, he, rfl⟩), advances_endWith hs rfl rfl e⟩
  | none =>
    obtain ⟨t, ht, hadv⟩ := hk
    exact ⟨t, (access_next s).2 (.inr ⟨he, u, hu, ht⟩), hadv⟩

/-- The address of the byte PRG looks at lies in the array (R8, R34, R230). -/
theorem StateInv.addr_in_array (h : StateInv s) (hb : byteStage s.prg.stage = true) :
    (BitVec.ofNat 24 s.prg.addr).toNat < s.params.eepSize := by
  have hlt := h.addr_lt hb
  have hle := h.img_le
  have hwf := h.params_wf
  simp only [Config.Params.wf, Bool.and_eq_true, decide_eq_true_eq] at hwf
  rw [BitVec.toNat_ofNat]
  exact (Nat.mod_le _ _).trans_lt (by omega)

/-- The byte PRG looks at has a value (R33, R34). -/
theorem StateInv.img_at_addr (h : StateInv s) (hb : byteStage s.prg.stage = true) : ∃ b, s.prg.img[s.prg.addr]? = some b :=
  ⟨_, List.getElem?_eq_getElem (h.addr_lt hb)⟩

/-! ### The stages that command -/

theorem stepEraseCmd_advances (hg : s.prg.stage = .eraseCmd) (hq : quietAtCommand s) (fail : Bool) :
    ∃ t, stepEraseCmd fail s = .next t ∧ Advances s t := by
  have hu : present (.write cfgCsrOff 4 cmdBulkErase) s = .next (startOp .erase s) :=
    whenNotBusy_of_none s (hq (.inl hg))
  refine access_advances (by rw [hg]; rfl) hu _ _ ⟨_, rfl, ?_⟩
  exact ⟨rfl, fun _ => rfl, nofun, nofun, fun m _ => by simp [stepsLeft, hg]⟩

theorem stepWrMode_advances (hg : s.prg.stage = .wrMode) (hq : quietAtCommand s) (fail : Bool) :
    ∃ t, stepWrMode fail s = .next t ∧ Advances s t := by
  have hu : present (.write cfgCsrOff 4 cmdWren) s = .next (setMode .writeEnable s) :=
    whenNotBusy_of_none s (hq (.inr (.inl hg)))
  refine access_advances (by rw [hg]; rfl) hu _ _ ⟨_, rfl, ?_⟩
  exact ⟨rfl, fun _ => rfl, nofun, nofun, fun m _ => by simp [stepsLeft, hg]⟩

theorem stepRdMode_advances (hg : s.prg.stage = .rdMode) (hq : quietAtCommand s) (fail : Bool) :
    ∃ t, stepRdMode fail s = .next t ∧ Advances s t := by
  have hu : present (.write cfgCsrOff 4 cmdRead) s = .next (setMode .read s) :=
    whenNotBusy_of_none s (hq (.inr (.inr hg)))
  refine access_advances (by rw [hg]; rfl) hu _ _ ⟨_, rfl, ?_⟩
  exact ⟨rfl, fun _ => rfl, nofun, nofun, fun m _ => by simp [stepsLeft, hg]⟩

theorem stepWrByte_advances (h : StateInv s) (hg : s.prg.stage = .wrByte) (fail : Bool) :
    ∃ t, stepWrByte fail s = .next t ∧ Advances s t := by
  have hb : byteStage s.prg.stage = true := by rw [hg]; rfl
  obtain ⟨b, himg⟩ := h.img_at_addr hb
  obtain ⟨hm, hp⟩ : s.dev.mode = .writeEnable ∧ s.dev.pending = .none := by simpa [devAtStage, hg] using h.dev_stage
  have hu := (present_data s _ b hm).trans (acceptData_of_writeEnable hp hm (h.addr_in_array hb) b)
  rw [stepWrByte, himg]
  refine access_advances (by rw [hg]; rfl) hu _ _ ⟨_, rfl, ?_⟩
  exact ⟨rfl, fun _ => rfl, nofun, nofun, fun m _ => by simp [stepsLeft, hg]⟩

theorem stepRdByte_advances (h : StateInv s) (hg : s.prg.stage = .rdByte) (fail : Bool) :
    ∃ t, stepRdByte fail s = .next t ∧ Advances s t := by
  have hb : byteStage s.prg.stage = true := by rw [hg]; rfl
  obtain ⟨hm, hp⟩ : s.dev.mode = .read ∧ s.dev.pending = .none := by simpa [devAtStage, hg] using h.dev_stage
  have hu := (present_dataRead s _ 0 hm).trans (acceptData_zero_of_read hp hm (h.addr_in_array hb))
  refine access_advances (by rw [hg]; rfl) hu _ _ ⟨_, rfl, ?_⟩
  exact ⟨rfl, fun _ => rfl, nofun, nofun, fun m _ => by simp [stepsLeft, hg]⟩

/-! ### The stages that poll -/

theorem timedOut_of_pollMax {p : Config.Params} {m : Nat} (h : p.pollMax = some m) (polls : Nat) :
    timedOut p polls = decide (m ≤ polls) := by
  rw [timedOut, h]

/-- The erase's marker touches PRG's output port only (R287). -/
theorem markErase_eq (s : State) : ∃ l, markErase s = { s with prg := { s.prg with emitted := l } } := by
  obtain ⟨-, hm⟩ | ⟨-, hm⟩ := markErase_cases s
  · exact ⟨_, hm⟩
  · exact ⟨_, hm⟩

theorem csrBusy_polled_of_pending (h : s.dev.pending ≠ .none) : csrBusy (polled s).env.busData = true :=
  (csrValue_fields s).1.trans (busyFlag_eq_true.2 h)

/-- A poll that saw BUSY has used up one of the polls that are left, or the last one (R226, R227). -/
theorem advances_stillBusy (hs : pollStage s.prg.stage = true) (hp : s.dev.pending ≠ .none) (hparams : u.params = s.params)
    (hdev : u.dev = s.dev) (hinputs : u.env.inputs = s.env.inputs) (hstage : u.prg.stage = s.prg.stage)
    (hpolls : u.prg.polls = s.prg.polls + 1) : Advances s (stillBusy u) := by
  obtain ⟨-, hb⟩ | ⟨hin, hb⟩ := stillBusy_cases u <;> rw [hb]
  · exact advances_endWith (accessStage_of_poll hs) hparams hinputs _
  · refine ⟨hparams, fun _ => hinputs, ?_, ?_, fun m hm => ?_⟩
    · obtain hg | hg | hg := pollStage_iff.1 hs <;> simp [hstage, hg]
    · obtain hg | hg | hg := pollStage_iff.1 hs <;> simp [quietAtCommand, hstage, hg]
    · have hlt : ¬m ≤ s.prg.polls + 1 := by simpa [timedOut_of_pollMax (hparams ▸ hm), hpolls] using hin
      rw [stepsLeft_of_poll m (hstage ▸ hs), stepsLeft_of_poll m hs, hdev, if_neg hp, if_neg hp, hpolls]
      omega

/-- A poll that saw nothing pending lets the operation go on with its next access (R250). -/
theorem advances_goto (hs : pollStage s.prg.stage = true) (hp : s.dev.pending = .none) (hparams : u.params = s.params)
    (hdev : u.dev = s.dev) (hinputs : u.env.inputs = s.env.inputs) {g : Stage}
    (hg : g = .wrMode ∨ g = .rdMode ∨ g = .wrByte ∨ g = .rdByte) : Advances s (goto g u) where
  params := hparams
  inputs := fun _ => hinputs
  stage := by obtain rfl | rfl | rfl | rfl := hg <;> nofun
  quiet := fun _ => (congrArg Dev.pending hdev).trans hp
  left := fun m _ => by
    rw [stepsLeft_of_poll m hs, if_pos hp]
    obtain rfl | rfl | rfl | rfl := hg <;> simp [stepsLeft]

theorem stepErasePoll_advances (hg : s.prg.stage = .erasePoll) (fail : Bool) :
    ∃ t, stepErasePoll fail s = .next t ∧ Advances s t := by
  have hs : pollStage s.prg.stage = true := by rw [hg]; rfl
  refine access_advances (accessStage_of_poll hs) (present_poll s) _ _ ⟨_, rfl, ?_⟩
  rw [← polled]
  by_cases hp : s.dev.pending = .none
  · rw [if_neg (Bool.eq_false_iff.1 (csrBusy_polled hp))]
    split
    · exact advances_endWith (u := polled s) (accessStage_of_poll hs) rfl rfl _
    · exact advances_goto (u := polled s) hs hp rfl rfl rfl (.inl rfl)
  · rw [if_pos (csrBusy_polled_of_pending hp)]
    obtain ⟨l, hl⟩ := markErase_eq (polled s)
    rw [hl]
    exact advances_stillBusy hs hp rfl rfl rfl rfl rfl

theorem stepWrPoll_advances (hg : s.prg.stage = .wrPoll) (fail : Bool) :
    ∃ t, stepWrPoll fail s = .next t ∧ Advances s t := by
  have hs : pollStage s.prg.stage = true := by rw [hg]; rfl
  refine access_advances (accessStage_of_poll hs) (present_poll s) _ _ ⟨_, rfl, ?_⟩
  rw [← polled]
  by_cases hp : s.dev.pending = .none
  · rw [if_neg (Bool.eq_false_iff.1 (csrBusy_polled hp))]
    obtain ⟨l, hl⟩ := markDownload_eq (nextAddr (polled s))
    have hparams : (markDownload (nextAddr (polled s))).params = s.params := by rw [hl]; rfl
    have hdev : (markDownload (nextAddr (polled s))).dev = s.dev := by rw [hl]; rfl
    have hinputs : (markDownload (nextAddr (polled s))).env.inputs = s.env.inputs := by rw [hl]; rfl
    dsimp only
    split
    · exact advances_goto hs hp hparams hdev hinputs (.inr (.inr (.inl rfl)))
    split
    · exact advances_endWith (accessStage_of_poll hs) hparams hinputs _
    · exact advances_goto hs hp hparams hdev hinputs (.inr (.inl rfl))
  · rw [if_pos (csrBusy_polled_of_pending hp)]
    exact advances_stillBusy hs hp rfl rfl rfl rfl rfl

theorem stepRdPoll_advances (h : StateInv s) (hg : s.prg.stage = .rdPoll) (fail : Bool) :
    ∃ t, stepRdPoll fail s = .next t ∧ Advances s t := by
  have hs : pollStage s.prg.stage = true := by rw [hg]; rfl
  obtain ⟨b, himg⟩ : ∃ b, (polled s).prg.img[(polled s).prg.addr]? = some b := h.img_at_addr (by rw [hg]; rfl)
  refine access_advances (accessStage_of_poll hs) (present_poll s) _ _ ?_
  rw [← polled]
  by_cases hp : s.dev.pending = .none
  · rw [if_neg (Bool.eq_false_iff.1 (csrBusy_polled hp)), himg]
    refine ⟨_, rfl, ?_⟩
    obtain ⟨hparams, -, hdev, henv, -⟩ := compareByte_frame (polled s) b (csrRData (polled s).env.busData)
    generalize compareByte b (csrRData (polled s).env.busData) (polled s) = c at *
    have hinputs : c.env.inputs = (polled s).env.inputs := congrArg Env.inputs henv
    split
    · exact advances_goto (u := nextAddr c) hs hp hparams hdev hinputs (.inr (.inr (.inr rfl)))
    · exact advances_endWith (u := nextAddr c) (accessStage_of_poll hs) hparams hinputs _
  · rw [if_pos (csrBusy_polled_of_pending hp)]
    exact ⟨_, rfl, advances_stillBusy hs hp rfl rfl rfl rfl rfl⟩

/-! ### Every stage, and the run to Idle -/

/-- In an operation PRG has a step, and it advances (R250). -/
theorem prgStep_advances (h : StateInv s) (hq : quietAtCommand s) (hs : lockingStage s.prg.stage = true) (fail : Bool) :
    ∃ t, prgStep fail s = .next t ∧ Advances s t := by
  cases hg : s.prg.stage <;> simp only [prgStep, hg]
  case idle | confirm =>
    rw [hg] at hs
    cases hs
  case eraseCmd => exact stepEraseCmd_advances hg hq fail
  case erasePoll => exact stepErasePoll_advances hg fail
  case wrMode => exact stepWrMode_advances hg hq fail
  case wrByte => exact stepWrByte_advances h hg fail
  case wrPoll => exact stepWrPoll_advances hg fail
  case rdMode => exact stepRdMode_advances hg hq fail
  case rdByte => exact stepRdByte_advances h hg fail
  case rdPoll => exact stepRdPoll_advances h hg fail
  case finish => exact ⟨_, rfl, advances_finish hg⟩

/-- PRG always has a step: outside an operation it waits (R50, R250). -/
theorem prgStep_next (h : StateInv s) (hq : quietAtCommand s) (fail : Bool) : ∃ t, prgStep fail s = .next t := by
  cases hs : lockingStage s.prg.stage
  · refine ⟨s, ?_⟩
    unfold prgStep
    cases hg : s.prg.stage <;> simp_all [lockingStage]
  · obtain ⟨t, ht, -⟩ := prgStep_advances h hq hs fail
    exact ⟨t, ht⟩

/-- Where a SESSION goes on with a command, the invariant says that nothing is pending. -/
theorem quietAtCommand_of_begins (h : StateInv s)
    (hbegins : s.prg.stage = .eraseCmd ∨ (s.prg.op ≠ .session ∧ (s.prg.stage = .wrMode ∨ s.prg.stage = .rdMode)) →
      s.dev.pending = .none) : quietAtCommand s := by
  intro hg
  by_cases hop : s.prg.op = .session
  · have hdev := h.dev_stage
    obtain hg | hg | hg := hg
    · exact hbegins (.inl hg)
    · simpa [devAtStage, hg, hop] using hdev
    · simpa [devAtStage, hg, hop] using hdev
  · exact hbegins (hg.imp_right fun hg => ⟨hop, hg⟩)

/-- PRG left to itself ends its operation, by induction on the steps left (R311). -/
theorem run_to_idle {m : Nat} (h : StateInv s) (hq : quietAtCommand s) (hin : s.env.inputs = [])
    (hs : lockingStage s.prg.stage = true) (hm : s.params.pollMax = some m) :
    ∃ k t, core.run k s = .next t ∧ t.prg.stage = .idle ∧ t.prg.lockHeld = false := by
  induction hn : stepsLeft m s using Nat.strong_induction_on generalizing s with
  | _ n ih =>
    subst hn
    obtain ⟨t, ht, hadv⟩ := prgStep_advances h hq hs false
    have hstep : step s = .next t := by rw [step_nil s hin, if_pos hs, ht]
    have hinv := h.prgStep ht
    by_cases hidle : t.prg.stage = .idle
    · exact ⟨1, t, run_of_step hstep, hidle, hinv.lock_stage.trans (by rw [hidle]; rfl)⟩
    · obtain ⟨k, v, hrun, hend⟩ := ih _ (hadv.left m hm) hinv hadv.quiet ((hadv.inputs hidle).trans hin)
        (lockingStage_iff.2 ⟨hidle, hadv.stage⟩) (hadv.params ▸ hm) rfl
      exact ⟨k + 1, v, (run_of_step hstep).trans hrun, hend⟩

/-- Settles O58: PRG's step answers a next state in every stage, and the steps left to Idle run out. -/
theorem programmerNeverStops : Obligations.ProgrammerNeverStops := by
  intro s h hbegins
  have hq := quietAtCommand_of_begins h hbegins
  refine ⟨fun fail rest hin => ?_, fun m hin _ hs hm => run_to_idle h hq hin hs hm⟩
  rw [step_cons s hin]
  exact prgStep_next (h.popped rest) hq fail

end Sys2Proof.Machine
end

/-! PROOF. DEC's classification rule (R120 to R128): the rows of the stream port are together the one function `DEC.step`, in
every state; and what that function does with a continuation word under a type other than TriggerTime (R127) and with a word
of a decoder run (R121, R168). -/

namespace Sys2Proof.Machine

variable {s : State}

/-! ### `DEC.step` on a captured word and on a continuation word -/

/-- In a decoder run a word is captured (R121). -/
theorem decStep_of_run (hr : s.dec.remaining ≠ 0) (w : Word) : decStep w s = capture w s := if_pos hr

/-- In Generic a word with bit 31 clear is a continuation word (R95, R120). -/
theorem decStep_continuation (hr : s.dec.remaining = 0) {w : Word} (hw : typeDefining w = false) :
    decStep w s = continuation w s := by
  rw [decStep, if_neg (not_not_intro hr), hw, if_neg Bool.false_ne_true]

/-- The generic continuation rule written out (R127): one DataWord under the type, the flag, and nothing else. -/
theorem decStep_plainContinuation {c : Code} (hr : s.dec.remaining = 0) {w : Word} (hw : typeDefining w = false)
    (ht : s.dec.lastType = c) (hne : c ≠ codeTrgTime) :
    decStep w s = { s with dec := { s.dec with
      isContinuation := true, out := s.dec.out ++ [⟨w, c, false, tagOf c, none, .none, .none⟩] } } := by
  rw [decStep_continuation hr hw, continuation_plain ht hne]
  simp only [continuedPlain, continued, emit, protoErrAfter_none]

/-! ### The rows are `DEC.step` -/

/-- The row a word decodes to does what `DEC.step` does with the word. -/
theorem exec_of_decode {i : Instr} {w : Word} (h : decode s.ctx (.stream w) = .ok i) : exec i s = .next (decStep w s) := by
  have hp := present_stream w s
  rwa [present, h] at hp

/-- In a state that selects its row, a stream instruction does what `DEC.step` does with its word. -/
theorem exec_of_wellFormedIn {i : Instr} (hi : i.onStream = true) (h : i.wellFormedIn s.ctx = true)
    (hne : ∀ p, i ≠ .cont p) : exec i s = .next (decStep (encodeWord i) s) :=
  exec_of_decode (encode_of_onStream hi ▸ decode_encode h hne)

/-- In a decoder run every row captures its word (R121, log entry 12). -/
theorem exec_of_run (hr : s.dec.remaining ≠ 0) {i : Instr} (hi : i.onStream = true) :
    exec i s = .next (capture (encodeWord i) s) := by
  cases i
  case setWren | bulkErase | setRd | poll | wrbyte | rdbyte => cases hi
  case decdata w => exact congrArg _ (if_pos hr)
  all_goals exact congrArg _ (inGeneric_of_run s hr)

/-- A continuation row in Generic is `DEC.step` of its word: where its own condition does not hold, the row that does apply is
performed (R126, log entry 12). -/
theorem onContinuation_eq_decStep {here : Bool} {w : Word} {row : State} (hr : s.dec.remaining = 0)
    (hw : typeDefining w = false) (h : here = true → row = continuation w s) :
    onContinuation w here s row = decStep w s := by
  rw [onContinuation_of_generic hr h, decStep_continuation hr hw]

/-- TriggerTime has a name, so the generic rule covers every undefined code (R127). -/
theorem ne_trgTime_of_undefinedCode {c : Code} (h : undefinedCode c = true) : c ≠ codeTrgTime := by
  obtain ⟨-, -, -, hne, -⟩ := (undefinedCode_iff c).1 h
  exact hne

theorem time2Of_trgtimeC (ign : BitVec 11) (time2 : BitVec 20) : time2Of (encodeWord (.trgtimeC ign time2)) = time2 := by
  simp [encodeWord, time2Of, BitVec.extractLsb'_or, extractLsb'_place_self, extractLsb'_place_above]

theorem typeDefining_trgtimeC (ign : BitVec 11) (time2 : BitVec 20) :
    typeDefining (encodeWord (.trgtimeC ign time2)) = false := by
  rw [encodeWord, place_trgtimeC_fields, typeDefining_contWord]

/-- In Generic a type-defining row is selected whatever the rest of the state is, and a continuation row that is not selected
performs the one that is. -/
theorem exec_of_generic (hr : s.dec.remaining = 0) {i : Instr} (hi : i.onStream = true) :
    exec i s = .next (decStep (encodeWord i) s) := by
  have hg : s.ctx.generic = true := DecodeCtx.generic_iff.2 hr
  cases i
  case setWren | bulkErase | setRd | poll | wrbyte | rdbyte => cases hi
  case decdata w => exact congrArg _ (if_neg (not_not_intro hr))
  case cont p =>
    exact congrArg _ ((inGeneric_of_generic s hr).trans (decStep_continuation hr (typeDefining_contWord p)).symm)
  case blkhdrC p | blktrlC p | evhdrC p | dechdrC p | eoeC p | dnvC p | fillC p =>
    exact congrArg _ (onContinuation_eq_decStep hr (typeDefining_contWord p) fun h =>
      (continuation_plain (eq_of_beq h) (by decide) _).symm)
  case undefC p =>
    exact congrArg _ (onContinuation_eq_decStep hr (typeDefining_contWord p) fun h =>
      (continuation_plain rfl (ne_trgTime_of_undefinedCode h) _).symm)
  case trgtimeC ign time2 =>
    refine congrArg _ (onContinuation_eq_decStep hr (typeDefining_trgtimeC ign time2) fun h => ?_)
    obtain ⟨ht, hc⟩ := Bool.and_eq_true_iff.1 h
    rw [continuation_in_sequence (eq_of_beq ht) (by simpa [prevNew] using hc), time2Of_trgtimeC]
  case trgtimeCerr p =>
    refine congrArg _ (onContinuation_eq_decStep hr (typeDefining_contWord p) fun h => ?_)
    obtain ⟨ht, hc⟩ := Bool.and_eq_true_iff.1 h
    exact (continuation_out_of_sequence (eq_of_beq ht) (by simpa [prevNew] using hc) _).symm
  all_goals exact exec_of_wellFormedIn rfl hg nofun

/-- Every stream instruction is `DEC.step` of its word, in every state (R120). -/
theorem exec_onStream {i : Instr} (hi : i.onStream = true) (s : State) : exec i s = .next (decStep (encodeWord i) s) := by
  by_cases hr : s.dec.remaining = 0
  · exact exec_of_generic hr hi
  · rw [decStep_of_run hr]
    exact exec_of_run hr hi

/-- A step on a word is `DEC.step` of the word (R28, R120). -/
theorem step_word {w : Word} {rest : List Event} (hin : s.env.inputs = .word w :: rest) :
    step s = .next (decStep w (popped s rest)) :=
  (step_cons s hin).trans (present_stream w _)

/-- Settles O20: the rows, and the step that presents a word. -/
theorem rowsAreDecStep : Obligations.RowsAreDecStep :=
  ⟨fun _ s hi => exec_onStream hi s, fun _ _ _ hin => step_word hin⟩

/-- Settles O17: CONT and the row its word decodes to are both `DEC.step` of that word. -/
theorem genericContinuationIsItsRow : Obligations.GenericContinuationIsItsRow := fun s p _ hj =>
  ⟨decStep (contWord p) s, exec_onStream (i := .cont p) rfl s, exec_of_decode hj⟩

/-- Settles O19: in a decoder run the row and DECDATA both capture the word. -/
theorem runSuppressesClassification : Obligations.RunSuppressesClassification := by
  intro s i hr hi
  have hrow := exec_of_run hr hi
  have hdata := exec_of_run hr (i := .decdata (encodeWord i)) rfl
  exact ⟨hrow.trans hdata.symm, capture (encodeWord i) s, hrow, rfl, rfl, rfl, rfl⟩

/-! ### Continuation words and captured words -/

/-- The continuation row that Generic selects, and what it does, under a type other than TriggerTime (R127). -/
theorem plainContinuation {w : Word} {c : Code} {i : Instr} (hr : s.dec.remaining = 0) (hw : typeDefining w = false)
    (ht : s.dec.lastType = c) (hne : c ≠ codeTrgTime) (hi : decodeContinuation s.ctx w = i) :
    decode s.ctx (.stream w) = .ok i ∧
      exec i s = .next { s with dec := { s.dec with
        isContinuation := true, out := s.dec.out ++ [⟨w, c, false, tagOf c, none, .none, .none⟩] } } := by
  have hd : decode s.ctx (.stream w) = .ok i := by
    rw [decode, decodeStream_of_generic (DecodeCtx.generic_iff.2 hr), hw, ← hi]
    rfl
  refine ⟨hd, ?_⟩
  rw [exec_of_decode hd, decStep_plainContinuation hr hw ht hne]

/-- A code without a name of its own (R8, R92): its continuation row is UNDEF.C, its tag carries the code. -/
theorem undefined_of_mem {c : Code} (h : c ∈ ([4, 5, 6, 7, 9, 10, 11, 12] : List Code)) :
    undefinedCode c = true ∧ tagOf c = .undefined c := by
  revert c
  decide

theorem decodeContinuation_undefined {c : DecodeCtx} (h : undefinedCode c.lastType = true) (w : Word) :
    decodeContinuation c w = .undefC (contPayloadOf w) := by
  simp [decodeContinuation, (undefinedCode_iff _).1 h]

/-- Settles O15: for each type the row that `lastType` selects, and the generic rule. -/
theorem plainContinuationWords : Obligations.PlainContinuationWords := by
  intro s w hr hw after p
  refine ⟨?_, ?_, ?_, ?_, ?_, ?_, ?_, fun ht => ?undefined⟩
  case undefined =>
    obtain ⟨hcode, htag⟩ := undefined_of_mem ht
    have h := plainContinuation hr hw rfl (ne_trgTime_of_undefinedCode hcode)
      (decodeContinuation_undefined (c := s.ctx) hcode w)
    rwa [htag] at h
  all_goals
    intro ht
    refine plainContinuation hr hw ht (by decide) ?_
    rw [decodeContinuation, ctx_lastType, ht]
    rfl

/-- Settles O22: DEC's reset state is Generic with `lastType` 15, FillerWord. -/
theorem firstWordQuirk : Obligations.FirstWordQuirk := by
  intro s t w rest hdec hw hin ht
  have hpop : (popped s rest).dec = Dec.reset := hdec
  have hd := decStep_plainContinuation (congrArg Dec.remaining hpop) hw (congrArg Dec.lastType hpop) (by decide)
  rw [step_word hin, hd, hpop] at ht
  cases ht
  rfl

/-- Settles O18: in a decoder run the decoder answers DECDATA, and DECDATA writes one entry of the buffer. -/
theorem capturedWord : Obligations.CapturedWord := by
  intro s w hr
  refine ⟨congrArg _ (if_pos hr), capture w s, exec_of_run hr (i := .decdata w) rfl, rfl, fun i h => ?_⟩
  simp only [capture_dec_decBuf, Vector.getElem_setIfInBounds, eq_comm]

/-! ### A restore that is refused -/

/-- Settles O27: a record with `remaining > decCount` is not well formed (R132). -/
theorem badRestoreRefused : Obligations.BadRestoreRefused := by
  intro s r rest hin hlt
  have hwf : ¬ r.wf = true := fun h => Nat.not_le.2 hlt (decRecord_wf_iff.1 h).1
  exact (step_cons s hin).trans (if_neg hwf)

end Sys2Proof.Machine

/-! PROOF. A type-defining word in Generic (R122, R126): the row its code selects, and what that row does when it is not the decoder
header; and with it the block framing words (R140, R143). -/

namespace Sys2Proof.Machine

variable {s : State}

/-! ### A type-defining word other than a decoder header -/

/-- The rule for type-defining words written out (R122, R124, R125): one DataWord under the new type, the two flags, and nothing
else. Only a decoder header loads a count besides (R165). -/
theorem classifyTyped_plain {w : Word} {c : Code} {f : Fields} (hc : codeOf w = c) (hne : c ≠ codeDecHdr) (hf : fieldsOf w = f) :
    classifyTyped w s = { s with dec := { s.dec with
      lastType := c, isContinuation := false, out := s.dec.out ++ [⟨w, c, true, tagOf c, none, f, .none⟩] } } := by
  subst hc hf
  exact if_neg hne

/-- The type-defining row that Generic selects, and what it does, under a code other than DecoderHeader's (R95, R126). -/
theorem plainTyped {w : Word} {c : Code} {i : Instr} {f : Fields} (hr : s.dec.remaining = 0) (hw : typeDefining w = true)
    (hc : codeOf w = c) (hne : c ≠ codeDecHdr) (hi : decodeTyped w = i) (hf : fieldsOf w = f) :
    decode s.ctx (.stream w) = .ok i ∧
      exec i s = .next { s with dec := { s.dec with
        lastType := c, isContinuation := false, out := s.dec.out ++ [⟨w, c, true, tagOf c, none, f, .none⟩] } } := by
  have hd : decode s.ctx (.stream w) = .ok i := by
    rw [decode, decodeStream_of_generic (DecodeCtx.generic_iff.2 hr), if_pos hw, hi]
  refine ⟨hd, ?_⟩
  rw [← hi, exec_decodeTyped hr hw, classifyTyped_plain hc hne hf]

/-! ### Block framing -/

/-- Settles O10: the mask fixes bit 31 and the code, the code selects the row and its fields. -/
theorem blockFramingWords : Obligations.BlockFramingWords := by
  intro s w hr
  constructor
  · intro hmask
    obtain ⟨hw, hc⟩ := (and_typeMask_eq_iff w codeBlkHdr).1 (hmask.trans (by decide))
    exact plainTyped hr hw hc (by decide) (by rw [decodeTyped, hc]; rfl) (by rw [fieldsOf, hc]; rfl)
  · intro hmask
    obtain ⟨hw, hc⟩ := (and_typeMask_eq_iff w codeBlkTrl).1 (hmask.trans (by decide))
    exact plainTyped hr hw hc (by decide) (by rw [decodeTyped, hc]; rfl) (by rw [fieldsOf, hc]; rfl)

end Sys2Proof.Machine

/-! PROOF. The event words in Generic (spec file 42): the type-defining words EVHDR, TRGTIME and EOE (R150, R153, R158), and the
continuation words under TriggerTime, in and out of sequence (R154 to R156). -/

namespace Sys2Proof.Machine

variable {s : State}

/-! ### Type-defining event words -/

/-- `plainTyped` from the mask of R92, which fixes bit 31 and the code. -/
theorem plainTyped_of_mask {w m : Word} {c : Code} {i : Instr} {f : Fields} (hr : s.dec.remaining = 0)
    (hmask : w &&& 0xF8000000 = m) (hm : m = BitVec.twoPow 32 31 ||| place 27 c) (hne : c ≠ codeDecHdr)
    (hi : codeOf w = c → decodeTyped w = i) (hf : codeOf w = c → fieldsOf w = f) :
    decode s.ctx (.stream w) = .ok i ∧
      exec i s = .next { s with dec := { s.dec with
        lastType := c, isContinuation := false, out := s.dec.out ++ [⟨w, c, true, tagOf c, none, f, .none⟩] } } := by
  obtain ⟨hw, hc⟩ := (and_typeMask_eq_iff w c).1 (hmask.trans hm)
  exact plainTyped hr hw hc hne (hi hc) (hf hc)

/-- Settles O11: the mask fixes bit 31 and the code, the code selects the row and its fields. -/
theorem eventWords : Obligations.EventWords := by
  intro s w hr
  refine ⟨fun hmask => ?evhdr, fun hmask => ?trgtime, fun hmask => ?eoe⟩
  case evhdr =>
    exact plainTyped_of_mask (c := codeEvHdr) hr hmask (by decide) (by decide)
      (fun hc => by rw [decodeTyped, hc]; rfl) (fun hc => by rw [fieldsOf, hc]; rfl)
  case trgtime =>
    exact plainTyped_of_mask (c := codeTrgTime) hr hmask (by decide) (by decide)
      (fun hc => by rw [decodeTyped, hc]; rfl) (fun hc => by rw [fieldsOf, hc]; rfl)
  case eoe =>
    exact plainTyped_of_mask (c := codeEoe) hr hmask (by decide) (by decide)
      (fun hc => by rw [decodeTyped, hc]; rfl) (fun hc => by rw [fieldsOf, hc]; rfl)

/-! ### Continuation words under TriggerTime -/

/-- The continuation row that Generic selects does what the continuation word does (R95, R126). -/
theorem continuationWord {w : Word} {i : Instr} {t : State} (hr : s.dec.remaining = 0) (hw : typeDefining w = false)
    (hi : decodeContinuation s.ctx w = i) (ht : continuation w s = t) :
    decode s.ctx (.stream w) = .ok i ∧ exec i s = .next t := by
  have hd : decode s.ctx (.stream w) = .ok i := by
    rw [decode, decodeStream_of_generic (DecodeCtx.generic_iff.2 hr), hw, if_neg Bool.false_ne_true, hi]
  exact ⟨hd, by rw [exec_of_decode hd, decStep_continuation hr hw, ht]⟩

/-- Under TriggerTime the flag tells the two rows apart (R155, R156). -/
theorem decodeContinuation_trgTime {c : DecodeCtx} (ht : c.lastType = codeTrgTime) (w : Word) :
    decodeContinuation c w =
      if c.isContinuation then .trgtimeCerr (contPayloadOf w) else .trgtimeC (contIgnoredOf w) (time2Of w) := by
  rw [decodeContinuation, ht]
  rfl

/-- A continuation word in sequence leaves `protoErr` as it was (R26, R155). -/
theorem continued_none (c : Code) (w : Word) (f : Fields) (s : State) :
    continued c w f .none s = { s with dec := { s.dec with
      isContinuation := true, out := s.dec.out ++ [⟨w, c, false, tagOf c, none, f, .none⟩] } } := by
  simp only [continued, emit, protoErrAfter_none]

/-- One out of sequence sets it (R26, R156). -/
theorem continued_trigTimeSeq (c : Code) (w : Word) (f : Fields) (s : State) :
    continued c w f .trigTimeSeq s = { s with dec := { s.dec with
      isContinuation := true, protoErr := true,
      out := s.dec.out ++ [⟨w, c, false, tagOf c, none, f, .trigTimeSeq⟩] } } := by
  simp only [continued, emit, protoErrAfter_trigTimeSeq]

/-- Settles O16: `isContinuation` says whether the word before was type-defining (R154), and selects the row. -/
theorem triggerTimeContinuations : Obligations.TriggerTimeContinuations := by
  intro s w hr hw ht
  have hrow := decodeContinuation_trgTime (c := s.ctx) ht w
  refine ⟨fun hc => ?inSequence, fun hc => ?outOfSequence⟩
  case inSequence =>
    rw [ctx_isContinuation, hc, if_neg Bool.false_ne_true] at hrow
    exact continuationWord hr hw hrow ((continuation_in_sequence ht hc w).trans (continued_none ..))
  case outOfSequence =>
    rw [ctx_isContinuation, hc, if_pos rfl] at hrow
    exact continuationWord hr hw hrow ((continuation_out_of_sequence ht hc w).trans (continued_trigTimeSeq ..))

end Sys2Proof.Machine

/-! PROOF. The decoder header and its run (spec file 43): DECHDR in Generic loads the count (R165), and the words after it are
captured into the buffer in order until DEC is in Generic again (R168 to R170). What a run leaves is read off the record that
`save` would put out, whose buffer part is the valid entries. -/

namespace Sys2Proof.Machine

variable {s : State}

/-! ### The decoder header -/

/-- In Generic a decoder header is reported under its type and loads the count (R165). -/
theorem decStep_decHdr {w : Word} (hr : s.dec.remaining = 0) (hmask : w &&& 0xF8000000 = 0xC0000000) :
    decStep w s = loadCount (countOf w) (typed codeDecHdr w (.count (countOf w)) s) := by
  obtain ⟨hw, hc⟩ := (and_typeMask_eq_iff w codeDecHdr).1 (hmask.trans (by decide))
  have hf : fieldsOf w = .count (countOf w) := by rw [fieldsOf, hc]; rfl
  rw [decStep, if_neg (not_not_intro hr), if_pos hw, classifyTyped, hc, hf]
  rfl

theorem decode_decHdr {w : Word} (hr : s.dec.remaining = 0) (hmask : w &&& 0xF8000000 = 0xC0000000) :
    decode s.ctx (.stream w) = .ok (.dechdr (countIgnoredOf w) (countOf w)) := by
  obtain ⟨hw, hc⟩ := (and_typeMask_eq_iff w codeDecHdr).1 (hmask.trans (by decide))
  rw [decode, decodeStream_of_generic (DecodeCtx.generic_iff.2 hr), if_pos hw, decodeTyped, hc]
  rfl

/-! ### What a read of the buffer sees -/

/-- The buffer part of the record is what reads of the buffer return; behind it they fault (R25, R48). -/
theorem bufRead_of_savedRecord {ws : List Word} (h : (savedRecord s.dec).buf = ws) :
    (∀ i (hi : i < ws.length), bufRead i s = .next { s with env := { s.env with bufData := ws[i] } }) ∧
    (∀ i, ws.length ≤ i → bufRead i s = .fault (.bufferEntryNotValid i)) := by
  subst h
  have hlen := savedRecord_buf_length s.dec
  refine ⟨fun i hi => ?_, fun i hi => bufRead_of_le (hlen.symm.trans_le hi)⟩
  rw [bufRead_of_lt (hi.trans_eq hlen)]
  simp only [savedRecord, List.getElem_take, Vector.getElem_toList]

/-- Settles O14: the row is `DEC.step` of its word, and with `decCount = remaining` no buffer entry is valid. -/
theorem decoderHeaderStartsRun : Obligations.DecoderHeaderStartsRun := by
  intro s w hr hmask
  have hd := decode_decHdr hr hmask
  refine ⟨hd, decStep w s, exec_of_decode hd, ?_⟩
  rw [decStep_decHdr hr hmask]
  exact ⟨rfl, fun i => (bufRead_of_savedRecord (ws := []) (by simp)).2 i (Nat.zero_le i)⟩

/-! ### Several words in a row -/

/-- DEC does not look at the moves to come: `popped` goes into each branch of `DEC.step`. -/
theorem decStep_popped (w : Word) (s : State) (rest : List Event) : decStep w (popped s rest) = popped (decStep w s) rest := by
  simp only [decStep, classifyTyped, continuation, apply_ite (popped · rest)]
  rfl

/-- A run over words that are next on DEC's port is one `DEC.step` a word (R28, R120). -/
theorem run_words (ws : List Word) {rest : List Event} (hin : s.env.inputs = ws.map Event.word ++ rest) :
    core.run ws.length s = .next (ws.foldl (fun x w => decStep w x) (popped s rest)) := by
  induction ws generalizing s with
  | nil =>
    subst hin
    rfl
  | cons w ws ih =>
    have hstep : step s = .next (popped (decStep w s) (ws.map Event.word ++ rest)) :=
      (step_word hin).trans (congrArg _ (decStep_popped w s _))
    have hfold : (w :: ws).foldl (fun x w => decStep w x) (popped s rest) =
        ws.foldl (fun x w => decStep w x) (popped (decStep w s) rest) := by
      rw [List.foldl_cons, decStep_popped]
    exact (run_of_step hstep).trans ((ih rfl).trans (congrArg _ hfold.symm))

/-- Words touch nothing but DEC (R76). -/
theorem decSteps_frame (ws : List Word) (s : State) :
    (ws.foldl (fun x w => decStep w x) s).prg = s.prg ∧ (ws.foldl (fun x w => decStep w x) s).dev = s.dev ∧
      (ws.foldl (fun x w => decStep w x) s).env = s.env := by
  induction ws generalizing s with
  | nil => exact ⟨rfl, rfl, rfl⟩
  | cons w ws ih =>
    obtain ⟨-, hprg, hdev, henv, -⟩ := decStep_frame s w
    rw [List.foldl_cons, ← hprg, ← hdev, ← henv]
    exact ih _

/-- As many words as `remaining` says end the decoder run: each is put behind the valid entries of the buffer and reported as
DecoderData, and nothing else of the record changes (R168 to R170). -/
theorem decSteps_capture (ws : List Word) (hle : s.dec.remaining.toNat ≤ s.dec.decCount.toNat)
    (hlen : ws.length = s.dec.remaining.toNat) :
    savedRecord (ws.foldl (fun x w => decStep w x) s).dec =
        { savedRecord s.dec with remaining := 0, buf := (savedRecord s.dec).buf ++ ws } ∧
      (ws.foldl (fun x w => decStep w x) s).dec.protoErr = s.dec.protoErr ∧
      ∃ dws : List DataWord, (ws.foldl (fun x w => decStep w x) s).dec.out = s.dec.out ++ dws ∧
        dws.map DataWord.raw = ws ∧ ∀ d ∈ dws, d.tag = .decoderData := by
  induction ws generalizing s with
  | nil =>
    have hr : s.dec.remaining = 0 := BitVec.eq_of_toNat_eq hlen.symm
    exact ⟨by simp [savedRecord, hr], rfl, [], by simp⟩
  | cons w ws ih =>
    have hr : s.dec.remaining ≠ 0 := by
      intro h
      simp [h] at hlen
    have hlen' : ws.length = (capture w s).dec.remaining.toNat := by
      rw [capture_dec_remaining]
      rw [List.length_cons] at hlen
      bv_omega
    have hle' : (capture w s).dec.remaining.toNat ≤ (capture w s).dec.decCount.toNat := by
      rw [← decStep_of_run hr]
      exact decStep_run_le hle w
    obtain ⟨hrec, herr, dws, hout, hraw, htag⟩ := ih hle' hlen'
    rw [List.foldl_cons, decStep_of_run hr]
    rw [capture_dec_out, List.append_assoc] at hout
    refine ⟨?_, herr, _, hout, congrArg (w :: ·) hraw, List.forall_mem_cons.2 ⟨rfl, htag⟩⟩
    rw [hrec, savedRecord_capture hle hr]
    simp

/-- The words of a decoder run, header first: the record holds the n words and DEC is in Generic under DecoderHeader, and behind
the header's DataWord stands one DecoderData for each word (R165, R168 to R170). -/
theorem decSteps_decoderRun {h : Word} {ws : List Word} (hr : s.dec.remaining = 0) (hmask : h &&& 0xF8000000 = 0xC0000000)
    (hlen : ws.length = (countOf h).toNat) :
    savedRecord ((h :: ws).foldl (fun x w => decStep w x) s).dec = ⟨codeDecHdr, false, 0, countOf h, ws⟩ ∧
      ((h :: ws).foldl (fun x w => decStep w x) s).dec.protoErr = s.dec.protoErr ∧
      (((h :: ws).foldl (fun x w => decStep w x) s).dec.out.drop (s.dec.out.length + 1)).map DataWord.raw = ws ∧
      ∀ d ∈ ((h :: ws).foldl (fun x w => decStep w x) s).dec.out.drop (s.dec.out.length + 1), d.tag = .decoderData := by
  rw [List.foldl_cons, decStep_decHdr hr hmask]
  obtain ⟨hrec, herr, dws, hout, hraw, htag⟩ :=
    decSteps_capture (s := loadCount (countOf h) (typed codeDecHdr h (.count (countOf h)) s)) ws (Nat.le_refl _) hlen
  rw [loadCount_dec_out, typed_dec_out] at hout
  rw [savedRecord_loadCount, savedRecord_typed, List.nil_append] at hrec
  rw [hout, List.drop_left' (by simp)]
  exact ⟨hrec, herr, hraw, htag⟩

/-- Settles O21: the header leaves no entry valid and `remaining` n, and the n captures fill the buffer with the n words. -/
theorem decoderRunCapturesItsWords : Obligations.DecoderRunCapturesItsWords := by
  intro s h ws rest hr hmask hlen hin
  have hrun := run_words (h :: ws) hin
  obtain ⟨hprg, hdev, henv⟩ := decSteps_frame (h :: ws) (popped s rest)
  obtain ⟨hrec, herr, hraw, htag⟩ := decSteps_decoderRun (s := popped s rest) hr hmask hlen
  obtain ⟨hvalid, hinvalid⟩ := bufRead_of_savedRecord (congrArg DecRecord.buf hrec)
  exact ⟨_, hrun, congrArg Env.inputs henv, congrArg DecRecord.remaining hrec, congrArg DecRecord.lastType hrec,
    congrArg DecRecord.isContinuation hrec, herr, hprg, hdev, hvalid, hinvalid, hraw, htag⟩

end Sys2Proof.Machine

/-! PROOF. The status words DNV and FILL (R180, R183) and the words of the eight undefined codes (R186 to R193) in Generic. -/

namespace Sys2Proof.Machine

variable {s : State}

/-! ### Status words -/

/-- Settles O12: the mask fixes bit 31 and the code, the code selects the row and the one field, the slot id. -/
theorem statusWords : Obligations.StatusWords := by
  intro s w hr
  refine ⟨fun hmask => ?dnv, fun hmask => ?fill⟩
  case dnv =>
    exact plainTyped_of_mask (c := codeDnv) hr hmask (by decide) (by decide)
      (fun hc => by rw [decodeTyped, hc]; rfl) (fun hc => by rw [fieldsOf, hc]; rfl)
  case fill =>
    exact plainTyped_of_mask (c := codeFill) hr hmask (by decide) (by decide)
      (fun hc => by rw [decodeTyped, hc]; rfl) (fun hc => by rw [fieldsOf, hc]; rfl)

/-! ### Words of an undefined code -/

/-- Under a code without a name a word has no fields (R92). -/
theorem fieldsOf_undefined {w : Word} (h : undefinedCode (codeOf w) = true) : fieldsOf w = .none := by
  simp [fieldsOf, (undefinedCode_iff _).1 h]

/-- The shared rule of R186 to R193: whatever row `i` an undefined code selects, the word is tagged with the raw code. -/
theorem undefinedTyped_of_mask {w m : Word} {c : Code} {i : Instr} (hr : s.dec.remaining = 0)
    (hmask : w &&& 0xF8000000 = m) (hm : m = BitVec.twoPow 32 31 ||| place 27 c)
    (hmem : c ∈ ([4, 5, 6, 7, 9, 10, 11, 12] : List Code)) (hi : codeOf w = c → decodeTyped w = i) :
    decode s.ctx (.stream w) = .ok i ∧
      exec i s = .next { s with dec := { s.dec with
        lastType := c, isContinuation := false, out := s.dec.out ++ [⟨w, c, true, .undefined c, none, .none, .none⟩] } } := by
  obtain ⟨hcode, htag⟩ := undefined_of_mem hmem
  obtain ⟨-, -, -, -, hne, -⟩ := (undefinedCode_iff c).1 hcode
  rw [← htag]
  exact plainTyped_of_mask hr hmask hm hne hi fun hc => fieldsOf_undefined (hc ▸ hcode)

/-- Settles O13: each mask fixes one undefined code, and that code selects its row. -/
theorem undefinedCodeWords : Obligations.UndefinedCodeWords := by
  intro s w hr after p
  refine ⟨?_, ?_, ?_, ?_, ?_, ?_, ?_, ?_⟩
  all_goals
    intro hmask
    exact undefinedTyped_of_mask hr hmask (by decide) (by decide) (fun hc => by rw [decodeTyped, hc]; rfl)

end Sys2Proof.Machine

/-! PROOF. Bit reversal (R200 to R202) and the image load (R204 to R207). -/

namespace Sys2Proof.Machine

variable {s : State}

/-! ### REVB

Each swap of R200 exchanges the bits whose positions differ in one binary digit: bit `i` comes from `i ^^^ 4`, `i ^^^ 2` or
`i ^^^ 1`. What is said of REVB below follows from that. -/

theorem getLsbD_swap4 (b : Byte) {i : Nat} (hi : i < 8) : (swap4 b).getLsbD i = b.getLsbD (i ^^^ 4) := by
  interval_cases i <;> simp [swap4]

theorem getLsbD_swap2 (b : Byte) {i : Nat} (hi : i < 8) : (swap2 b).getLsbD i = b.getLsbD (i ^^^ 2) := by
  interval_cases i <;> simp [swap2]

theorem getLsbD_swap1 (b : Byte) {i : Nat} (hi : i < 8) : (swap1 b).getLsbD i = b.getLsbD (i ^^^ 1) := by
  interval_cases i <;> simp [swap1]

/-- A position in a byte stays one when its binary digits are flipped. -/
theorem xor_lt_eight {i k : Nat} (hi : i < 8) (hk : k < 8) : i ^^^ k < 8 :=
  Nat.xor_lt_two_pow (n := 3) hi hk

/-- REVB flips all three digits of a position, and `i ^^^ 7` is `7 - i` (R200). -/
theorem getLsbD_revb (b : Byte) {i : Nat} (hi : i < 8) : (revb b).getLsbD i = b.getLsbD (7 - i) := by
  have hflip : i ^^^ 1 ^^^ 2 ^^^ 4 = 7 - i := by
    interval_cases i <;> rfl
  rw [revb, getLsbD_swap1 _ hi, getLsbD_swap2 _ (xor_lt_eight hi (by decide)),
    getLsbD_swap4 _ (xor_lt_eight (xor_lt_eight hi (by decide)) (by decide)), hflip]

theorem revb_revb (b : Byte) : revb (revb b) = b := by
  refine BitVec.eq_of_getLsbD_eq fun i hi => ?_
  rw [getLsbD_revb _ hi, getLsbD_revb _ (by omega), show 7 - (7 - i) = i by omega]

/-- Two maps on bytes that each flip digits of the positions commute. -/
theorem comm_of_getLsbD_xor {f g : Byte → Byte} {m n : Nat} (hm : m < 8) (hn : n < 8)
    (hf : ∀ b {i}, i < 8 → (f b).getLsbD i = b.getLsbD (i ^^^ m))
    (hg : ∀ b {i}, i < 8 → (g b).getLsbD i = b.getLsbD (i ^^^ n)) (b : Byte) : f (g b) = g (f b) := by
  refine BitVec.eq_of_getLsbD_eq fun i hi => ?_
  rw [hf _ hi, hg _ (xor_lt_eight hi hm), hg _ hi, hf _ (xor_lt_eight hi hn), Nat.xor_right_comm]

theorem swap4_swap2 (b : Byte) : swap4 (swap2 b) = swap2 (swap4 b) :=
  comm_of_getLsbD_xor (by decide) (by decide) getLsbD_swap4 getLsbD_swap2 b

theorem swap4_swap1 (b : Byte) : swap4 (swap1 b) = swap1 (swap4 b) :=
  comm_of_getLsbD_xor (by decide) (by decide) getLsbD_swap4 getLsbD_swap1 b

theorem swap2_swap1 (b : Byte) : swap2 (swap1 b) = swap1 (swap2 b) :=
  comm_of_getLsbD_xor (by decide) (by decide) getLsbD_swap2 getLsbD_swap1 b

/-- Settles O41: the bits of REVB, and the pairwise commutation that brings each other order into that of R200. -/
theorem bitReversal : Obligations.BitReversal := by
  refine fun b => ⟨fun i hi => getLsbD_revb b hi, revb_revb b, ?_, ?_, ?_, ?_, ?_⟩
  all_goals simp only [revb, swap4_swap2, swap4_swap1, swap2_swap1]

/-! ### LOADIMG -/

/-- An error further on in the file is the error of the whole load. -/
theorem loadLoop_cons_error {cap i : Nat} {b : Byte} {file : List (Option Byte)} {e : PrgResult} (hi : i < cap)
    (h : loadLoop cap (i + 1) file = .error e) : loadLoop cap i (some b :: file) = .error e := by
  rw [loadLoop, if_neg (Nat.not_le.2 hi), h]

/-- The first read that fails, `n` bytes further on and not beyond the byte at the capacity, is `IoError` (R206). -/
theorem loadLoop_ioError {cap i n : Nat} {file : List (Option Byte)} (hcap : i + n ≤ cap) (hn : file[n]? = some none)
    (hfirst : ∀ j, j < n → file[j]? ≠ some none) : loadLoop cap i file = .error .ioError := by
  induction file generalizing i n with
  | nil => simp at hn
  | cons x file ih =>
    cases x with
    | none => rfl
    | some b =>
      cases n with
      | zero => simp at hn
      | succ n =>
        exact loadLoop_cons_error (by omega)
          (ih (n := n) (by omega) (by simpa using hn) fun j hj => by simpa using hfirst (j + 1) (by omega))

/-- A file that goes on beyond the capacity is `ImageTooLarge` when no read up to the byte there fails (R205). -/
theorem loadLoop_imageTooLarge {cap i : Nat} {file : List (Option Byte)} (hi : i ≤ cap) (hlen : cap < i + file.length)
    (hread : ∀ j, i + j ≤ cap → file[j]? ≠ some none) : loadLoop cap i file = .error .imageTooLarge := by
  induction file generalizing i with
  | nil => simp only [List.length_nil] at hlen; omega
  | cons x file ih =>
    cases x with
    | none => exact absurd rfl (hread 0 hi)
    | some b =>
      obtain rfl | hlt := Nat.eq_or_lt_of_le hi
      · rw [loadLoop, if_pos (Nat.le_refl _)]
      · simp only [List.length_cons] at hlen
        exact loadLoop_cons_error hlt
          (ih hlt (by omega) fun j hj => by simpa using hread (j + 1) (by omega))

theorem loadImage_of_ok {file : List (Option Byte)} {bs : List Byte} (h : loadLoop s.params.fwMaxSize 0 file = .ok bs) :
    loadImage file s = { s with prg := { s.prg with img := bs, result := .ok } } := by
  rw [loadImage, h]

theorem loadImage_of_error {file : List (Option Byte)} {e : PrgResult}
    (h : loadLoop s.params.fwMaxSize 0 file = .error e) :
    loadImage file s = { s with prg := { s.prg with img := [], result := e } } := by
  rw [loadImage, h]

/-- LOADIMG in Idle is one step. -/
theorem step_loadImage {file : List (Option Byte)} {rest : List Event} (hidle : s.prg.stage = .idle)
    (hin : s.env.inputs = .cmd (.loadImage file) :: rest) : step s = .next (loadImage file (popped s rest)) :=
  (step_cons s hin).trans (if_neg (not_not_intro hidle))

/-- Settles O42: what the loop answers decides the image and the result. -/
theorem loadImageOutcome : Obligations.LoadImageOutcome := by
  intro s file rest hidle hin after
  rw [step_loadImage hidle hin]
  refine ⟨?loaded, fun i hi hnone hfirst => ?ioError, fun hlen hread => ?tooLarge⟩
  case loaded =>
    rintro bytes rfl hfit
    exact congrArg _ (loadImage_of_ok (loadLoop_map_some _ _ _ (by simpa using hfit)))
  case ioError =>
    exact congrArg _ (loadImage_of_error (loadLoop_ioError (by simpa using hi) hnone hfirst))
  case tooLarge =>
    exact congrArg _ (loadImage_of_error
      (loadLoop_imageTooLarge (Nat.zero_le _) (by simpa using hlen) fun j hj => hread j (by simpa using hj)))

end Sys2Proof.Machine

/-! PROOF. The register words of DEV (R216 to R230): what each command and each data word starts, when it stops or is refused, and
what the completion of each operation does. -/

namespace Sys2Proof.Machine

variable {s : State}

/-! ### Commands and data words -/

/-- Settles O30: with nothing pending the two commands are their effect. -/
theorem modeCommands : Obligations.ModeCommands := fun s hp =>
  ⟨whenNotBusy_of_none s hp, whenNotBusy_of_none s hp⟩

/-- Settles O31: with nothing pending the command is its effect. -/
theorem bulkEraseStarts : Obligations.BulkEraseStarts := fun s hp => whenNotBusy_of_none s hp

/-- Settles O32: the mode selects the operation, and the address lies in the array. -/
theorem dataWordsStart : Obligations.DataWordsStart := fun _ _ b hp ha =>
  ⟨fun hm => acceptData_of_writeEnable hp hm ha b, fun hm => acceptData_zero_of_read hp hm ha⟩

/-- While an operation is pending a write to CFG_CSR faults, be its value a command or not (R229). -/
theorem present_writeCsr_of_pending (hp : s.dev.pending ≠ .none) (v : Word) :
    present (.write cfgCsrOff 4 v) s = .fault .cmdWhileBusy := by
  by_cases hwren : v = cmdWren
  · subst hwren
    exact whenNotBusy_of_pending s hp
  by_cases herase : v = cmdBulkErase
  · subst herase
    exact whenNotBusy_of_pending s hp
  by_cases hread : v = cmdRead
  · subst hread
    exact whenNotBusy_of_pending s hp
  exact (present_unknownCommand hwren herase hread).trans (whenNotBusy_of_pending s hp)

/-- While an operation is pending a write to CFG_DATA faults in every mode (R229). -/
theorem present_writeData_of_pending (hp : s.dev.pending ≠ .none) (v : Word) :
    present (.write cfgDataOff 4 v) s = .fault .cmdWhileBusy := by
  rw [← dataWord_of_fields v]
  cases hm : s.dev.mode
  case none => exact (present_dataNone s _ _ hm).trans (whenNotBusy_of_pending s hp)
  case writeEnable => exact (present_data s _ _ hm).trans (whenNotBusy_of_pending s hp)
  case read => exact (present_dataRead s _ _ hm).trans (whenNotBusy_of_pending s hp)

/-- Settles O35: every register write looks at BUSY first. -/
theorem commandWhileBusyFaults : Obligations.CommandWhileBusyFaults := fun s v hp =>
  ⟨present_writeCsr_of_pending hp v, present_writeData_of_pending hp v, whenNotBusy_of_pending s hp,
    whenNotBusy_of_pending s hp, whenNotBusy_of_pending s hp⟩

theorem acceptWrite_of_beyond {a : EepAddr} (h : s.params.eepSize ≤ a.toNat) (b : Byte) :
    acceptWrite a b s = .refused (.addressBeyondEeprom a) :=
  if_neg (Nat.not_lt.2 h)

theorem acceptRead_of_beyond {a : EepAddr} (h : s.params.eepSize ≤ a.toNat) :
    acceptRead a s = .refused (.addressBeyondEeprom a) :=
  if_neg (Nat.not_lt.2 h)

/-- In mode WriteEnable a write of CFG_DATA starts a write (R220). -/
theorem acceptData_eq_acceptWrite (h : s.dev.mode = .writeEnable) (a : EepAddr) (b : Byte) :
    acceptData a b s = whenNotBusy s (acceptWrite a b s) := by
  rw [acceptData, h]

/-- Settles O36: both operations hold the address against `EEP_SIZE`. -/
theorem addressBeyondEepromRefused : Obligations.AddressBeyondEepromRefused := by
  refine fun s a b hp ha => ⟨fun hm => ?write, fun hm => ?read⟩
  case write =>
    exact (acceptData_eq_acceptWrite hm a b).trans ((whenNotBusy_of_none s hp).trans (acceptWrite_of_beyond ha b))
  case read =>
    exact (acceptData_of_read hm a 0).trans ((whenNotBusy_of_none s hp).trans (acceptRead_of_beyond ha))

/-! ### Completion -/

theorem devComplete_of_erase (h : s.dev.pending = .erase) :
    devComplete s = { s with dev := { s.dev with mem := Memory.eraseAll, pending := .none } } := by
  rw [devComplete, h]

theorem devComplete_of_read {a : EepAddr} (h : s.dev.pending = .read a) : devComplete s = byteRead a s := by
  rw [devComplete, h]
  rfl

/-- A completed write stores one byte: its own where the address was erased, a draw elsewhere (R221). -/
theorem devComplete_of_write {a : EepAddr} {b : Byte} (h : s.dev.pending = .write a b) :
    ∃ v n, devComplete s = { byteWritten a v s with draws := n } ∧ (s.dev.mem.erased a.toNat = true → v = b) := by
  rw [devComplete, h]
  dsimp only
  unfold completeWrite
  split
  · exact ⟨b, s.draws, rfl, fun _ => rfl⟩
  · next he => exact ⟨byteOf (nextDraw s), s.draws + 1, rfl, fun he' => absurd he' he⟩

/-- Settles O37: the completed erase replaces the array by the erased one. -/
theorem eraseCompletion : Obligations.EraseCompletion := fun s rest hin hp =>
  ⟨_, (step_devComplete hin).trans (congrArg _ (devComplete_of_erase (s := popped s rest) hp)), rfl, rfl, rfl,
    fun a => ⟨read_eraseAll s.params a, erased_eraseAll a⟩, rfl, rfl⟩

/-- Settles O38: one byte is stored, and the laws of a store say what is read after it. -/
theorem writeCompletion : Obligations.WriteCompletion := by
  intro s rest a b hin hp hwf
  obtain ⟨v, n, hd, hv⟩ := devComplete_of_write (s := popped s rest) hp
  refine ⟨_, (step_devComplete hin).trans (congrArg _ hd), rfl, rfl, rfl, fun he => ?byte, ?mark, fun x hx => ?others,
    rfl, rfl⟩
  case byte => exact (read_store_self _ _ hwf _ v).trans (hv he)
  case mark => exact (erased_store s.params s.dev.mem a.toNat v a.toNat).trans (by simp)
  case others =>
    exact ⟨read_store_of_ne _ _ v hx, (erased_store s.params s.dev.mem a.toNat v x).trans (by simp [hx])⟩

/-- Settles O39: the completed read puts the byte into `RDATA`. -/
theorem readCompletion : Obligations.ReadCompletion := fun s rest _ hin hp =>
  (step_devComplete hin).trans (congrArg _ (devComplete_of_read (s := popped s rest) hp))

end Sys2Proof.Machine

/-! PROOF. One step of PRG (R250). In every access stage it is one access behind its check (R215, R248): an error of either ends
the operation. An access that commands runs the instruction of its row; a poll counts itself and goes on as BUSY and the row
say. The poll loop (R226, R227, R311) and the progress markers (R287) follow. -/

namespace Sys2Proof.Machine

variable {s t u : State}

/-! ### The check before an access -/

/-- The check that a stage makes before its access: the preconditions where ERASEALL, DOWNLOAD or VERIFY begins (R248), the
handle elsewhere (R215). -/
def stageCheck (s : State) : Option PrgResult :=
  match s.prg.stage with
  | .eraseCmd | .wrMode | .rdMode => precondition s
  | _ => handleCheck s

/-- In an access stage the step of PRG is one access behind the check of the stage, in WrByte where the image has the byte
(R33, R250). -/
theorem prgStep_eq_access (hs : accessStage s.prg.stage = true) (hw : s.prg.stage = .wrByte → s.prg.addr < s.prg.imgSize) :
    ∃ r k, ∀ fail, prgStep fail s = access (stageCheck s) fail r s k := by
  cases hg : s.prg.stage <;> simp only [prgStep, stageCheck, hg]
  case idle | confirm | finish =>
    rw [hg] at hs
    cases hs
  case wrByte =>
    simp only [stepWrByte, List.getElem?_eq_getElem (hw hg)]
    exact ⟨_, _, fun _ => rfl⟩
  all_goals exact ⟨_, _, fun _ => rfl⟩

/-- An error that keeps the access from being made ends the operation, and nothing else changes (R232, R283). -/
theorem prgStep_of_accessError {fail : Bool} {e : PrgResult} (hs : accessStage s.prg.stage = true)
    (hw : s.prg.stage = .wrByte → s.prg.addr < s.prg.imgSize) (he : accessError (stageCheck s) fail = some e) :
    prgStep fail s = .next (endWith e s) := by
  obtain ⟨r, k, hstep⟩ := prgStep_eq_access hs hw
  rw [hstep]
  exact (access_next s).2 (.inl ⟨e, he, rfl⟩)

/-- A check that does not pass is the error, whether the access would fail or not (R282). -/
theorem accessError_of_check {check : Option PrgResult} {e : PrgResult} (h : check = some e) (fail : Bool) :
    accessError check fail = some e := by
  rw [h, accessError]

theorem precondition_noImage (hready : s.env.devReady = true) (himg : s.prg.img = []) :
    precondition s = some .imageNotLoaded := by
  simp [precondition, hready, himg, Prg.imgSize]

/-- Without the handle every check fails alike (R215, R248). -/
theorem stageCheck_lost (h : s.env.devReady = false) : stageCheck s = some .notInitialized := by
  unfold stageCheck
  split
  · exact precondition_lost s h
  · exact precondition_lost s h
  · exact precondition_lost s h
  · exact handleCheck_lost s h

theorem stageCheck_passes (hready : s.env.devReady = true) (himg : s.prg.img ≠ []) : stageCheck s = none := by
  have hpre := (precondition_none s).2 ⟨hready, himg⟩
  unfold stageCheck
  split
  · exact hpre
  · exact hpre
  · exact hpre
  · exact handleCheck_ready s hready

theorem step_prg {fail : Bool} {rest : List Event} (hin : s.env.inputs = .prg fail :: rest) :
    step s = prgStep fail (popped s rest) :=
  step_cons s hin

/-- Settles O47: the access's own failure, and the handle before it. -/
theorem failedAccessEndsOperation : Obligations.FailedAccessEndsOperation := by
  intro s fail rest hin hs hne hw after
  have hacc : accessStage (popped s rest).prg.stage = true := by simp [accessStage, hs, hne]
  rw [step_prg hin]
  refine ⟨?fails, fun hlost => ?lost⟩
  case fails =>
    rintro rfl hready himg
    have hcheck : stageCheck (popped s rest) = none := stageCheck_passes hready himg
    exact prgStep_of_accessError hacc hw (by rw [hcheck, accessError])
  case lost =>
    exact prgStep_of_accessError hacc hw (accessError_of_check (stageCheck_lost (s := popped s rest) hlost) fail)

/-- A command other than LOADIMG whose preconditions fail ends in Idle with the error (R248). -/
theorem command_of_precondition {e : PrgResult} (hidle : s.prg.stage = .idle) (he : precondition s = some e) {c : PrgCmd}
    (hc : ∀ f, c ≠ .loadImage f) :
    command c s = .next { s with prg := { s.prg with result := e, op := .none } } := by
  have hend : endIdle e s = { s with prg := { s.prg with result := e, op := .none } } := by rw [endIdle, ← hidle]
  rw [← hend]
  unfold command
  rw [if_neg (not_not_intro hidle)]
  cases c
  case loadImage f => exact absurd rfl (hc f)
  case startSession => simp only [startSession, he]
  all_goals simp only [standAlone, he]

/-- Settles O43: a command in Idle, and the stages in which an operation begins, make the same check. -/
theorem preconditionsBeforeAnyAccess : Obligations.PreconditionsBeforeAnyAccess := by
  refine fun s rest => ⟨fun c hidle hin hc => ?command, fun fail hg hin => ?stage⟩
  case command =>
    rw [step_cons s hin]
    exact ⟨fun hlost => command_of_precondition (s := popped s rest) hidle (precondition_lost (popped s rest) hlost) hc,
      fun hready himg => command_of_precondition (s := popped s rest) hidle (precondition_noImage hready himg) hc⟩
  case stage =>
    simp only [List.mem_cons, List.not_mem_nil, or_false] at hg
    have hends : ∀ e, precondition (popped s rest) = some e → step s = .next (endWith e (popped s rest)) := by
      intro e he
      have hcheck : stageCheck (popped s rest) = some e := by
        obtain hg | hg | hg := hg <;> rw [stageCheck, popped_prg, hg, he]
      rw [step_prg hin]
      refine prgStep_of_accessError ?_ ?_ (accessError_of_check hcheck fail)
      · obtain hg | hg | hg := hg <;> rw [popped_prg, hg] <;> rfl
      · obtain hg | hg | hg := hg <;> rw [popped_prg, hg] <;> nofun
    exact ⟨fun hlost => hends _ (precondition_lost (popped s rest) hlost),
      fun hready himg => hends _ (precondition_noImage hready himg)⟩

/-! ### The stages that command -/

/-- An access whose check passes and that does not fail is made (R215, R232). -/
theorem access_made {check : Option PrgResult} {r : Request} (hcheck : check = none) (hr : present r s = .next u)
    (k : State → Result) : access check false r s k = k (record r u) := by
  rw [access, hcheck, accessError, hr]

theorem prgStep_eraseCmd (hg : s.prg.stage = .eraseCmd) (hpre : precondition s = none)
    (ht : exec .bulkErase s = .next t) :
    prgStep false s = .next { t with prg := { t.prg with stage := .erasePoll, polls := 0,
                                                         trace := t.prg.trace ++ [.wrote 0x90 0x40000000] } } := by
  rw [prgStep, hg]
  exact access_made hpre ((present_bulkErase s).trans ht) _

theorem prgStep_wrMode (hg : s.prg.stage = .wrMode) (hpre : precondition s = none) (ht : exec .setWren s = .next t) :
    prgStep false s = .next { t with prg := { t.prg with stage := .wrByte, addr := 0,
                                                         trace := t.prg.trace ++ [.wrote 0x90 0x80000000] } } := by
  rw [prgStep, hg]
  exact access_made hpre ((present_setWren s).trans ht) _

theorem prgStep_rdMode (hg : s.prg.stage = .rdMode) (hpre : precondition s = none) (ht : exec .setRd s = .next t) :
    prgStep false s = .next { t with prg := { t.prg with stage := .rdByte, addr := 0, verifyErr := false,
                                                         mm := { t.prg.mm with valid := false },
                                                         trace := t.prg.trace ++ [.wrote 0x90 0x20000000] } } := by
  rw [prgStep, hg]
  exact access_made hpre ((present_setRd s).trans ht) _

theorem prgStep_wrByte {b : Byte} (hg : s.prg.stage = .wrByte) (hready : s.env.devReady = true)
    (hm : s.dev.mode = .writeEnable) (himg : s.prg.img[s.prg.addr]? = some b)
    (ht : exec (.wrbyte (BitVec.ofNat 24 s.prg.addr) b) s = .next t) :
    prgStep false s = .next { t with prg := { t.prg with stage := .wrPoll, polls := 0,
                                                         trace := t.prg.trace ++
                                                           [.wrote 0x94 (BitVec.ofNat 24 s.prg.addr ++ b)] } } := by
  rw [prgStep, hg, append_eq_dataWord]
  dsimp only
  rw [stepWrByte, himg]
  exact access_made (handleCheck_ready s hready) ((present_data s _ b hm).trans ht) _

theorem prgStep_rdByte (hg : s.prg.stage = .rdByte) (hready : s.env.devReady = true) (hm : s.dev.mode = .read)
    (ht : exec (.rdbyte (BitVec.ofNat 24 s.prg.addr)) s = .next t) :
    prgStep false s = .next { t with prg := { t.prg with stage := .rdPoll, polls := 0,
                                                         trace := t.prg.trace ++
                                                           [.wrote 0x94 (BitVec.ofNat 24 s.prg.addr ++ 0#8)] } } := by
  rw [prgStep, hg, append_eq_dataWord]
  exact access_made (handleCheck_ready s hready) ((present_dataRead s _ 0 hm).trans ht) _

/-! ### What every poll does -/

/-- What holds of a step of PRG from `s` to `t` that has made its poll, whatever it saw: the poll counts itself and appears on
the output port, the bus has returned the word of CFG_CSR, and DEV, DEC, the image and the lock are as they were (R226). -/
structure Polled (s t : State) : Prop where
  params : t.params = s.params
  dec    : t.dec = s.dec
  dev    : t.dev = s.dev
  env    : t.env = (readCsr s).env
  polls  : t.prg.polls = s.prg.polls + 1
  trace  : t.prg.trace = s.prg.trace ++ [.got cfgCsrOff (csrValue s)]
  img    : t.prg.img = s.prg.img
  lock   : t.prg.lockHeld = s.prg.lockHeld

theorem Polled.refl (s : State) : Polled s (polled s) := ⟨rfl, rfl, rfl, rfl, rfl, rfl, rfl, rfl⟩

theorem Polled.goto (h : Polled s t) (g : Stage) : Polled s (goto g t) := { h with }

theorem Polled.endWith (h : Polled s t) (e : PrgResult) : Polled s (endWith e t) := { h with }

theorem Polled.nextAddr (h : Polled s t) : Polled s (nextAddr t) := { h with }

theorem Polled.markErase (h : Polled s t) : Polled s (markErase t) := by
  obtain ⟨l, hl⟩ := markErase_eq t
  rw [hl]
  exact { h with }

theorem Polled.markDownload (h : Polled s t) : Polled s (markDownload t) := by
  obtain ⟨l, hl⟩ := markDownload_eq t
  rw [hl]
  exact { h with }

theorem Polled.stillBusy (h : Polled s t) : Polled s (stillBusy t) := by
  obtain ⟨-, hb⟩ | ⟨-, hb⟩ := stillBusy_cases t <;> rw [hb]
  · exact h.endWith _
  · exact h

/-- A comparison touches the error flag, the diagnostic and the output port of PRG only (R246). -/
theorem compareByte_eq (e a : Byte) (s : State) :
    ∃ v m l, compareByte e a s = { s with prg := { s.prg with verifyErr := v, mm := m, emitted := l } } := by
  unfold compareByte
  dsimp only
  split
  · exact ⟨_, _, _, rfl⟩
  · exact ⟨_, s.prg.mm, s.prg.emitted, rfl⟩

theorem Polled.compareByte (h : Polled s t) (e a : Byte) : Polled s (compareByte e a t) := by
  obtain ⟨v, m, l, hc⟩ := compareByte_eq e a t
  rw [hc]
  exact { h with }

/-! ### A poll that sees BUSY -/

/-- The state in which a poll that saw BUSY holds its count against `POLL_MAX`: ErasePoll has put out its marker (R226). -/
def busyPolled (s : State) : State := if s.prg.stage = .erasePoll then markErase (polled s) else polled s

theorem busyPolled_eq (s : State) :
    ∃ l, busyPolled s = { polled s with prg := { (polled s).prg with emitted := l } } := by
  unfold busyPolled
  split
  · exact markErase_eq (polled s)
  · exact ⟨s.prg.emitted, rfl⟩

theorem Polled.busyPolled (s : State) : Polled s (busyPolled s) := by
  unfold Machine.busyPolled
  split
  · exact (Polled.refl s).markErase
  · exact Polled.refl s

theorem prgStep_of_pending (hs : pollStage s.prg.stage = true) (hready : s.env.devReady = true)
    (hp : s.dev.pending ≠ .none) : prgStep false s = .next (stillBusy (busyPolled s)) := by
  have hbusy := csrBusy_polled_of_pending hp
  rw [prgStep]
  obtain hg | hg | hg := pollStage_iff.1 hs <;> rw [busyPolled, hg]
  · exact (access_poll hready _).trans (congrArg _ (if_pos hbusy))
  · exact (access_poll hready _).trans (congrArg _ (if_pos hbusy))
  · exact (access_poll hready _).trans (if_pos hbusy)

/-- The count reaches a finite `POLL_MAX`: the operation ends with `Timeout` of the stage and the address (R226, R227). -/
theorem prgStep_times_out {m : Nat} (hs : pollStage s.prg.stage = true) (hready : s.env.devReady = true)
    (hp : s.dev.pending ≠ .none) (hm : s.params.pollMax = some m) (hle : m ≤ s.prg.polls + 1) :
    prgStep false s = .next (endWith (.timeout s.prg.stage s.prg.addr) (busyPolled s)) := by
  rw [prgStep_of_pending hs hready hp]
  obtain ⟨l, hl⟩ := busyPolled_eq s
  have hout : timedOut (busyPolled s).params (busyPolled s).prg.polls = true := by
    rw [hl]
    exact (timedOut_of_pollMax hm _).trans (decide_eq_true hle)
  rw [stillBusy, if_pos hout, hl]
  rfl

/-- The count has not reached `POLL_MAX`: PRG polls again (R226, R227). -/
theorem prgStep_polls_on (hs : pollStage s.prg.stage = true) (hready : s.env.devReady = true) (hp : s.dev.pending ≠ .none)
    (hm : ∀ m, s.params.pollMax = some m → s.prg.polls + 1 < m) : prgStep false s = .next (busyPolled s) := by
  rw [prgStep_of_pending hs hready hp]
  obtain ⟨l, hl⟩ := busyPolled_eq s
  have hin : timedOut (busyPolled s).params (busyPolled s).prg.polls = false := by
    rw [hl]
    change timedOut s.params (s.prg.polls + 1) = false
    cases hmax : s.params.pollMax with
    | none => rw [timedOut, hmax]
    | some m => exact (timedOut_of_pollMax hmax _).trans (decide_eq_false (Nat.not_le.2 (hm m hmax)))
  rw [stillBusy, if_neg (Bool.eq_false_iff.1 hin)]

theorem times_out_next {m : Nat} (ht : prgStep false s = .next t) (hs : pollStage s.prg.stage = true)
    (hready : s.env.devReady = true) (hp : s.dev.pending ≠ .none) (hm : s.params.pollMax = some m)
    (hle : m ≤ s.prg.polls + 1) : t.prg.stage = .finish ∧ t.prg.ending = .timeout s.prg.stage s.prg.addr := by
  rw [prgStep_times_out hs hready hp hm hle] at ht
  cases ht
  exact ⟨rfl, rfl⟩

/-- A count below the `POLL_MAX` there is lies below every one (R226). -/
theorem lt_pollMax {p : Config.Params} {m n : Nat} (hm : p.pollMax = some m) (hlt : n < m) :
    ∀ m', p.pollMax = some m' → n < m' :=
  fun _ hm' => Option.some.inj (hm.symm.trans hm') ▸ hlt

theorem polls_on_next (ht : prgStep false s = .next t) (hs : pollStage s.prg.stage = true)
    (hready : s.env.devReady = true) (hp : s.dev.pending ≠ .none)
    (hm : ∀ m, s.params.pollMax = some m → s.prg.polls + 1 < m) :
    t.prg.stage = s.prg.stage ∧ t.prg.ending = s.prg.ending := by
  obtain ⟨l, hl⟩ := busyPolled_eq s
  rw [prgStep_polls_on hs hready hp hm, hl] at ht
  cases ht
  exact ⟨rfl, rfl⟩

/-- A poll that saw BUSY keeps the address, and the stage unless it ends the operation (R226). -/
theorem stillBusy_next (ht : prgStep false s = .next t) (hs : pollStage s.prg.stage = true)
    (hready : s.env.devReady = true) (hp : s.dev.pending ≠ .none) :
    t.prg.addr = s.prg.addr ∧ (t.prg.stage = s.prg.stage ∨ t.prg.stage = .finish) := by
  rw [prgStep_of_pending hs hready hp] at ht
  cases ht
  obtain ⟨l, hl⟩ := busyPolled_eq s
  obtain ⟨-, hb⟩ | ⟨-, hb⟩ := stillBusy_cases (busyPolled s) <;> rw [hb, hl]
  · exact ⟨rfl, .inr rfl⟩
  · exact ⟨rfl, .inl rfl⟩

/-! ### A poll that sees the operation done -/

/-- The state of the download after a byte: the address has moved on and the marker is out where one is due (R242, R287). -/
def byteDownloaded (s : State) : State := markDownload (nextAddr (polled s))

/-- The state of the verification after a byte has been compared (R245, R246). -/
def byteCompared (b : Byte) (s : State) : State := nextAddr (compareByte b s.dev.rdata (polled s))

theorem byteDownloaded_eq (s : State) :
    ∃ l, byteDownloaded s = { nextAddr (polled s) with prg := { (nextAddr (polled s)).prg with emitted := l } } :=
  markDownload_eq _

theorem Polled.byteDownloaded (s : State) : Polled s (byteDownloaded s) := (Polled.refl s).nextAddr.markDownload

theorem Polled.byteCompared (b : Byte) (s : State) : Polled s (byteCompared b s) :=
  ((Polled.refl s).compareByte b s.dev.rdata).nextAddr

theorem byteCompared_addr (b : Byte) (s : State) : (byteCompared b s).prg.addr = s.prg.addr + 1 := by
  obtain ⟨v, m, l, hc⟩ := compareByte_eq b s.dev.rdata (polled s)
  rw [byteCompared, hc]
  rfl

theorem prgStep_erasePoll_done (hg : s.prg.stage = .erasePoll) (hready : s.env.devReady = true)
    (hp : s.dev.pending = .none) :
    prgStep false s = .next (if s.prg.op = .eraseAll then endWith .ok (polled s) else goto .wrMode (polled s)) := by
  rw [prgStep, hg]
  exact (access_poll hready _).trans (congrArg _ (if_neg (Bool.eq_false_iff.1 (csrBusy_polled hp))))

theorem prgStep_wrPoll_done (hg : s.prg.stage = .wrPoll) (hready : s.env.devReady = true) (hp : s.dev.pending = .none) :
    prgStep false s = .next (if s.prg.addr + 1 < s.prg.imgSize then goto .wrByte (byteDownloaded s)
      else if s.prg.op = .download then endWith .ok (byteDownloaded s) else goto .rdMode (byteDownloaded s)) := by
  obtain ⟨l, hl⟩ := byteDownloaded_eq s
  rw [prgStep, hg]
  dsimp only
  rw [stepWrPoll, access_poll hready]
  dsimp only
  rw [← polled, if_neg (Bool.eq_false_iff.1 (csrBusy_polled hp)), ← byteDownloaded, hl]
  rfl

theorem prgStep_rdPoll_done {b : Byte} (hg : s.prg.stage = .rdPoll) (hready : s.env.devReady = true)
    (hp : s.dev.pending = .none) (himg : s.prg.img[s.prg.addr]? = some b) :
    prgStep false s = .next (if s.prg.addr + 1 < s.prg.imgSize then goto .rdByte (byteCompared b s)
      else endWith (verifyOutcome (byteCompared b s)) (byteCompared b s)) := by
  have himg' : (polled s).prg.img[(polled s).prg.addr]? = some b := himg
  have hrdata : csrRData (polled s).env.busData = s.dev.rdata := (csrValue_fields s).2
  have hsize : (byteCompared b s).prg.imgSize = s.prg.imgSize := congrArg List.length (Polled.byteCompared b s).img
  rw [prgStep, hg]
  dsimp only
  rw [stepRdPoll, access_poll hready]
  dsimp only
  rw [← polled, if_neg (Bool.eq_false_iff.1 (csrBusy_polled hp)), himg']
  dsimp only
  rw [hrdata, ← byteCompared, byteCompared_addr, hsize]

/-- RdPoll has no byte to compare with at or above `imgSize` (R33). -/
theorem prgStep_rdPoll_noByte (hg : s.prg.stage = .rdPoll) (hready : s.env.devReady = true) (hp : s.dev.pending = .none)
    (himg : s.prg.img[s.prg.addr]? = none) : prgStep false s = .fault (.imageEntryNoValue s.prg.addr) := by
  have himg' : (polled s).prg.img[(polled s).prg.addr]? = none := himg
  rw [prgStep, hg]
  dsimp only
  rw [stepRdPoll, access_poll hready]
  dsimp only
  rw [← polled, if_neg (Bool.eq_false_iff.1 (csrBusy_polled hp)), himg']
  rfl

/-- A poll of RdPoll that answers a next state with nothing pending has compared a byte. -/
theorem img_of_rdPoll_next (ht : prgStep false s = .next t) (hg : s.prg.stage = .rdPoll)
    (hready : s.env.devReady = true) (hp : s.dev.pending = .none) : ∃ b, s.prg.img[s.prg.addr]? = some b := by
  refine Option.ne_none_iff_exists'.1 fun himg => ?_
  rw [prgStep_rdPoll_noByte hg hready hp himg] at ht
  cases ht

/-! ### Every poll -/

/-- A poll is made and answers a next state, in RdPoll where the image has the byte (R226, R250). -/
theorem prgStep_poll_next (hs : pollStage s.prg.stage = true) (hready : s.env.devReady = true)
    (himg : s.prg.stage = .rdPoll → ∃ b, s.prg.img[s.prg.addr]? = some b) : ∃ t, prgStep false s = .next t := by
  by_cases hp : s.dev.pending = .none
  · obtain hg | hg | hg := pollStage_iff.1 hs
    · exact ⟨_, prgStep_erasePoll_done hg hready hp⟩
    · exact ⟨_, prgStep_wrPoll_done hg hready hp⟩
    · obtain ⟨b, hb⟩ := himg hg
      exact ⟨_, prgStep_rdPoll_done hg hready hp hb⟩
  · exact ⟨_, prgStep_of_pending hs hready hp⟩

theorem polled_of_prgStep (ht : prgStep false s = .next t) (hs : pollStage s.prg.stage = true)
    (hready : s.env.devReady = true) : Polled s t := by
  by_cases hp : s.dev.pending = .none
  · obtain hg | hg | hg := pollStage_iff.1 hs
    · rw [prgStep_erasePoll_done hg hready hp] at ht
      cases ht
      split
      · exact (Polled.refl s).endWith _
      · exact (Polled.refl s).goto _
    · rw [prgStep_wrPoll_done hg hready hp] at ht
      cases ht
      split_ifs
      · exact (Polled.byteDownloaded s).goto _
      · exact (Polled.byteDownloaded s).endWith _
      · exact (Polled.byteDownloaded s).goto _
    · obtain ⟨b, hb⟩ := img_of_rdPoll_next ht hg hready hp
      rw [prgStep_rdPoll_done hg hready hp hb] at ht
      cases ht
      split
      · exact (Polled.byteCompared b s).goto _
      · exact (Polled.byteCompared b s).endWith _
  · rw [prgStep_of_pending hs hready hp] at ht
    cases ht
    exact (Polled.busyPolled s).stillBusy

/-- ErasePoll goes on to the download, but for a stand-alone erase (R250, R251). -/
theorem erasePoll_row (ht : prgStep false s = .next t) (hg : s.prg.stage = .erasePoll) (hready : s.env.devReady = true)
    (hp : s.dev.pending = .none) :
    t.prg.addr = s.prg.addr ∧ (s.prg.op ≠ .eraseAll → t.prg.stage = .wrMode) := by
  rw [prgStep_erasePoll_done hg hready hp] at ht
  cases ht
  split
  · next hop => exact ⟨rfl, fun hne => absurd hop hne⟩
  · exact ⟨rfl, fun _ => rfl⟩

/-- WrPoll goes on to the next byte, and after the last to the verification, but for a stand-alone download (R250, R251). -/
theorem wrPoll_row (ht : prgStep false s = .next t) (hg : s.prg.stage = .wrPoll) (hready : s.env.devReady = true)
    (hp : s.dev.pending = .none) :
    t.prg.addr = s.prg.addr + 1 ∧ (s.prg.addr + 1 < s.prg.imgSize → t.prg.stage = .wrByte) ∧
      (s.prg.imgSize ≤ s.prg.addr + 1 → s.prg.op ≠ .download → t.prg.stage = .rdMode) := by
  obtain ⟨l, hl⟩ := byteDownloaded_eq s
  rw [prgStep_wrPoll_done hg hready hp, hl] at ht
  cases ht
  split_ifs with hlt hop
  · exact ⟨rfl, fun _ => rfl, fun hle => absurd hlt (Nat.not_lt.2 hle)⟩
  · exact ⟨rfl, fun hlt' => absurd hlt' hlt, fun _ hne => absurd hop hne⟩
  · exact ⟨rfl, fun hlt' => absurd hlt' hlt, fun _ _ => rfl⟩

/-- RdPoll goes on to the next byte, and after the last to Finish (R250). -/
theorem rdPoll_row (ht : prgStep false s = .next t) (hg : s.prg.stage = .rdPoll) (hready : s.env.devReady = true)
    (hp : s.dev.pending = .none) :
    t.prg.addr = s.prg.addr + 1 ∧ (s.prg.addr + 1 < s.prg.imgSize → t.prg.stage = .rdByte) ∧
      (s.prg.imgSize ≤ s.prg.addr + 1 → t.prg.stage = .finish) := by
  obtain ⟨b, hb⟩ := img_of_rdPoll_next ht hg hready hp
  have haddr := byteCompared_addr b s
  rw [prgStep_rdPoll_done hg hready hp hb] at ht
  cases ht
  split
  · next hlt => exact ⟨haddr, fun _ => rfl, fun hle => absurd hlt (Nat.not_lt.2 hle)⟩
  · next hge => exact ⟨haddr, fun hlt => absurd hlt hge, fun _ => rfl⟩

/-- With no move listed PRG takes the step it would take on a listed move that does not fail (R311). -/
theorem step_unlisted (hin : s.env.inputs = []) (hs : lockingStage s.prg.stage = true) :
    step s = step { s with env := { s.env with inputs := [.prg false] } } := by
  have hpopped : popped s [] = s := by rw [popped, ← hin]
  rw [step_nil s hin, if_pos hs]
  exact (congrArg (prgStep false) hpopped).symm

/-- Settles O9: the five stages that command, then the polls: each row is read off the step's answer. -/
theorem prgStepRunsItsInstruction : Obligations.PrgStepRunsItsInstruction := by
  refine fun s t rest b => ⟨step_unlisted, fun hready himg hin => ?_⟩
  have hpre : precondition (popped s rest) = none := (precondition_none s).2 ⟨hready, himg⟩
  rw [step_prg hin]
  refine ⟨fun hg => prgStep_eraseCmd hg hpre, fun hg => prgStep_wrMode hg hpre,
    fun hg => prgStep_wrByte (s := popped s rest) hg hready, fun hg => prgStep_rdMode hg hpre,
    fun hg => prgStep_rdByte (s := popped s rest) hg hready, fun hg ht hb => ?poll⟩
  case poll =>
    have hs : pollStage (popped s rest).prg.stage = true := pollStage_iff.2 hg
    obtain ⟨u, hu⟩ := prgStep_poll_next (s := popped s rest) hs hready fun hg => ⟨b, hb hg⟩
    have hpolled := polled_of_prgStep hu hs hready
    have hbusy := stillBusy_next hu hs hready
    have herase := erasePoll_row hu
    have hwrite := wrPoll_row hu
    have hread := rdPoll_row hu
    cases ht
    exact ⟨u, hu, hpolled.dev, hpolled.dec, hpolled.env, hpolled.polls, hpolled.trace, hbusy, fun hp =>
      ⟨fun hg => herase hg hready hp, fun hg => hwrite hg hready hp, fun hg => hread hg hready hp⟩⟩

/-! ### The poll loop -/

/-- PRG waits for DEV by itself: no move is listed, the handle is there and an operation is pending (R227, R311). -/
structure WaitsAlone (s : State) : Prop where
  ready   : s.env.devReady = true
  pending : s.dev.pending ≠ .none
  stage   : pollStage s.prg.stage = true
  alone   : s.env.inputs = []

theorem WaitsAlone.step (h : WaitsAlone s) : step s = prgStep false s := by
  obtain ⟨hlock, -⟩ := Bool.and_eq_true_iff.1 (accessStage_of_poll h.stage)
  rw [step_nil s h.alone, if_pos hlock]

/-- A busy poll short of `POLL_MAX` leaves PRG waiting, with one more poll counted. -/
theorem WaitsAlone.busyPolled (h : WaitsAlone s) :
    WaitsAlone (busyPolled s) ∧ (busyPolled s).params = s.params ∧ (busyPolled s).prg.stage = s.prg.stage ∧
      (busyPolled s).prg.addr = s.prg.addr ∧ (busyPolled s).prg.lockHeld = s.prg.lockHeld ∧
      (busyPolled s).prg.polls = s.prg.polls + 1 := by
  obtain ⟨l, hl⟩ := busyPolled_eq s
  rw [hl]
  exact ⟨{ h with }, rfl, rfl, rfl, rfl, rfl⟩

/-- With `POLL_MAX = inf` the loop goes on for ever (R227, R311). -/
theorem WaitsAlone.run_forever (h : WaitsAlone s) (hm : s.params.pollMax = none) (k : Nat) :
    ∃ t, core.run k s = .next t ∧ t.prg.stage = s.prg.stage ∧ t.prg.lockHeld = s.prg.lockHeld ∧
      t.prg.polls = s.prg.polls + k := by
  induction k generalizing s with
  | zero => exact ⟨s, rfl, rfl, rfl, rfl⟩
  | succ k ih =>
    obtain ⟨hwaits, hparams, hstage, -, hlock, hpolls⟩ := h.busyPolled
    have hstep := h.step.trans (prgStep_polls_on h.stage h.ready h.pending fun _ hm' => nomatch hm.symm.trans hm')
    obtain ⟨t, hrun, hts, htl, htp⟩ := ih hwaits (hparams ▸ hm)
    exact ⟨t, (run_of_step hstep).trans hrun, hts.trans hstage, htl.trans hlock, by omega⟩

/-- The poll that exhausts `POLL_MAX` and the step out of Finish (R250, R284). -/
theorem WaitsAlone.run_timeout {m : Nat} (h : WaitsAlone s) (hm : s.params.pollMax = some m) (hle : m ≤ s.prg.polls + 1) :
    ∃ t, core.run 2 s = .next t ∧ t.prg.stage = .idle ∧ t.prg.lockHeld = false ∧
      t.prg.result = .timeout s.prg.stage s.prg.addr := by
  obtain ⟨hwaits, -⟩ := h.busyPolled
  have hpoll := h.step.trans (prgStep_times_out h.stage h.ready h.pending hm hle)
  have hfinish : Machine.step (endWith (.timeout s.prg.stage s.prg.addr) (Machine.busyPolled s)) =
      .next (finish (endWith (.timeout s.prg.stage s.prg.addr) (Machine.busyPolled s))) :=
    step_nil _ hwaits.alone
  exact ⟨_, (run_of_step hpoll).trans (run_of_step hfinish), rfl, rfl, rfl⟩

/-- With a finite `POLL_MAX` the loop ends with `Timeout`, by induction on the polls that are left (R311). -/
theorem WaitsAlone.run_to_timeout {m : Nat} (h : WaitsAlone s) (hm : s.params.pollMax = some m) :
    ∃ k t, core.run k s = .next t ∧ t.prg.stage = .idle ∧ t.prg.lockHeld = false ∧
      t.prg.result = .timeout s.prg.stage s.prg.addr := by
  induction hn : m - s.prg.polls generalizing s with
  | zero => exact ⟨2, h.run_timeout hm (by omega)⟩
  | succ n ih =>
    by_cases hle : m ≤ s.prg.polls + 1
    · exact ⟨2, h.run_timeout hm hle⟩
    obtain ⟨hwaits, hparams, hstage, haddr, -, hpolls⟩ := h.busyPolled
    have hstep := h.step.trans (prgStep_polls_on h.stage h.ready h.pending (lt_pollMax hm (Nat.not_le.1 hle)))
    obtain ⟨k, t, hrun, hidle, hlock, hresult⟩ := ih hwaits (hparams ▸ hm) (by omega)
    exact ⟨k + 1, t, (run_of_step hstep).trans hrun, hidle, hlock, by rw [hresult, hstage, haddr]⟩

/-- Settles O48: the poll that counts, against each kind of `POLL_MAX`, and the two loops. -/
theorem busyPollCountsAndTimesOut : Obligations.BusyPollCountsAndTimesOut := by
  intro s hready hp hg
  have hs := pollStage_iff.2 hg
  refine ⟨fun rest hin => ?listed, fun hin hm => WaitsAlone.run_forever ⟨hready, hp, hs, hin⟩ hm,
    fun m hin hm => WaitsAlone.run_to_timeout ⟨hready, hp, hs, hin⟩ hm⟩
  case listed =>
    have hnext := prgStep_of_pending (s := popped s rest) hs hready hp
    have hpolled := polled_of_prgStep hnext hs hready
    have hout {m : Nat} := times_out_next (m := m) hnext hs hready hp
    have hon := polls_on_next hnext hs hready hp
    obtain ⟨haddr, -⟩ := stillBusy_next hnext hs hready hp
    rw [step_prg hin]
    exact ⟨_, hnext, hpolled.polls, hpolled.dev, haddr, hpolled.lock, hpolled.img, fun m hm hle => hout hm hle,
      fun m hm hlt => hon (lt_pollMax hm hlt), fun hm => hon fun m' hm' => nomatch hm.symm.trans hm'⟩

end Sys2Proof.Machine

/-! PROOF. The output port of PRG: the progress markers (R226, R242, R287). -/

namespace Sys2Proof.Machine

variable {s t : State}

/-! ### What puts nothing out -/

/-- A step of PRG puts nothing out when what it does around its access puts nothing out. -/
theorem access_emitted {check : Option PrgResult} {fail : Bool} {r : Request} {k : State → Result}
    (hr : ∀ w, r ≠ .stream w) (hk : ∀ u v, k u = .next v → v.prg.emitted = u.prg.emitted)
    (ht : access check fail r s k = .next t) : t.prg.emitted = s.prg.emitted := by
  obtain ⟨e, -, rfl⟩ | ⟨-, u, hu, ht⟩ := (access_next s).1 ht
  · rfl
  · obtain ⟨-, -, hprg, -⟩ := present_frame s hr hu
    rw [hk _ _ ht, record_prg_emitted, hprg]

theorem stepWrByte_emitted {fail : Bool} (ht : stepWrByte fail s = .next t) : t.prg.emitted = s.prg.emitted := by
  unfold stepWrByte at ht
  split at ht
  · cases ht
  · refine access_emitted (by simp) (fun u v hv => ?_) ht
    cases hv
    rfl

/-- Outside the polls PRG puts nothing out (R250, R287). -/
theorem prgStep_emitted {fail : Bool} (ht : prgStep fail s = .next t) (hs : pollStage s.prg.stage = false) :
    t.prg.emitted = s.prg.emitted := by
  cases hg : s.prg.stage <;> simp only [prgStep, hg] at ht
  case erasePoll | wrPoll | rdPoll =>
    rw [hg] at hs
    cases hs
  case idle | confirm | finish =>
    cases ht
    rfl
  case wrByte => exact stepWrByte_emitted ht
  case eraseCmd | wrMode | rdMode | rdByte =>
    refine access_emitted (by simp) (fun u v hv => ?_) ht
    cases hv
    rfl

/-- A poll that is not made, failing or without the handle, puts nothing out (R215, R232). -/
theorem poll_error_emitted {fail : Bool} (ht : prgStep fail s = .next t) (hs : pollStage s.prg.stage = true)
    (herr : fail = true ∨ s.env.devReady = false) : t.prg.emitted = s.prg.emitted := by
  have hmade : ¬accessError (stageCheck s) fail = none := by
    rw [accessError_none]
    obtain rfl | hlost := herr
    · simp
    · simp [stageCheck_lost hlost]
  obtain ⟨e, he⟩ := Option.ne_none_iff_exists'.1 hmade
  have hnot : s.prg.stage ≠ .wrByte := by obtain hg | hg | hg := pollStage_iff.1 hs <;> simp [hg]
  rw [prgStep_of_accessError (accessStage_of_poll hs) (fun hg => absurd hg hnot) he] at ht
  cases ht
  rfl

/-! ### The markers and the diagnostic -/

theorem stillBusy_emitted (s : State) : (stillBusy s).prg.emitted = s.prg.emitted := by
  obtain ⟨-, hb⟩ | ⟨-, hb⟩ := stillBusy_cases s <;> rw [hb]
  rfl

theorem markErase_emitted (s : State) : (markErase s).prg.emitted =
    s.prg.emitted ++ if s.prg.polls % eraseMarkEvery = 0 then [.progressErase] else [] := by
  obtain ⟨hn, hm⟩ | ⟨hn, hm⟩ := markErase_cases s <;> simp [hm, hn]

theorem markDownload_emitted (s : State) : (markDownload s).prg.emitted =
    s.prg.emitted ++ if s.prg.addr % downloadMarkEvery = 0 then [.progressDownload] else [] := by
  obtain ⟨hn, hm⟩ | ⟨hn, hm⟩ := markDownload_cases s <;> simp [hm, hn]

/-- ErasePoll puts out a marker with every hundredth busy poll (R226). -/
theorem erasePoll_emitted (ht : prgStep false s = .next t) (hg : s.prg.stage = .erasePoll) (hready : s.env.devReady = true) :
    t.prg.emitted = s.prg.emitted ++
      (if s.dev.pending ≠ .none ∧ (s.prg.polls + 1) % 100 = 0 then [.progressErase] else []) := by
  by_cases hp : s.dev.pending = .none
  · rw [prgStep_erasePoll_done hg hready hp] at ht
    cases ht
    simp only [hp, ne_eq, not_true_eq_false, false_and, if_false, List.append_nil]
    split <;> rfl
  · rw [prgStep_of_pending (by rw [hg]; rfl) hready hp] at ht
    cases ht
    rw [stillBusy_emitted, busyPolled, if_pos hg, markErase_emitted]
    simp only [ne_eq, hp, not_false_eq_true, true_and]
    rfl

/-- WrPoll puts out a marker with every byte that brings the address to a multiple of 100000 (R242). -/
theorem wrPoll_emitted (ht : prgStep false s = .next t) (hg : s.prg.stage = .wrPoll) (hready : s.env.devReady = true) :
    t.prg.emitted = s.prg.emitted ++
      (if s.dev.pending = .none ∧ (s.prg.addr + 1) % 100000 = 0 then [.progressDownload] else []) := by
  by_cases hp : s.dev.pending = .none
  · have hout : (byteDownloaded s).prg.emitted =
        s.prg.emitted ++ if (s.prg.addr + 1) % 100000 = 0 then [.progressDownload] else [] :=
      markDownload_emitted (nextAddr (polled s))
    rw [prgStep_wrPoll_done hg hready hp] at ht
    cases ht
    simp only [hp, true_and, ← hout]
    split_ifs <;> rfl
  · rw [prgStep_of_pending (by rw [hg]; rfl) hready hp] at ht
    cases ht
    rw [stillBusy_emitted, busyPolled, if_neg (by simp [hg]), if_neg fun h => hp h.1, List.append_nil]
    rfl

/-- RdPoll puts out the diagnostic of a first mismatch or nothing (R246). -/
theorem rdPoll_emitted (ht : prgStep false s = .next t) (hg : s.prg.stage = .rdPoll) (hready : s.env.devReady = true) :
    t.prg.emitted = s.prg.emitted ∨
      (s.dev.pending = .none ∧ ∃ a x y, t.prg.emitted = s.prg.emitted ++ [.diagnostic a x y]) := by
  by_cases hp : s.dev.pending = .none
  · obtain ⟨b, himg⟩ := img_of_rdPoll_next ht hg hready hp
    have hout : t.prg.emitted = (compareByte b s.dev.rdata (polled s)).prg.emitted := by
      rw [prgStep_rdPoll_done hg hready hp himg] at ht
      cases ht
      split <;> rfl
    rw [hout]
    obtain ⟨-, -, -, he⟩ | ⟨-, -, he⟩ := compareByte_cases (polled s) b s.dev.rdata
    · exact .inr ⟨hp, _, _, _, he⟩
    · exact .inl he
  · rw [prgStep_of_pending (by rw [hg]; rfl) hready hp] at ht
    cases ht
    rw [stillBusy_emitted, busyPolled, if_neg (by simp [hg])]
    exact .inl rfl

/-- Settles O49: the three polls, and everything else. -/
theorem progressMarkers : Obligations.ProgressMarkers := by
  intro s t fail rest hin ht
  rw [step_prg hin] at ht
  refine ⟨?polls, fun hsilent => ?silent⟩
  case polls =>
    rintro rfl hready
    have herase := erasePoll_emitted ht
    have hwrite := wrPoll_emitted ht
    have hread := rdPoll_emitted ht
    exact ⟨fun hg => herase hg hready, fun hg => hwrite hg hready, fun hg => hread hg hready⟩
  case silent =>
    cases hs : pollStage s.prg.stage with
    | false =>
      have hout := prgStep_emitted ht
      exact hout hs
    | true =>
      have hout := poll_error_emitted ht
      obtain hfail | hlost | ⟨herase, hwrite, hread⟩ := hsilent
      · exact hout hs (.inl hfail)
      · exact hout hs (.inr hlost)
      · obtain hg | hg | hg := pollStage_iff.1 hs
        · exact absurd hg herase
        · exact absurd hg hwrite
        · exact absurd hg hread

end Sys2Proof.Machine

/-! PROOF. PRG around a SESSION: what it refuses outside Idle (R250, R301), the step out of Finish (R249, R284), one byte of the
verification (R245 to R247), and the answer with which a SESSION begins (R310). -/

namespace Sys2Proof.Machine

variable {s : State}

/-! ### Commands outside Idle, and the end of an operation -/

theorem command_of_busy (h : s.prg.stage ≠ .idle) (c : PrgCmd) : command c s = .refused .commandOutsideIdle := if_pos h

theorem prgRst_of_busy (h : s.prg.stage ≠ .idle) : prgRst s = .refused .rstOutsideIdle := if_pos h

/-- Settles O45: both inputs are looked at in Idle only. -/
theorem busyProgrammerAcceptsNothing : Obligations.BusyProgrammerAcceptsNothing := fun s rest hbusy =>
  ⟨fun c hin => (step_cons s hin).trans (command_of_busy (s := popped s rest) hbusy c),
    fun hin => (step_cons s hin).trans (prgRst_of_busy (s := popped s rest) hbusy)⟩

theorem prgStep_finish (hg : s.prg.stage = .finish) (fail : Bool) : prgStep fail s = .next (finish s) := by
  rw [prgStep, hg]

/-- A SESSION's image is discarded (R249). -/
theorem finish_imgSize_of_session (hop : s.prg.op = .session) : (finish s).prg.imgSize = 0 := by
  rw [Prg.imgSize, finish_prg_img, if_pos hop, List.length_nil]

/-- Settles O52: the one step of Finish, whatever its access would do. -/
theorem finishReleasesLock : Obligations.FinishReleasesLock := fun s fail rest hin hg =>
  ⟨finish (popped s rest), (step_prg hin).trans (prgStep_finish (s := popped s rest) hg fail), rfl, rfl, rfl,
    finish_imgSize_of_session (s := popped s rest), fun hop => if_neg hop, rfl, rfl, rfl, rfl⟩

/-! ### One byte of the verification -/

/-- The first mismatch of a verification is latched and put out (R246). -/
theorem compareByte_first {e a : Byte} (hv : s.prg.verifyErr = false) (hne : a ≠ e) :
    (compareByte e a s).prg.mm = ⟨true, BitVec.ofNat 24 s.prg.addr, e, a⟩ ∧
      (compareByte e a s).prg.emitted = s.prg.emitted ++ [.diagnostic (BitVec.ofNat 24 s.prg.addr) e a] := by
  obtain ⟨-, -, hfirst⟩ | ⟨hset | heq, -⟩ := compareByte_cases s e a
  · exact hfirst
  · cases hv.symm.trans hset
  · exact absurd heq hne

/-- A later mismatch, and a match, leave the diagnostic and the output port alone (R246). -/
theorem compareByte_not_first {e a : Byte} (h : s.prg.verifyErr = true ∨ a = e) :
    (compareByte e a s).prg.mm = s.prg.mm ∧ (compareByte e a s).prg.emitted = s.prg.emitted := by
  obtain ⟨hv, hne, -⟩ | ⟨-, hlater⟩ := compareByte_cases s e a
  · obtain hset | heq := h
    · cases hv.symm.trans hset
    · exact absurd heq hne
  · exact hlater

/-- The error flag after the byte has been compared (R246). -/
theorem byteCompared_verifyErr (b : Byte) (s : State) :
    (byteCompared b s).prg.verifyErr = (s.prg.verifyErr || s.dev.rdata != b) := by
  obtain ⟨-, -, -, -, -, -, -, -, -, -, hflag⟩ := compareByte_frame (polled s) b s.dev.rdata
  exact hflag

/-- Settles O50: the poll sees the read done and compares, and the address after it decides the next stage. -/
theorem verificationComparesEveryByte : Obligations.VerificationComparesEveryByte := by
  intro s rest b hin hg hready hp himg
  have hstep := (step_prg hin).trans (prgStep_rdPoll_done (s := popped s rest) hg hready hp himg)
  have hpolled := Polled.byteCompared b (popped s rest)
  have haddr := byteCompared_addr b (popped s rest)
  have hflag := byteCompared_verifyErr b (popped s rest)
  have hfirst := compareByte_first (s := polled (popped s rest)) (e := b) (a := s.dev.rdata)
  have hlater := compareByte_not_first (s := polled (popped s rest)) (e := b) (a := s.dev.rdata)
  by_cases hlt : s.prg.addr + 1 < s.prg.imgSize
  · rw [popped_prg, if_pos hlt] at hstep
    exact ⟨_, hstep, haddr, hpolled.polls, hpolled.dev, hflag, hfirst, hlater, fun _ => rfl,
      fun hle => absurd hlt (Nat.not_lt.2 hle)⟩
  · rw [popped_prg, if_neg hlt] at hstep
    exact ⟨_, hstep, haddr, hpolled.polls, hpolled.dev, hflag, hfirst, hlater, fun hlt' => absurd hlt' hlt,
      fun _ => ⟨rfl, rfl⟩⟩

/-! ### A SESSION begins -/

/-- Settles O59: with the lock free the answer takes it, and nothing is pending, which is all that EraseCmd asks. -/
theorem sessionBegins : Obligations.SessionBegins := by
  intro s rest h hg hin hother hpre
  have hheld : s.prg.lockHeld = false := by rw [h.lock_stage, hg]; rfl
  have hfree : lockFree (popped s rest) = true := (lockFree_iff s).2 ⟨hheld, hother⟩
  have hanswer := answer_accepted_of_free (s := popped s rest) hg hfree
  have hstep : step s = .next (takeLock .session .eraseCmd (dropAnswers (popped s rest))) :=
    (step_cons s hin).trans (congrArg _ hanswer)
  exact ⟨_, hstep, rfl, { hpre with }, hanswer ▸ (h.popped rest).answer true, hpre.p2, rfl, rfl, hpre.p1⟩

end Sys2Proof.Machine
/-! PROOF. A SESSION from EraseCmd to Idle keeps its promise (R241, R244, R249, R253). While PRG holds the lock no other agent
touches PRG or DEV (R72), so `stageGoal` has to be followed through three kinds of moves only: the completion of what PRG has
started, PRG's own step, one lemma for each stage, and the step out of Finish. -/

namespace Sys2Proof.Machine

variable {img : List Byte} {s t : State}

/-! ### What a SESSION in progress says -/

/-- What `SessionInv` says besides `StateInv` and the handle. -/
structure Programs (img : List Byte) (s : State) : Prop where
  session : s.prg.op = .session
  image   : s.prg.img = img
  goal    : stageGoal img s

theorem SessionInv.programs (h : SessionInv img s) : Programs img s := { h with }

theorem Programs.sessionInv (h : Programs img s) (hinv : StateInv s) (hready : s.env.devReady = true) : SessionInv img s :=
  { h with inv := hinv, ready := hready }

theorem SessionInv.popped (h : SessionInv img s) (rest : List Event) : SessionInv img (popped s rest) :=
  { h with inv := h.inv.popped rest }

/-- Before EraseCmd there is no SESSION in progress. -/
theorem Programs.locking (h : Programs img s) : lockingStage s.prg.stage = true := by
  have hgoal := h.goal
  cases hg : s.prg.stage <;> simp only [stageGoal, hg] at hgoal <;> rfl

/-- PRG holds the lock, and it alone (R38, R72). -/
theorem SessionInv.holds_lock (h : SessionInv img s) : s.prg.lockHeld = true ∧ s.env.lockOther = none :=
  have hheld := h.inv.lock_stage.trans h.programs.locking
  ⟨hheld, h.inv.lock_one hheld⟩

theorem SessionInv.img_ne_nil (h : SessionInv img s) : s.prg.img ≠ [] :=
  List.length_pos_iff.1 (h.inv.img_loaded (lockingStage_iff.1 h.programs.locking).1)

/-- The image has a byte at `PRG.addr` in the stages that look at it (R33, R34). -/
theorem SessionInv.addr_lt_length (h : SessionInv img s) (hb : byteStage s.prg.stage = true) : s.prg.addr < img.length :=
  h.image ▸ h.inv.addr_lt hb

/-- `PRG.addr` fits the 24 bits of the address field (R8, R34, R107). -/
theorem StateInv.toNat_addr (h : StateInv s) (hb : byteStage s.prg.stage = true) :
    (BitVec.ofNat 24 s.prg.addr).toNat = s.prg.addr := by
  have hlt := h.addr_lt hb
  have hle := h.img_le
  have hwf := h.params_wf
  simp only [Config.Params.wf, Bool.and_eq_true, decide_eq_true_eq] at hwf
  rw [BitVec.toNat_ofNat]
  exact Nat.mod_eq_of_lt (by omega)

/-! ### The moves of the other agents -/

/-- A move from `s` to `t` that leaves alone what the goal of a SESSION speaks of. -/
structure Untouched (s t : State) : Prop where
  params : t.params = s.params
  prg    : t.prg = s.prg
  dev    : t.dev = s.dev

theorem Programs.of_untouched (h : Programs img s) (hu : Untouched s t) : Programs img t := by
  obtain ⟨params, dec, prg, dev, env, draws⟩ := t
  obtain ⟨rfl, rfl, rfl⟩ := hu
  exact { h with }

theorem untouched_block (e : Event) (s : State) : Untouched s (block e s) := ⟨rfl, rfl, rfl⟩

/-- While PRG is in an operation with the lock, only `DEV.complete` and PRG's own step touch PRG or DEV (R72, R250, R290): the
others wait, are refused, or have nothing to do with either. -/
theorem runEvent_untouched {e : Event} (hs : lockingStage s.prg.stage = true) (hheld : s.prg.lockHeld = true)
    (hother : s.env.lockOther = none) (hcomplete : e ≠ .devComplete) (hprg : ∀ fail, e ≠ .prg fail)
    (ht : runEvent e s = .next t) : Untouched s t := by
  obtain ⟨hidle, hconfirm⟩ := lockingStage_iff.1 hs
  have hfree := lockFree_of_lockHeld hheld
  cases e
  case devComplete => exact absurd rfl hcomplete
  case prg fail => exact absurd rfl (hprg fail)
  case word w =>
    rw [runEvent, present_stream] at ht
    cases ht
    obtain ⟨hparams, hp, hdev, -⟩ := decStep_frame s w
    exact ⟨hparams, hp, hdev⟩
  case decRst | decSave | devReady | fifoFill =>
    cases ht
    exact ⟨rfl, rfl, rfl⟩
  case decRestore r =>
    rw [decRestore_next ht]
    exact ⟨rfl, rfl, rfl⟩
  case bufRead i =>
    rw [runEvent, bufRead] at ht
    split at ht <;> cases ht
    exact ⟨rfl, rfl, rfl⟩
  case cmd c =>
    rw [runEvent, command_of_busy hidle] at ht
    cases ht
  case prgRst =>
    rw [runEvent, prgRst_of_busy hidle] at ht
    cases ht
  case confirm b =>
    rw [runEvent, answer, if_pos hconfirm] at ht
    cases ht
    exact ⟨rfl, rfl, rfl⟩
  case otherAcquire who =>
    rw [runEvent, otherAcquire_of_not_free hfree] at ht
    cases ht
    exact untouched_block _ s
  case otherRelease who =>
    rw [runEvent, otherRelease, if_neg (by simp [hother])] at ht
    cases ht
    exact ⟨rfl, rfl, rfl⟩
  case hostWrite who _ _ _ | hostRead who _ _ =>
    rw [runEvent, hostAccess_of_not_allows (lockAllows_of_lockHeld hheld who)] at ht
    cases ht
    exact untouched_block _ s
  case srcPio | srcDma =>
    rw [runEvent, srcMove_of_not_free hfree] at ht
    cases ht
    exact untouched_block _ s

/-! ### The completion of what PRG has started -/

/-- A byte written behind the programmed ones extends them (R221, R244). -/
theorem programmed_byteWritten {a : EepAddr} {b : Byte} {n : Nat} (hwf : s.dev.mem.wf s.params = true) (ha : a.toNat = n)
    (hb : img[n]? = some b) (h : programmed s img n) : programmed (byteWritten a b s) img (n + 1) := by
  subst ha
  intro x hx
  change img[x]? = some ((s.dev.mem.store s.params a.toNat b).read s.params x)
  obtain rfl | hne := eq_or_ne x a.toNat
  · rw [read_store_self _ _ hwf, hb]
  · rw [read_store_of_ne _ _ _ hne, h x (by omega)]

/-- What lies above the byte written stays blank (R221, R244). -/
theorem blankFrom_byteWritten {a : EepAddr} {n : Nat} (ha : a.toNat = n) (b : Byte) (h : blankFrom s n) :
    blankFrom (byteWritten a b s) (n + 1) := by
  subst ha
  intro x hx
  have hne : x ≠ a.toNat := by omega
  obtain ⟨herased, hread⟩ := h x (by omega)
  refine ⟨?_, (read_store_of_ne _ _ b hne).trans hread⟩
  exact (erased_store _ _ _ _ _).trans (by simp [herased, hne])

theorem devComplete_of_none (h : s.dev.pending = .none) : devComplete s = s := by
  rw [devComplete, h]

/-- `DEV.complete` brings a SESSION's stage to its goal: the erase leaves every byte blank, the write adds its byte to those
programmed, the read fetches the image's byte (R217, R221, R225, R241, R244). -/
theorem SessionInv.devComplete_goal (h : SessionInv img s) : stageGoal img (devComplete s) := by
  have hgoal := h.goal
  by_cases hp : s.dev.pending = .none
  · rwa [devComplete_of_none hp]
  have hdev := h.inv.dev_stage
  obtain ⟨-, -, hprg, -⟩ := devComplete_frame s
  cases hg : s.prg.stage <;> simp only [stageGoal, devAtStage, hprg, hg] at hgoal hdev ⊢
  case eraseCmd => exact absurd hgoal hp
  case wrMode | rdMode =>
    obtain ⟨hnone, -⟩ := hgoal
    exact absurd hnone hp
  case wrByte | rdByte =>
    simp only [Bool.and_eq_true, beq_iff_eq] at hdev
    obtain ⟨-, hnone⟩ := hdev
    exact absurd hnone hp
  case erasePoll =>
    obtain herase | ⟨hnone, -⟩ := hgoal
    · rw [devComplete_of_erase herase]
      exact .inr ⟨rfl, fun _ _ => ⟨rfl, rfl⟩⟩
    · exact absurd hnone hp
  case wrPoll =>
    obtain ⟨b, himg, hwrite, hprogrammed, hblank⟩ | ⟨hnone, -⟩ := hgoal
    · obtain ⟨v, n, hcomplete, hv⟩ := devComplete_of_write hwrite
      have haddr := h.inv.toNat_addr (by rw [hg]; rfl)
      obtain rfl : v = b := hv (by rw [haddr]; exact (hblank _ (Nat.le_refl _)).1)
      rw [hcomplete]
      exact .inr ⟨rfl, programmed_byteWritten h.inv.mem_wf haddr himg hprogrammed, blankFrom_byteWritten haddr v hblank⟩
    · exact absurd hnone hp
  case rdPoll =>
    obtain ⟨hfull, hflag, hread | ⟨hnone, -⟩⟩ := hgoal
    · have hb : byteStage s.prg.stage = true := by rw [hg]; rfl
      have haddr := h.inv.toNat_addr hb
      have hbyte := hfull.1 _ (h.addr_lt_length hb)
      rw [devComplete_of_read hread]
      refine ⟨hfull, hflag, .inr ⟨rfl, hbyte.trans ?_⟩⟩
      rw [byteRead, haddr]
    · exact absurd hnone hp
  case finish =>
    obtain ⟨hending, hok⟩ := hgoal
    refine ⟨hending, fun h => ?_⟩
    obtain ⟨-, -, hnone⟩ := hok h
    exact absurd hnone hp

theorem SessionInv.devComplete (h : SessionInv img s) : Programs img (devComplete s) := by
  obtain ⟨-, -, hprg, -⟩ := devComplete_frame s
  exact ⟨hprg ▸ h.session, hprg ▸ h.image, h.devComplete_goal⟩

/-! ### An operation that ends, and a poll that sees BUSY -/

/-- A SESSION may end at any stage with an outcome that claims nothing (R232, R226). -/
theorem Programs.endWith_error (h : Programs img s) {e : PrgResult} (he : e = .deviceError ∨ ∃ g a, e = .timeout g a) :
    Programs img (endWith e s) :=
  ⟨h.session, h.image, .inr he, fun hok => by
    change e = .ok at hok
    obtain rfl | ⟨g, a, rfl⟩ := he <;> cases hok⟩

/-- With the handle there the one error an access of a SESSION meets is its own failure (R215, R232, R248). -/
theorem SessionInv.fails (h : SessionInv img s) (hs : accessStage s.prg.stage = true) (ht : prgStep true s = .next t) :
    Programs img t := by
  have hcheck := stageCheck_passes h.ready h.img_ne_nil
  rw [prgStep_of_accessError hs (fun hg => h.inv.addr_lt (by rw [hg]; rfl)) (by rw [hcheck, accessError])] at ht
  cases ht
  exact h.programs.endWith_error (.inl rfl)

/-- A poll that sees BUSY leaves the SESSION where it was, or ends it with `Timeout` (R226, R227). -/
theorem SessionInv.polls_on (h : SessionInv img s) (hs : pollStage s.prg.stage = true) (hp : s.dev.pending ≠ .none)
    (ht : prgStep false s = .next t) : Programs img t := by
  rw [prgStep_of_pending hs h.ready hp] at ht
  cases ht
  obtain ⟨l, hl⟩ := busyPolled_eq s
  have hon : Programs img (busyPolled s) := by
    rw [hl]
    exact ⟨h.session, h.image, h.goal⟩
  obtain ⟨-, hb⟩ | ⟨-, hb⟩ := stillBusy_cases (busyPolled s) <;> rw [hb]
  · exact hon.endWith_error (.inr ⟨_, _, rfl⟩)
  · exact hon

/-! ### The stages, in the order in which a SESSION goes through them -/

/-- PRG starts the erase (R240). -/
theorem SessionInv.eraseCmd (h : SessionInv img s) (hg : s.prg.stage = .eraseCmd) (ht : prgStep false s = .next t) :
    Programs img t := by
  have hp := h.goal
  simp only [stageGoal, hg] at hp
  rw [prgStep_eraseCmd hg ((precondition_none s).2 ⟨h.ready, h.img_ne_nil⟩) (whenNotBusy_of_none s hp)] at ht
  cases ht
  exact ⟨h.session, h.image, .inl rfl⟩

/-- The poll that sees the erase done finds every byte blank (R241). -/
theorem SessionInv.erasePoll (h : SessionInv img s) (hg : s.prg.stage = .erasePoll) (ht : prgStep false s = .next t) :
    Programs img t := by
  by_cases hp : s.dev.pending = .none
  · have hgoal := h.goal
    simp only [stageGoal, hg] at hgoal
    obtain herase | hblank := hgoal
    · cases hp.symm.trans herase
    have hop : s.prg.op ≠ .eraseAll := by simp [h.session]
    rw [prgStep_erasePoll_done hg h.ready hp, if_neg hop] at ht
    cases ht
    exact ⟨h.session, h.image, hblank⟩
  · exact h.polls_on (by rw [hg]; rfl) hp ht

/-- The download begins at byte 0 of a blank array (R242). -/
theorem SessionInv.wrMode (h : SessionInv img s) (hg : s.prg.stage = .wrMode) (ht : prgStep false s = .next t) :
    Programs img t := by
  have hgoal := h.goal
  simp only [stageGoal, hg] at hgoal
  obtain ⟨hp, hblank⟩ := hgoal
  rw [prgStep_wrMode hg ((precondition_none s).2 ⟨h.ready, h.img_ne_nil⟩) (whenNotBusy_of_none s hp)] at ht
  cases ht
  exact ⟨h.session, h.image, fun _ hlt => absurd hlt (Nat.not_lt_zero _), hblank⟩

/-- PRG starts the write of the image's next byte (R242). -/
theorem SessionInv.wrByte (h : SessionInv img s) (hg : s.prg.stage = .wrByte) (ht : prgStep false s = .next t) :
    Programs img t := by
  have hgoal := h.goal
  simp only [stageGoal, hg] at hgoal
  have hb : byteStage s.prg.stage = true := by rw [hg]; rfl
  obtain ⟨hm, hp⟩ : s.dev.mode = .writeEnable ∧ s.dev.pending = .none := by simpa [devAtStage, hg] using h.inv.dev_stage
  obtain ⟨b, himg⟩ := h.inv.img_at_addr hb
  rw [prgStep_wrByte hg h.ready hm himg (acceptData_of_writeEnable hp hm (h.inv.addr_in_array hb) b)] at ht
  cases ht
  exact ⟨h.session, h.image, .inl ⟨b, h.image ▸ himg, rfl, hgoal⟩⟩

/-- The poll that sees the write done has one more byte programmed; after the last it is the whole image (R242, R244). -/
theorem SessionInv.wrPoll (h : SessionInv img s) (hg : s.prg.stage = .wrPoll) (ht : prgStep false s = .next t) :
    Programs img t := by
  by_cases hp : s.dev.pending = .none
  · have hgoal := h.goal
    simp only [stageGoal, hg] at hgoal
    obtain ⟨b, -, hwrite, -⟩ | ⟨-, hdone⟩ := hgoal
    · cases hp.symm.trans hwrite
    have hop : s.prg.op ≠ .download := by simp [h.session]
    obtain ⟨l, hl⟩ := byteDownloaded_eq s
    rw [prgStep_wrPoll_done hg h.ready hp, if_neg hop, hl] at ht
    cases ht
    split
    · exact ⟨h.session, h.image, hdone⟩
    · next hlast =>
      have hlt := h.addr_lt_length (by rw [hg]; rfl)
      rw [Prg.imgSize, h.image] at hlast
      have hlen : s.prg.addr + 1 = img.length := by omega
      rw [hlen] at hdone
      exact ⟨h.session, h.image, hp, hdone⟩
  · exact h.polls_on (by rw [hg]; rfl) hp ht

/-- The verification begins with the error flag clear (R245). -/
theorem SessionInv.rdMode (h : SessionInv img s) (hg : s.prg.stage = .rdMode) (ht : prgStep false s = .next t) :
    Programs img t := by
  have hgoal := h.goal
  simp only [stageGoal, hg] at hgoal
  obtain ⟨hp, hfull⟩ := hgoal
  rw [prgStep_rdMode hg ((precondition_none s).2 ⟨h.ready, h.img_ne_nil⟩) (whenNotBusy_of_none s hp)] at ht
  cases ht
  exact ⟨h.session, h.image, hfull, rfl⟩

/-- PRG starts the read of the next byte (R245). -/
theorem SessionInv.rdByte (h : SessionInv img s) (hg : s.prg.stage = .rdByte) (ht : prgStep false s = .next t) :
    Programs img t := by
  have hgoal := h.goal
  simp only [stageGoal, hg] at hgoal
  obtain ⟨hfull, hflag⟩ := hgoal
  obtain ⟨hm, hp⟩ : s.dev.mode = .read ∧ s.dev.pending = .none := by simpa [devAtStage, hg] using h.inv.dev_stage
  have haddr := h.inv.addr_in_array (by rw [hg]; rfl)
  rw [prgStep_rdByte hg h.ready hm (acceptData_zero_of_read hp hm haddr)] at ht
  cases ht
  exact ⟨h.session, h.image, hfull, hflag, .inl rfl⟩

/-- The byte read is the image's, so the error flag stays clear, and after the last byte the outcome is Ok (R246, R247). -/
theorem SessionInv.rdPoll (h : SessionInv img s) (hg : s.prg.stage = .rdPoll) (ht : prgStep false s = .next t) :
    Programs img t := by
  by_cases hp : s.dev.pending = .none
  · have hgoal := h.goal
    simp only [stageGoal, hg] at hgoal
    obtain ⟨hfull, hflag, hread | ⟨-, himg⟩⟩ := hgoal
    · cases hp.symm.trans hread
    have hm : s.dev.mode = .read := by simpa [devAtStage, hg, hp] using h.inv.dev_stage
    have hclear : (byteCompared s.dev.rdata s).prg.verifyErr = false := by simp [byteCompared_verifyErr, hflag]
    have hok : verifyOutcome (byteCompared s.dev.rdata s) = .ok := by simp [verifyOutcome, hclear]
    obtain ⟨v, m, l, hc⟩ := compareByte_eq s.dev.rdata s.dev.rdata (polled s)
    rw [prgStep_rdPoll_done hg h.ready hp (h.image ▸ himg), hok, byteCompared, hc] at ht
    rw [byteCompared, hc] at hclear
    cases ht
    split
    · exact ⟨h.session, h.image, hfull, hclear⟩
    · exact ⟨h.session, h.image, .inl rfl, fun _ => ⟨hfull, hm, hp⟩⟩
  · exact h.polls_on (by rw [hg]; rfl) hp ht

/-- PRG's step in an operation keeps the promise of the stage, whether its access fails or not (R250). -/
theorem SessionInv.prgStep (h : SessionInv img s) {fail : Bool} (hne : s.prg.stage ≠ .finish)
    (ht : prgStep fail s = .next t) : Programs img t := by
  have hs := h.programs.locking
  cases fail with
  | true => exact h.fails (by simp [accessStage, hs, hne]) ht
  | false =>
    cases hg : s.prg.stage
    case idle | confirm =>
      rw [hg] at hs
      cases hs
    case eraseCmd => exact h.eraseCmd hg ht
    case erasePoll => exact h.erasePoll hg ht
    case wrMode => exact h.wrMode hg ht
    case wrByte => exact h.wrByte hg ht
    case wrPoll => exact h.wrPoll hg ht
    case rdMode => exact h.rdMode hg ht
    case rdByte => exact h.rdByte hg ht
    case rdPoll => exact h.rdPoll hg ht
    case finish => exact absurd hg hne

/-! ### The end, and every step -/

/-- How a SESSION that programs `img` ends in `t`, coming from `s` (R247, R249, R253): in Idle, without the lock and the image,
with an outcome that is not `VerificationFailed`, and with Ok only if the array is the image and blank above it. -/
def SessionEnds (img : List Byte) (s t : State) : Prop :=
  t.prg.stage = .idle ∧ t.prg.lockHeld = false ∧ t.prg.imgSize = 0 ∧ t.prg.result = s.prg.ending ∧
    (t.prg.result = .ok ∨ t.prg.result = .deviceError ∨ ∃ g a, t.prg.result = .timeout g a) ∧
    (t.prg.result = .ok → fullyProgrammed t img ∧ t.dev.mode = .read ∧ t.dev.pending = .none)

theorem SessionInv.finish (h : SessionInv img s) (hg : s.prg.stage = .finish) : SessionEnds img s (finish s) := by
  have hgoal := h.goal
  simp only [stageGoal, hg] at hgoal
  exact ⟨rfl, rfl, finish_imgSize_of_session h.session, rfl, hgoal⟩

/-- A step of PRG in a SESSION (R249, R250). -/
theorem SessionInv.prgStep_cases (h : SessionInv img s) {fail : Bool} (ht : Machine.prgStep fail s = .next t) :
    Programs img t ∨ SessionEnds img s t := by
  by_cases hg : s.prg.stage = .finish
  · rw [prgStep_finish hg] at ht
    cases ht
    exact .inr (h.finish hg)
  · exact .inl (h.prgStep hg ht)

/-- Every move of every agent in a SESSION (R7, R253). -/
theorem SessionInv.runEvent (h : SessionInv img s) {e : Event} (ht : runEvent e s = .next t) :
    Programs img t ∨ SessionEnds img s t := by
  by_cases hcomplete : e = .devComplete
  · subst hcomplete
    cases ht
    exact .inl h.devComplete
  by_cases hprg : ∃ fail, e = .prg fail
  · obtain ⟨fail, rfl⟩ := hprg
    exact h.prgStep_cases ht
  · obtain ⟨hheld, hother⟩ := h.holds_lock
    exact .inl (h.programs.of_untouched
      (runEvent_untouched h.programs.locking hheld hother hcomplete (fun fail he => hprg ⟨fail, he⟩) ht))

/-- The step runs the move at the head of the list, or with none listed PRG's own. -/
theorem SessionInv.step (h : SessionInv img s) (ht : step s = .next t) : Programs img t ∨ SessionEnds img s t := by
  cases hin : s.env.inputs with
  | nil =>
    rw [step_nil s hin, if_pos h.programs.locking] at ht
    exact h.prgStep_cases ht
  | cons e rest =>
    rw [step_cons s hin] at ht
    exact (h.popped rest).runEvent ht

/-- Settles O60: the step keeps the promise of the stage or ends the SESSION, and it keeps `StateInv`. -/
theorem sessionProgramsTheImage : Obligations.SessionProgramsTheImage := fun _ _ _ h ht hready =>
  (h.step ht).imp_left fun hp => hp.sessionInv (stepKeepsInvariant _ _ h.inv ht) hready

end Sys2Proof.Machine
/-! PROOF. SRC (spec file 48): the words that a `readBlock` delivers, in programmed-I/O mode (R261, R262, R265) and in DMA mode
(R266), from a FIFO that does not run empty. -/

namespace Sys2Proof.Machine

variable {s : State}

/-! ### Reads of the FIFO -/

/-- The state with other words left in the FIFO. -/
def withFifo (ws : List Word) (s : State) : State := { s with env := { s.env with fifo := ws } }

theorem fifoPop_cons {w : Word} {ws : List Word} (h : s.env.fifo = w :: ws) : fifoPop s = (w, withFifo ws s) := by
  rw [fifoPop, h]
  rfl

theorem srcMove_of_free (h : lockFree s = true) (e : Event) (f : State → State) : srcMove e f s = .next (f s) := if_pos h

/-- A delivery written out: the words are the next moves, and the report is their number (R260). -/
theorem deliver_withFifo {ws left : List Word} {n : Nat} (h : ws.length = n) :
    deliver ws (withFifo left s) = { s with env := { s.env with
      inputs := ws.map Event.word ++ s.env.inputs, fifo := left, srcResult := .words n } } := by
  subst h
  rfl

/-! ### A DMA transfer -/

/-- A transfer that does not fail delivers the first words of the FIFO, behind the dummy word when it is inserted (R266). -/
theorem readBlockDma_of_le {n : Nat} (h : n ≤ s.env.fifo.length) (filler : Bool) :
    readBlockDma n filler false s =
      deliver (if filler then s.params.dmaFillerWord :: s.env.fifo.take n else s.env.fifo.take n)
        (withFifo (s.env.fifo.drop n) s) := by
  rw [readBlockDma, if_neg Bool.false_ne_true, popWords_eq s n h]
  rfl

/-- Settles O55: the transfer is made with the lock free, and the count is the number of words delivered. -/
theorem dmaDelivery : Obligations.DmaDelivery := by
  intro s n filler fail rest hheld hother hin hle
  have hfree : lockFree (popped s rest) = true := (lockFree_iff s).2 ⟨hheld, hother⟩
  have hstep := (step_cons s hin).trans (srcMove_of_free hfree _ _)
  have hlen : (s.env.fifo.take n).length = n := List.length_take_of_le hle
  rw [hstep]
  refine ⟨?fails, ?plain, ?filled⟩
  case fails =>
    rintro rfl
    rfl
  case plain =>
    rintro rfl rfl
    exact congrArg _ ((readBlockDma_of_le (s := popped s rest) hle _).trans (deliver_withFifo hlen))
  case filled =>
    rintro rfl rfl
    exact congrArg _ ((readBlockDma_of_le (s := popped s rest) hle _).trans (deliver_withFifo (congrArg Nat.succ hlen)))

/-! ### The body of a programmed-I/O delivery -/

/-- `k` words of `ws` are what the loop of R262 reads with room for `n`: it stops behind the first block trailer, or when the
room is used up. -/
structure BodyLength (n : Nat) (ws : List Word) (k : Nat) : Prop where
  le_room  : k ≤ n
  le_words : k ≤ ws.length
  inner    : ∀ j, j + 1 < k → ∀ w, ws[j]? = some w → isBlockTrailer w = false
  last     : k = n ∨ ∃ j w, k = j + 1 ∧ ws[j]? = some w ∧ isBlockTrailer w = true

/-- The FIFO does not run empty under the loop: it holds a word for each place, or a block trailer. -/
def holdsBody (n : Nat) (ws : List Word) : Prop :=
  n ≤ ws.length ∨ ∃ (i : Nat) (w : Word), ws[i]? = some w ∧ isBlockTrailer w = true

theorem BodyLength.trailer {w : Word} (hw : isBlockTrailer w = true) (n : Nat) (ws : List Word) :
    BodyLength (n + 1) (w :: ws) 1 where
  le_room := by omega
  le_words := by simp
  inner := fun j hj => by omega
  last := .inr ⟨0, w, rfl, rfl, hw⟩

theorem BodyLength.cons {n k : Nat} {ws : List Word} {w : Word} (hw : isBlockTrailer w = false) (h : BodyLength n ws k) :
    BodyLength (n + 1) (w :: ws) (k + 1) where
  le_room := Nat.succ_le_succ h.le_room
  le_words := Nat.succ_le_succ h.le_words
  inner := fun j hj x hx => by
    cases j with
    | zero =>
      cases hx
      exact hw
    | succ j => exact h.inner j (by omega) x hx
  last := by
    obtain rfl | ⟨j, x, rfl, hx, ht⟩ := h.last
    · exact .inl rfl
    · exact .inr ⟨j + 1, x, rfl, hx, ht⟩

theorem holdsBody_tail {n : Nat} {ws : List Word} {w : Word} (hw : isBlockTrailer w = false) (h : holdsBody (n + 1) (w :: ws)) :
    holdsBody n ws := by
  obtain hle | ⟨i, x, hx, ht⟩ := h
  · exact .inl (Nat.le_of_succ_le_succ hle)
  · cases i with
    | zero =>
      cases hx
      cases hw.symm.trans ht
    | succ i => exact .inr ⟨i, x, hx, ht⟩

theorem not_holdsBody_nil (n : Nat) : ¬ holdsBody (n + 1) [] := by
  rintro (hle | ⟨i, x, hx, -⟩)
  · exact absurd hle (Nat.not_succ_le_zero n)
  · simp at hx

/-- The loop of R262 reads the words that `BodyLength` counts, in the FIFO's order. -/
theorem pioBody_eq (n : Nat) (h : holdsBody n s.env.fifo) :
    ∃ k, BodyLength n s.env.fifo k ∧ pioBody n s = (s.env.fifo.take k, withFifo (s.env.fifo.drop k) s) := by
  induction n generalizing s with
  | zero => exact ⟨0, ⟨Nat.le_refl _, Nat.zero_le _, fun j hj => by omega, .inl rfl⟩, rfl⟩
  | succ n ih =>
    cases hf : s.env.fifo with
    | nil => exact absurd (hf ▸ h) (not_holdsBody_nil n)
    | cons w ws =>
      rw [hf] at h
      rw [pioBody, fifoPop_cons hf]
      dsimp only
      cases hw : isBlockTrailer w with
      | true => exact ⟨1, .trailer hw n ws, rfl⟩
      | false =>
        obtain ⟨k, hk, hbody⟩ := ih (s := withFifo ws s) (holdsBody_tail hw h)
        refine ⟨k + 1, hk.cons hw, ?_⟩
        rw [hbody]
        rfl

/-! ### A programmed-I/O delivery -/

/-- SRC has delivered the first `k` words of the FIFO (R262). -/
def fifoDelivered (k : Nat) (s : State) : State := deliver (s.env.fifo.take k) (withFifo (s.env.fifo.drop k) s)

/-- SRC has lost the first `k` words of the FIFO to a read that failed behind them (R265). -/
def fifoLost (k : Nat) (s : State) : State := report .readError (withFifo (s.env.fifo.drop k) s)

variable {lead : Word} {body : List Word} {m k : Nat}

/-- A lead word that is no block header ends the delivery (R261). -/
theorem readBlockPio_of_noHeader (hf : s.env.fifo = lead :: body) (hlead : isBlockHeader lead = false) {fail : Option Nat}
    (hfail : fail ≠ some 0) (m : Nat) (z : Bool) :
    readBlockPio m z fail s = report (if z then .words 0 else .invalidHeader) (withFifo body s) := by
  rw [readBlockPio, if_neg hfail, fifoPop_cons hf]
  exact if_neg (Bool.eq_false_iff.1 hlead)

/-- Behind a block header the loop of R262 decides how many words there are, and a read that fails among them loses the delivery
(R262, R265). -/
theorem readBlockPio_of_header (hf : s.env.fifo = lead :: body) (hlead : isBlockHeader lead = true)
    (hb : holdsBody (m - 1) body) (z : Bool) :
    ∃ k, BodyLength (m - 1) body k ∧ readBlockPio m z none s = fifoDelivered (k + 1) s ∧
      ∀ j, readBlockPio m z (some (j + 1)) s = if j + 1 ≤ k then fifoLost (j + 1) s else fifoDelivered (k + 1) s := by
  obtain ⟨k, hk, hbody⟩ := pioBody_eq (s := withFifo body s) (m - 1) hb
  have hdelivered : fifoDelivered (k + 1) s =
      deliver (lead :: (pioBody (m - 1) (withFifo body s)).1) (pioBody (m - 1) (withFifo body s)).2 := by
    rw [hbody, fifoDelivered, hf]
    rfl
  have hlen : (pioBody (m - 1) (withFifo body s)).1.length = k := by
    rw [hbody]
    exact List.length_take_of_le hk.le_words
  refine ⟨k, hk, ?none, fun j => ?fails⟩
  case none =>
    rw [readBlockPio, if_neg nofun, fifoPop_cons hf, hdelivered]
    exact if_pos hlead
  case fails =>
    rw [readBlockPio, if_neg (by simp), fifoPop_cons hf, hdelivered]
    dsimp only
    rw [if_pos hlead, hlen]
    split
    · next hle =>
      have hwords : j + 1 ≤ s.env.fifo.length := by
        have hbehind : k ≤ body.length := hk.le_words
        rw [hf, List.length_cons]
        omega
      rw [popWords_eq s (j + 1) hwords]
      rfl
    · rfl

/-! ### What is delivered, in the terms of the FIFO -/

theorem isBlockTrailer_iff (w : Word) : isBlockTrailer w = true ↔ w &&& 0xF8000000 = 0x88000000 := by
  obtain ⟨-, h⟩ := framingPredicatesAreMasks w
  exact h

theorem isBlockHeader_iff (w : Word) : isBlockHeader w = true ↔ w &&& 0xF8000000 = 0x80000000 := by
  obtain ⟨h, -⟩ := framingPredicatesAreMasks w
  exact h

/-- Behind the lead word and before the last word delivered there is no block trailer (R262). -/
theorem BodyLength.no_trailer (h : BodyLength m body k) {i : Nat} (h0 : 0 < i) (hi : i < k) {w : Word}
    (hw : (lead :: body)[i]? = some w) : w &&& 0xF8000000 ≠ 0x88000000 := by
  obtain ⟨j, rfl⟩ := Nat.exists_eq_succ_of_ne_zero h0.ne'
  have hnot := h.inner j hi w hw
  rwa [Ne, ← isBlockTrailer_iff, Bool.not_eq_true]

/-- The FIFO of O54 does not run empty behind its lead word. -/
theorem holdsBody_of_fifo (h : m ≤ (lead :: body).length ∨
      ∃ (i : Nat) (w : Word), 1 ≤ i ∧ (lead :: body)[i]? = some w ∧ w &&& 0xF8000000 = 0x88000000) :
    holdsBody (m - 1) body := by
  obtain hle | ⟨i, w, hi, hw, ht⟩ := h
  · exact .inl (Nat.sub_le_of_le_add hle)
  · obtain ⟨j, rfl⟩ := Nat.exists_eq_add_of_le' hi
    exact .inr ⟨j, w, hw, (isBlockTrailer_iff w).2 ht⟩

/-- What O54 says of a delivery of `k` words from `s` that leads to `t`, with the moves `rest` behind it. -/
def Delivered (m : Nat) (rest : List Event) (s t : State) (k : Nat) : Prop :=
  1 ≤ k ∧ k ≤ max m 1 ∧ t.env.inputs = (s.env.fifo.take k).map Event.word ++ rest ∧
    t.env.fifo = s.env.fifo.drop k ∧ t.env.srcResult = .words k ∧
    (∀ j, 0 < j → j + 1 < k → ∀ w, s.env.fifo[j]? = some w → w &&& 0xF8000000 ≠ 0x88000000) ∧
    (k = max m 1 ∨ ∃ w, s.env.fifo[k - 1]? = some w ∧ w &&& 0xF8000000 = 0x88000000)

theorem BodyLength.delivered (h : BodyLength (m - 1) body k) (hf : s.env.fifo = lead :: body) (rest : List Event) :
    Delivered m rest s (fifoDelivered (k + 1) (popped s rest)) (k + 1) := by
  have hroom := h.le_room
  have hlen : (s.env.fifo.take (k + 1)).length = k + 1 := by
    rw [hf]
    exact List.length_take_of_le (Nat.succ_le_succ h.le_words)
  refine ⟨by omega, by omega, rfl, rfl, congrArg SrcResult.words hlen, fun j h0 hj w hw => ?inner, ?last⟩
  case inner => exact h.no_trailer h0 (Nat.lt_of_succ_lt_succ hj) (hf ▸ hw)
  case last =>
    obtain rfl | ⟨j, w, rfl, hw, ht⟩ := h.last
    · exact .inl (by omega)
    · exact .inr ⟨w, hf ▸ hw, (isBlockTrailer_iff w).1 ht⟩

/-- Settles O54: the delivery is made with the lock free; the lead word and the read that fails decide which it is. -/
theorem programmedDelivery : Obligations.ProgrammedDelivery := by
  intro s m z fail rest hheld hother hin hholds lead body hf
  have hfree : lockFree (popped s rest) = true := (lockFree_iff s).2 ⟨hheld, hother⟩
  have hstep := (step_cons s hin).trans (srcMove_of_free hfree _ _)
  obtain ⟨-, hdec, hprg, hdev, -⟩ := readBlockPio_frame (popped s rest) m z fail
  have hheader (hlead : lead &&& 0xF8000000 = 0x80000000) :=
    readBlockPio_of_header (s := popped s rest) hf ((isBlockHeader_iff lead).2 hlead) (holdsBody_of_fifo (hf ▸ hholds)) z
  refine ⟨_, hstep, hdec, hprg, hdev, fun hlead hfail => ?delivered, fun hlead hfail => ?noHeader, fun hfail => ?first,
    fun j hlead hfail => ?fails⟩
  case delivered =>
    obtain ⟨k, hk, hnone, -⟩ := hheader hlead
    rw [hfail, hnone]
    exact ⟨k + 1, hk.delivered hf rest⟩
  case noHeader =>
    rw [readBlockPio_of_noHeader (s := popped s rest) hf (by rwa [← Bool.not_eq_true, isBlockHeader_iff]) hfail]
    exact ⟨rfl, rfl⟩
  case first =>
    rw [hfail]
    exact ⟨rfl, rfl, rfl⟩
  case fails =>
    obtain ⟨k, hk, -, hsome⟩ := hheader hlead
    rw [hfail, hsome]
    by_cases hle : j + 1 ≤ k
    · have hroom := hk.le_room
      rw [if_pos hle]
      exact .inr ⟨by omega, ⟨rfl, rfl, rfl⟩, fun i hi hij w hw => hk.no_trailer hi (by omega) (hf ▸ hw)⟩
    · rw [if_neg hle]
      exact .inl ⟨k + 1, by omega, hk.delivered hf rest⟩

end Sys2Proof.Machine
